-- ==== Sys2Proof/Word.lean ====
section
/-! DEFINITION. The machine's word types (spec/00_scope.md R5, R8) and the three access widths (spec/20_memory.md R64). -/

namespace Sys2Proof

/-- A 32-bit register, address or instruction word. -/
abbrev Word := BitVec 32

/-- A 16-bit halfword: a PS/2 event, a VGA register. -/
abbrev Half := BitVec 16

/-- One byte of memory. -/
abbrev Byte := BitVec 8

/-- The access widths of the physical bus, 1, 2 and 4 bytes (R64). -/
inductive Width where
  | byte
  | half
  | word
  deriving DecidableEq, Repr

end Sys2Proof
end

