-- ==== Sys2Proof/Syntax.lean ====
section
/-! DEFINITION. The fifty-six instructions of spec/opcode_table.json, one constructor a row, with the operand fields of
spec/30_encoding.md R111 to R113. -/

namespace Sys2Proof

/-- A general-register operand field, r0..r31 (R111). -/
abbrev Reg := BitVec 5

/-- A control-register operand field; 0..13 name a register (spec/10_state.md R34). -/
abbrev CrIndex := BitVec 5

/-- One instruction. Operand names are the table's; a store's `rS` is the register stored (R113). An immediate is the 32-bit value that
R112 assembles it to, sign- or zero-extended: the widths of immediate fields are part of the bit layout (spec decision D1), so that
a layout with other widths answers these same instructions (`Encoding`, log 1). `movi.h`'s 16 bits are no matter of layout: they
are the half of rD that R155 writes; nor are `sys`'s 8, which name one of the 256 slots of the vector table (R5, R289; log 1, DEDUCED). -/
inductive Instr where
  -- spec/40_alu.md
  | add (rD rA rB : Reg)
  | sub (rD rA rB : Reg)
  | and (rD rA rB : Reg)
  | or (rD rA rB : Reg)
  | xor (rD rA rB : Reg)
  | lsl (rD rA rB : Reg)
  | lsr (rD rA rB : Reg)
  | rotr (rD rA rB : Reg)
  | cmp (rA rB : Reg)
  | mov (rD rA : Reg)
  | movi (rD : Reg) (imm : Word)
  | moviU (rD : Reg) (imm : Word)
  | moviH (rD : Reg) (imm16 : BitVec 16)
  | adpc (rD : Reg) (disp : Word)
  -- spec/43_system.md: control-register moves
  | crmvW (crD : CrIndex) (rS : Reg)
  | crmvR (rD : Reg) (crS : CrIndex)
  -- spec/41_loadstore.md
  | lw (rD : Reg) (disp : Word)
  | sw (rS : Reg) (disp : Word)
  | lwa (rD rA : Reg) (disp : Word)
  | swa (rS rA : Reg) (disp : Word)
  | lda (rD rA : Reg) (disp : Word)
  | sda (rS rA : Reg) (disp : Word)
  | lba (rD rA : Reg) (disp : Word)
  | sba (rS rA : Reg) (disp : Word)
  | fada (rD rA rV : Reg) (disp : Word)
  -- spec/42_control.md
  | push (rS : Reg)
  | pop (rD : Reg)
  | br (disp : Word)
  | bz (disp : Word)
  | bnz (disp : Word)
  | bs (disp : Word)
  | bns (disp : Word)
  | bc (disp : Word)
  | bnc (disp : Word)
  | bo (disp : Word)
  | bno (disp : Word)
  | bl (disp : Word)
  | bge (disp : Word)
  | ble (disp : Word)
  | bb (disp : Word)
  | bae (disp : Word)
  | bbe (disp : Word)
  | jmp (imm : Word)
  | call (disp : Word)
  | ret
  | nop
  -- spec/43_system.md
  | ipi (rD rT : Reg)
  | sys (imm8 : BitVec 8)
  | rfe
  | rfi
  | rft
  | tlbw (rE rV : Reg)
  | tlbr (rD rV : Reg)
  | tlbc
  | modeHalt
  | modeSleep
  deriving DecidableEq, Repr

end Sys2Proof
end

