-- ==== Sys2Proof/WellFormed.lean ====
section
/-! DEFINITION. The checks on an instruction that its fields' types do not already make: a cr-index names one of the fourteen
control registers (spec/10_state.md R34, spec/30_encoding.md R115, R116 item 4), and an immediate is one that the spec's layout can
hold (R112). -/

namespace Sys2Proof

/-- "Indices 14..31 name no register" (R34). -/
def crIndexOk (k : CrIndex) : Bool := decide (k.toNat ≤ 13)

/-- The value is its low `n` bits, sign-extended. -/
def fitsSigned (n : Nat) (v : Word) : Bool := (v.setWidth n).signExtend 32 == v

/-- The value is its low `n` bits, zero-extended. -/
def fitsUnsigned (n : Nat) (v : Word) : Bool := (v.setWidth n).zeroExtend 32 == v

/-- The instruction is one that the spec's decoder can answer. -/
def Instr.wellFormed : Instr → Bool
  | .crmvW crD _ => crIndexOk crD
  | .crmvR _ crS => crIndexOk crS
  | .movi _ imm => fitsSigned 16 imm
  | .moviU _ imm => fitsUnsigned 16 imm
  | .adpc _ disp | .lw _ disp | .sw _ disp => fitsSigned 21 disp
  | .lwa _ _ disp | .swa _ _ disp | .lda _ _ disp | .sda _ _ disp | .lba _ _ disp | .sba _ _ disp => fitsSigned 16 disp
  | .fada _ _ _ disp => fitsSigned 11 disp
  | .br disp | .bz disp | .bnz disp | .bs disp | .bns disp | .bc disp | .bnc disp | .bo disp => fitsSigned 26 disp
  | .bno disp | .bl disp | .bge disp | .ble disp | .bb disp | .bae disp | .bbe disp | .call disp => fitsSigned 26 disp
  | .jmp imm => fitsUnsigned 26 imm
  | .add _ _ _ | .sub _ _ _ | .and _ _ _ | .or _ _ _ | .xor _ _ _ | .lsl _ _ _ | .lsr _ _ _ | .rotr _ _ _ => true
  | .cmp _ _ | .mov _ _ | .moviH _ _ | .push _ | .pop _ => true
  | .ret | .nop | .ipi _ _ | .sys _ | .rfe | .rfi | .rft => true
  | .tlbw _ _ | .tlbr _ _ | .tlbc | .modeHalt | .modeSleep => true

end Sys2Proof
end

