-- ==== Sys2Proof/Decode.lean ====
section
/-! DEFINITION. Decoding and encoding, spec/30_encoding.md R110 to R117 and spec/opcode_table.json. The layout is the spec's
own (spec decision D1, the parameter `ENCODING`): log 1. -/

namespace Sys2Proof

/-! ## Byte order of an instruction word (spec/20_memory.md R62) -/

/-- The four bytes of a word, the least significant at the lowest address (R62). -/
def bytesOfWord (w : Word) : List Byte :=
  [w.extractLsb' 0 8, w.extractLsb' 8 8, w.extractLsb' 16 8, w.extractLsb' 24 8]

/-- The word four bytes hold, `b0` at the lowest address (R62). -/
def wordOfBytes (b0 b1 b2 b3 : Byte) : Word := b3 ++ b2 ++ b1 ++ b0

/-! ## Fields (R111) -/

/-- Bits [31:26], the major opcode. -/
def opField (w : Word) : BitVec 6 := w.extractLsb' 26 6

/-- Bits [25:21]: rD, rS, or field a. -/
def aField (w : Word) : BitVec 5 := w.extractLsb' 21 5

/-- Bits [20:16]: rA, or field b. -/
def bField (w : Word) : BitVec 5 := w.extractLsb' 16 5

/-- Bits [15:11]: rB or rV. -/
def cField (w : Word) : BitVec 5 := w.extractLsb' 11 5

/-- Bits [10:0]: the imm11 of F, and must-be-zero bits of R3. -/
def imm11Field (w : Word) : BitVec 11 := w.extractLsb' 0 11

/-- Bits [15:0]: the imm16 of I16 and MOVI, and must-be-zero bits of R2. -/
def imm16Field (w : Word) : BitVec 16 := w.extractLsb' 0 16

/-- Bits [20:0]: the imm21 of I21, and must-be-zero bits of R1. -/
def imm21Field (w : Word) : BitVec 21 := w.extractLsb' 0 21

/-- Bits [25:0]: the imm26 of J, and must-be-zero bits of N. -/
def imm26Field (w : Word) : BitVec 26 := w.extractLsb' 0 26

/-- Bits [20:18] of MOVI, must be zero. -/
def moviZeroField (w : Word) : BitVec 3 := w.extractLsb' 18 3

/-- Bits [17:16] of MOVI, the variant v. -/
def moviVariantField (w : Word) : BitVec 2 := w.extractLsb' 16 2

/-- Bits [25:8] of SYS, must be zero. -/
def sysZeroField (w : Word) : BitVec 18 := w.extractLsb' 8 18

/-- Bits [7:0] of SYS, the IVT slot number. -/
def imm8Field (w : Word) : BitVec 8 := w.extractLsb' 0 8

/-- Bits [25:1] of MODE, must be zero. -/
def modeZeroField (w : Word) : BitVec 25 := w.extractLsb' 1 25

/-- Bit 0 of MODE: k = 0 halt, k = 1 sleep. -/
def modeKField (w : Word) : BitVec 1 := w.extractLsb' 0 1

/-! ## Immediates (R112) -/

/-- `sext_32` (spec/00_scope.md R8). -/
def sext {n : Nat} (v : BitVec n) : Word := v.signExtend 32

/-- `zext_32` (spec/00_scope.md R8). -/
def zext {n : Nat} (v : BitVec n) : Word := v.zeroExtend 32

/-! ## Decoding (R115, R116) -/

/-- Why a word is no instruction: the four items of R116. Every one raises EXC_INSTR when the word is fetched. -/
inductive IllegalWord where
  /-- R116 item 1: a major opcode with no row. -/
  | unassignedOpcode
  /-- R116 item 2: a must-be-zero bit of the format is set. -/
  | mustBeZero
  /-- R116 item 3: MOVI with v = 3. -/
  | moviVariant
  /-- R116 item 4: a crmv cr-index of 14..31. -/
  | crIndex
  /-- Fewer than four bytes: no fetch hands these over (R110). -/
  | tooShort
  deriving DecidableEq, Repr

/-- What decoding a word answers. -/
abbrev Decoded := Except IllegalWord Instr

/-- Formats whose only check is that the unassigned bits are zero (R111). -/
def decodeIfZero {n : Nat} (mbz : BitVec n) (i : Instr) : Decoded :=
  if mbz = 0#n then .ok i else .error .mustBeZero

def decodeR3 (w : Word) (mk : Reg → Reg → Reg → Instr) : Decoded :=
  decodeIfZero (imm11Field w) (mk (aField w) (bField w) (cField w))

def decodeR2 (w : Word) (mk : Reg → Reg → Instr) : Decoded :=
  decodeIfZero (imm16Field w) (mk (aField w) (bField w))

def decodeR1 (w : Word) (mk : Reg → Instr) : Decoded :=
  decodeIfZero (imm21Field w) (mk (aField w))

def decodeI16 (w : Word) (mk : Reg → Reg → Word → Instr) : Decoded :=
  .ok (mk (aField w) (bField w) (sext (imm16Field w)))

def decodeI21 (w : Word) (mk : Reg → Word → Instr) : Decoded :=
  .ok (mk (aField w) (sext (imm21Field w)))

def decodeF (w : Word) (mk : Reg → Reg → Reg → Word → Instr) : Decoded :=
  .ok (mk (aField w) (bField w) (cField w) (sext (imm11Field w)))

/-- J with a pc-relative displacement: br, b<cond>, call. -/
def decodeJ (w : Word) (mk : Word → Instr) : Decoded := .ok (mk (sext (imm26Field w)))

/-- J with an absolute target: jmp. -/
def decodeJmp (w : Word) : Decoded := .ok (.jmp (zext (imm26Field w)))

def decodeN (w : Word) (i : Instr) : Decoded := decodeIfZero (imm26Field w) i

def decodeSYS (w : Word) (mk : BitVec 8 → Instr) : Decoded :=
  decodeIfZero (sysZeroField w) (mk (imm8Field w))

/-- MOVI: v = 0 movi, 1 movi.u, 2 movi.h, 3 illegal (R111, R114, R116 item 3). -/
def decodeMovi (w : Word) : Decoded :=
  if moviZeroField w ≠ 0#3 then .error .mustBeZero
  else if moviVariantField w = 0#2 then .ok (.movi (aField w) (sext (imm16Field w)))
  else if moviVariantField w = 1#2 then .ok (.moviU (aField w) (zext (imm16Field w)))
  else if moviVariantField w = 2#2 then .ok (.moviH (aField w) (imm16Field w))
  else .error .moviVariant

/-- MODE: k = 0 mode halt, k = 1 mode sleep (R111, R114). -/
def decodeMode (w : Word) : Decoded :=
  decodeIfZero (modeZeroField w) (if modeKField w = 0#1 then .modeHalt else .modeSleep)

/-- The parameter `ENCODING` (spec/00_scope.md R6, spec decision D1): what a layout makes of each word. It gives every immediate as
its assembled 32-bit value, so a layout is free in its opcodes, its fields, their places and widths, and its illegal words. -/
abbrev Encoding := Word → Decoded

/-- The cr-index check of R115, "the one decode condition a match/mask pair cannot express", made on a word that matches a
crmv row. -/
def checkCr (k : CrIndex) (d : Decoded) : Decoded :=
  match d with
  | .ok i => if crIndexOk k then .ok i else .error .crIndex
  | .error e => .error e

/-- The decoding of R115, total on every 32-bit word; the arms are the opcode map of R114. It is the spec's `ENCODING`. -/
def decode (w : Word) : Decoded :=
  match opField w with
  | 0x01 => decodeR3 w .add
  | 0x02 => decodeR3 w .sub
  | 0x03 => decodeR3 w .and
  | 0x04 => decodeR3 w .or
  | 0x05 => decodeR3 w .xor
  | 0x06 => decodeR3 w .lsl
  | 0x07 => decodeR3 w .lsr
  | 0x08 => decodeR3 w .rotr
  | 0x09 => decodeR2 w .cmp
  | 0x0A => decodeR2 w .mov
  | 0x0B => decodeMovi w
  | 0x0C => decodeI21 w .adpc
  | 0x0D => checkCr (aField w) (decodeR2 w .crmvW)
  | 0x0E => checkCr (bField w) (decodeR2 w .crmvR)
  | 0x10 => decodeI21 w .lw
  | 0x11 => decodeI21 w .sw
  | 0x12 => decodeI16 w .lwa
  | 0x13 => decodeI16 w .swa
  | 0x14 => decodeI16 w .lda
  | 0x15 => decodeI16 w .sda
  | 0x16 => decodeI16 w .lba
  | 0x17 => decodeI16 w .sba
  | 0x18 => decodeF w .fada
  | 0x19 => decodeR1 w .push
  | 0x1A => decodeR1 w .pop
  | 0x20 => decodeJ w .br
  | 0x21 => decodeJ w .bz
  | 0x22 => decodeJ w .bnz
  | 0x23 => decodeJ w .bs
  | 0x24 => decodeJ w .bns
  | 0x25 => decodeJ w .bc
  | 0x26 => decodeJ w .bnc
  | 0x27 => decodeJ w .bo
  | 0x28 => decodeJ w .bno
  | 0x29 => decodeJ w .bl
  | 0x2A => decodeJ w .bge
  | 0x2B => decodeJ w .ble
  | 0x2C => decodeJ w .bb
  | 0x2D => decodeJ w .bae
  | 0x2E => decodeJ w .bbe
  | 0x30 => decodeJmp w
  | 0x31 => decodeJ w .call
  | 0x32 => decodeN w .ret
  | 0x33 => decodeN w .nop
  | 0x37 => decodeR2 w .ipi
  | 0x38 => decodeSYS w .sys
  | 0x39 => decodeN w .rfe
  | 0x3A => decodeN w .rfi
  | 0x3B => decodeN w .rft
  | 0x3C => decodeR2 w .tlbw
  | 0x3D => decodeR2 w .tlbr
  | 0x3E => decodeN w .tlbc
  | 0x3F => decodeMode w
  | _ => .error .unassignedOpcode

/-- An instruction is exactly four bytes (R110): the instruction at the front of a byte list, and the bytes after it. -/
def decodeBytes : List Byte → Except IllegalWord (Instr × List Byte)
  | b0 :: b1 :: b2 :: b3 :: rest =>
    match decode (wordOfBytes b0 b1 b2 b3) with
    | .ok i => .ok (i, rest)
    | .error e => .error e
  | _ => .error .tooShort

/-! ## Encoding (R111) -/

def encodeR3 (op : BitVec 6) (rD rA rB : Reg) : Word :=
  (op ++ rD ++ rA ++ rB ++ 0#11 : BitVec (6 + 5 + 5 + 5 + 11))

def encodeR2 (op : BitVec 6) (a b : BitVec 5) : Word :=
  (op ++ a ++ b ++ 0#16 : BitVec (6 + 5 + 5 + 16))

def encodeR1 (op : BitVec 6) (a : BitVec 5) : Word :=
  (op ++ a ++ 0#21 : BitVec (6 + 5 + 21))

def encodeI16 (op : BitVec 6) (a b : BitVec 5) (imm : BitVec 16) : Word :=
  (op ++ a ++ b ++ imm : BitVec (6 + 5 + 5 + 16))

def encodeMovi (v : BitVec 2) (rD : BitVec 5) (imm : BitVec 16) : Word :=
  (0x0B#6 ++ rD ++ 0#3 ++ v ++ imm : BitVec (6 + 5 + 3 + 2 + 16))

def encodeI21 (op : BitVec 6) (a : BitVec 5) (imm : BitVec 21) : Word :=
  (op ++ a ++ imm : BitVec (6 + 5 + 21))

def encodeF (op : BitVec 6) (rD rA rV : BitVec 5) (imm : BitVec 11) : Word :=
  (op ++ rD ++ rA ++ rV ++ imm : BitVec (6 + 5 + 5 + 5 + 11))

def encodeJ (op : BitVec 6) (imm : BitVec 26) : Word := (op ++ imm : BitVec (6 + 26))

def encodeSys (imm : BitVec 8) : Word := (0x38#6 ++ 0#18 ++ imm : BitVec (6 + 18 + 8))

def encodeN (op : BitVec 6) : Word := (op ++ 0#26 : BitVec (6 + 26))

def encodeMode (k : BitVec 1) : Word := (0x3F#6 ++ 0#25 ++ k : BitVec (6 + 25 + 1))

/-- The word of an instruction, from the formats of R111 and the opcodes of R114; the low bits of an immediate are its field (R112). -/
def encode : Instr → Word
  | .add rD rA rB => encodeR3 0x01#6 rD rA rB
  | .sub rD rA rB => encodeR3 0x02#6 rD rA rB
  | .and rD rA rB => encodeR3 0x03#6 rD rA rB
  | .or rD rA rB => encodeR3 0x04#6 rD rA rB
  | .xor rD rA rB => encodeR3 0x05#6 rD rA rB
  | .lsl rD rA rB => encodeR3 0x06#6 rD rA rB
  | .lsr rD rA rB => encodeR3 0x07#6 rD rA rB
  | .rotr rD rA rB => encodeR3 0x08#6 rD rA rB
  | .cmp a b => encodeR2 0x09#6 a b
  | .mov a b => encodeR2 0x0A#6 a b
  | .movi rD imm => encodeMovi 0#2 rD (imm.setWidth 16)
  | .moviU rD imm => encodeMovi 1#2 rD (imm.setWidth 16)
  | .moviH rD imm => encodeMovi 2#2 rD imm
  | .adpc a disp => encodeI21 0x0C#6 a (disp.setWidth 21)
  | .crmvW a b => encodeR2 0x0D#6 a b
  | .crmvR a b => encodeR2 0x0E#6 a b
  | .lw a disp => encodeI21 0x10#6 a (disp.setWidth 21)
  | .sw a disp => encodeI21 0x11#6 a (disp.setWidth 21)
  | .lwa a b disp => encodeI16 0x12#6 a b (disp.setWidth 16)
  | .swa a b disp => encodeI16 0x13#6 a b (disp.setWidth 16)
  | .lda a b disp => encodeI16 0x14#6 a b (disp.setWidth 16)
  | .sda a b disp => encodeI16 0x15#6 a b (disp.setWidth 16)
  | .lba a b disp => encodeI16 0x16#6 a b (disp.setWidth 16)
  | .sba a b disp => encodeI16 0x17#6 a b (disp.setWidth 16)
  | .fada rD rA rV disp => encodeF 0x18#6 rD rA rV (disp.setWidth 11)
  | .push a => encodeR1 0x19#6 a
  | .pop a => encodeR1 0x1A#6 a
  | .br disp => encodeJ 0x20#6 (disp.setWidth 26)
  | .bz disp => encodeJ 0x21#6 (disp.setWidth 26)
  | .bnz disp => encodeJ 0x22#6 (disp.setWidth 26)
  | .bs disp => encodeJ 0x23#6 (disp.setWidth 26)
  | .bns disp => encodeJ 0x24#6 (disp.setWidth 26)
  | .bc disp => encodeJ 0x25#6 (disp.setWidth 26)
  | .bnc disp => encodeJ 0x26#6 (disp.setWidth 26)
  | .bo disp => encodeJ 0x27#6 (disp.setWidth 26)
  | .bno disp => encodeJ 0x28#6 (disp.setWidth 26)
  | .bl disp => encodeJ 0x29#6 (disp.setWidth 26)
  | .bge disp => encodeJ 0x2A#6 (disp.setWidth 26)
  | .ble disp => encodeJ 0x2B#6 (disp.setWidth 26)
  | .bb disp => encodeJ 0x2C#6 (disp.setWidth 26)
  | .bae disp => encodeJ 0x2D#6 (disp.setWidth 26)
  | .bbe disp => encodeJ 0x2E#6 (disp.setWidth 26)
  | .jmp imm => encodeJ 0x30#6 (imm.setWidth 26)
  | .call disp => encodeJ 0x31#6 (disp.setWidth 26)
  | .ret => encodeN 0x32#6
  | .nop => encodeN 0x33#6
  | .ipi a b => encodeR2 0x37#6 a b
  | .sys imm => encodeSys imm
  | .rfe => encodeN 0x39#6
  | .rfi => encodeN 0x3A#6
  | .rft => encodeN 0x3B#6
  | .tlbw a b => encodeR2 0x3C#6 a b
  | .tlbr a b => encodeR2 0x3D#6 a b
  | .tlbc => encodeN 0x3E#6
  | .modeHalt => encodeMode 0#1
  | .modeSleep => encodeMode 1#1

/-! ## The opcode table (spec/opcode_table.json) -/

/-- One row of the table: a word is of this row when `w & mask = pattern` (R115). -/
structure OpcodeRow where
  mnemonic : String
  pattern : Word
  mask : Word
  deriving DecidableEq, Repr

/-- `(w & row.mask) == row.match` (R115). -/
def OpcodeRow.covers (row : OpcodeRow) (w : Word) : Bool := w &&& row.mask == row.pattern

/-- The fifty-six rows, in the table's order. -/
def opcodeTable : List OpcodeRow :=
  [
    ⟨"add", 0x04000000, 0xFC0007FF⟩,
    ⟨"sub", 0x08000000, 0xFC0007FF⟩,
    ⟨"and", 0x0C000000, 0xFC0007FF⟩,
    ⟨"or", 0x10000000, 0xFC0007FF⟩,
    ⟨"xor", 0x14000000, 0xFC0007FF⟩,
    ⟨"lsl", 0x18000000, 0xFC0007FF⟩,
    ⟨"lsr", 0x1C000000, 0xFC0007FF⟩,
    ⟨"rotr", 0x20000000, 0xFC0007FF⟩,
    ⟨"cmp", 0x24000000, 0xFC00FFFF⟩,
    ⟨"mov", 0x28000000, 0xFC00FFFF⟩,
    ⟨"movi", 0x2C000000, 0xFC1F0000⟩,
    ⟨"movi.u", 0x2C010000, 0xFC1F0000⟩,
    ⟨"movi.h", 0x2C020000, 0xFC1F0000⟩,
    ⟨"adpc", 0x30000000, 0xFC000000⟩ ]
    ++
  [
    ⟨"crmv.w", 0x34000000, 0xFC00FFFF⟩,
    ⟨"crmv.r", 0x38000000, 0xFC00FFFF⟩,
    ⟨"lw", 0x40000000, 0xFC000000⟩,
    ⟨"sw", 0x44000000, 0xFC000000⟩,
    ⟨"lwa", 0x48000000, 0xFC000000⟩,
    ⟨"swa", 0x4C000000, 0xFC000000⟩,
    ⟨"lda", 0x50000000, 0xFC000000⟩,
    ⟨"sda", 0x54000000, 0xFC000000⟩,
    ⟨"lba", 0x58000000, 0xFC000000⟩,
    ⟨"sba", 0x5C000000, 0xFC000000⟩,
    ⟨"fada", 0x60000000, 0xFC000000⟩,
    ⟨"push", 0x64000000, 0xFC1FFFFF⟩,
    ⟨"pop", 0x68000000, 0xFC1FFFFF⟩,
    ⟨"br", 0x80000000, 0xFC000000⟩ ]
    ++
  [
    ⟨"bz", 0x84000000, 0xFC000000⟩,
    ⟨"bnz", 0x88000000, 0xFC000000⟩,
    ⟨"bs", 0x8C000000, 0xFC000000⟩,
    ⟨"bns", 0x90000000, 0xFC000000⟩,
    ⟨"bc", 0x94000000, 0xFC000000⟩,
    ⟨"bnc", 0x98000000, 0xFC000000⟩,
    ⟨"bo", 0x9C000000, 0xFC000000⟩,
    ⟨"bno", 0xA0000000, 0xFC000000⟩,
    ⟨"bl", 0xA4000000, 0xFC000000⟩,
    ⟨"bge", 0xA8000000, 0xFC000000⟩,
    ⟨"ble", 0xAC000000, 0xFC000000⟩,
    ⟨"bb", 0xB0000000, 0xFC000000⟩,
    ⟨"bae", 0xB4000000, 0xFC000000⟩,
    ⟨"bbe", 0xB8000000, 0xFC000000⟩ ]
    ++
  [
    ⟨"jmp", 0xC0000000, 0xFC000000⟩,
    ⟨"call", 0xC4000000, 0xFC000000⟩,
    ⟨"ret", 0xC8000000, 0xFFFFFFFF⟩,
    ⟨"nop", 0xCC000000, 0xFFFFFFFF⟩,
    ⟨"ipi", 0xDC000000, 0xFC00FFFF⟩,
    ⟨"sys", 0xE0000000, 0xFFFFFF00⟩,
    ⟨"rfe", 0xE4000000, 0xFFFFFFFF⟩,
    ⟨"rfi", 0xE8000000, 0xFFFFFFFF⟩,
    ⟨"rft", 0xEC000000, 0xFFFFFFFF⟩,
    ⟨"tlbw", 0xF0000000, 0xFC00FFFF⟩,
    ⟨"tlbr", 0xF4000000, 0xFC00FFFF⟩,
    ⟨"tlbc", 0xF8000000, 0xFFFFFFFF⟩,
    ⟨"mode_halt", 0xFC000000, 0xFFFFFFFF⟩,
    ⟨"mode_sleep", 0xFC000001, 0xFFFFFFFF⟩ ]

/-- An instruction's mnemonic as spec/opcode_table.json has it. -/
def Instr.mnemonic : Instr → String
  | .add _ _ _ => "add"
  | .sub _ _ _ => "sub"
  | .and _ _ _ => "and"
  | .or _ _ _ => "or"
  | .xor _ _ _ => "xor"
  | .lsl _ _ _ => "lsl"
  | .lsr _ _ _ => "lsr"
  | .rotr _ _ _ => "rotr"
  | .cmp _ _ => "cmp"
  | .mov _ _ => "mov"
  | .movi _ _ => "movi"
  | .moviU _ _ => "movi.u"
  | .moviH _ _ => "movi.h"
  | .adpc _ _ => "adpc"
  | .crmvW _ _ => "crmv.w"
  | .crmvR _ _ => "crmv.r"
  | .lw _ _ => "lw"
  | .sw _ _ => "sw"
  | .lwa _ _ _ => "lwa"
  | .swa _ _ _ => "swa"
  | .lda _ _ _ => "lda"
  | .sda _ _ _ => "sda"
  | .lba _ _ _ => "lba"
  | .sba _ _ _ => "sba"
  | .fada _ _ _ _ => "fada"
  | .push _ => "push"
  | .pop _ => "pop"
  | .br _ => "br"
  | .bz _ => "bz"
  | .bnz _ => "bnz"
  | .bs _ => "bs"
  | .bns _ => "bns"
  | .bc _ => "bc"
  | .bnc _ => "bnc"
  | .bo _ => "bo"
  | .bno _ => "bno"
  | .bl _ => "bl"
  | .bge _ => "bge"
  | .ble _ => "ble"
  | .bb _ => "bb"
  | .bae _ => "bae"
  | .bbe _ => "bbe"
  | .jmp _ => "jmp"
  | .call _ => "call"
  | .ret => "ret"
  | .nop => "nop"
  | .ipi _ _ => "ipi"
  | .sys _ => "sys"
  | .rfe => "rfe"
  | .rfi => "rfi"
  | .rft => "rft"
  | .tlbw _ _ => "tlbw"
  | .tlbr _ _ => "tlbr"
  | .tlbc => "tlbc"
  | .modeHalt => "mode_halt"
  | .modeSleep => "mode_sleep"

/-- The instruction the decoder reads from an instruction's bits, numbered as spec/opcode_table.json numbers them: the word is
laid out little-endian and given to the decoder; bits above `nbits` are zero. -/
def decodeTableWord (nbits w : Nat) : Option Instr :=
  match decodeBytes (bytesOfWord (BitVec.ofNat 32 (w % 2 ^ nbits))) with
  | .ok (i, _) => some i
  | .error _ => none

end Sys2Proof
end

