-- ==== Sys2Proof/Config.lean ====
section
/-! DEFINITION. The implementation parameters of spec/00_scope.md R6 and the model's one free value.

`N_CORES` is the number of cores a state holds and `SD0_IMAGE`, `SD1_IMAGE` are the images its SD slots hold, so they are
no fields here; `ENCODING` is an argument of the step (Machine/Tick.lean, log 1), as a state holds plain data. -/

namespace Sys2Proof

/-- The parameter `MISALIGN` (spec/20_memory.md R65). -/
inductive Misalign where
  /-- A misaligned access uses the naturally aligned container. -/
  | alignDown
  /-- A misaligned access has no step: the core is stuck at it (spec decision D15). -/
  | refuse
  deriving DecidableEq, Repr

/-- The parameter `RESET_UNWRITTEN` (spec/70_reset_and_hazards.md R380): a read, before its first write, of a register whose reset
value is decided. -/
inductive ResetUnwritten where
  /-- The read answers the reset value. -/
  | zero
  /-- The read is a fault of the model. -/
  | fault
  deriving DecidableEq, Repr

/-- The parameters of R6. A state carries them and no step changes them, so a statement about every state holds for every
value of every parameter (log 4). -/
structure Params where
  /-- Bytes of RAM from physical 0. -/
  ramSize : Nat
  /-- Core ticks per 4-byte DMA quantum. -/
  sdDmaTicks : Nat
  /-- True: host keyboard bytes go to the UART RX queue. False: host key events go to the PS/2 queue. -/
  uartInput : Bool
  /-- Scheduler passes per rendered VGA frame; 0 means never. -/
  vgaFramePasses : Nat
  misalign : Misalign
  nestedTrapFatal : Bool
  resetUnwritten : ResetUnwritten
  deriving DecidableEq, Repr

/-- The values of R6's "value or constraint" column; `RAM_SIZE` and `VGA_FRAME_PASSES` as spec/95_test_vectors.md section 0
takes them (log 4, DESIGN CHOICE). -/
def Params.default : Params where
  ramSize := 0x00200000
  sdDmaTicks := 1
  uartInput := false
  vgaFramePasses := 0
  misalign := .alignDown
  nestedTrapFatal := false
  resetUnwritten := .zero

/-- `VGA_STATUS_VALUE` (R6, spec/60_exceptions.md R326): "a value drawn by the model at each read". Draw `n` is
`vgaStatusDraw n`; nothing constrains it (log 9). -/
opaque Config.vgaStatusDraw : Nat → Half

end Sys2Proof
end

