-- ==== Sys2Proof/Machine/State.lean ====
section
/-! DEFINITION. Everything the spec gives the machine, as plain data: spec/10_state.md, the shared state of its R46, the devices
of spec/60_exceptions.md section 5, and the reset state of spec/70_reset_and_hazards.md R380. -/

namespace Sys2Proof.Machine

/-- Bytes by physical address, addresses strictly rising, no byte equal to what an unlisted address reads as (0, R80, R81).
The operations and the predicate that says the form holds are in Memory.lean. -/
abbrev Memory := List Host.Cell

/-- The privilege mode (R28). -/
inductive Mode where
  | user
  | kernel
  | interrupt
  deriving DecidableEq, Repr

/-- The run state (R30). -/
inductive RunState where
  | running
  | sleeping
  | halted
  deriving DecidableEq, Repr

/-- A TLB entry (R45): `flags` is the exact `rE[11:0]` that tlbw wrote. -/
structure TlbEntry where
  valid : Bool
  vpn : BitVec 20
  ppn : BitVec 20
  pid : BitVec 8
  flags : BitVec 12
  deriving DecidableEq, Repr

/-- The sixteen entries E[0..15] (R45). -/
abbrev Tlb := Vector TlbEntry 16

/-- Which registers have been written since reset, of those that the parameter RESET_UNWRITTEN is about (R380). The model's own
bookkeeping (log 28). -/
structure Written where
  /-- r1..r30, slot by slot. -/
  gpr : Vector Bool 30
  epc : Bool
  efg : Bool
  ksp : Bool
  isp : Bool
  usp : Bool
  tlbAddr : Bool
  mbi : Bool
  mbo : Bool
  cdv : Bool
  deriving DecidableEq, Repr

/-- The state of one core: general registers, pc, hidden state, control registers (R34's table, each at the bits it holds) and
TLB. -/
structure CoreState where
  /-- r1..r30; slot k holds r(k+1) (R20). -/
  gpr : Vector Word 30
  pc : Word
  mode : Mode
  /-- mode_prev (R29). -/
  modePrev : Mode
  run : RunState
  /-- trap_live (R48). -/
  trapLive : Bool
  pid : BitVec 8
  /-- Bits [31] and [15:0] are held; [30:16] stay 0 (R36). -/
  imr : Word
  isr : BitVec 16
  epc : Word
  efg : BitVec 4
  ksp : Word
  isp : Word
  usp : Word
  /-- The control register `tlb`: the last faulting virtual address (R40). -/
  tlbAddr : Word
  mbi : Word
  mbo : Word
  cdv : Word
  cid : Word
  /-- Z, N, C, V in bits 0, 1, 2, 3 (R31). -/
  flg : BitVec 4
  tlb : Tlb
  /-- tlb_next, the FIFO replacement pointer (R45). -/
  tlbNext : Fin 16
  /-- STUCK (R297; under MISALIGN = REFUSE, spec decision D15): the core has no further step. -/
  stuck : Bool
  written : Written
  deriving DecidableEq, Repr

/-- What an SD slot is doing (R328). -/
inductive SdKind where
  | none
  | read
  | write
  | init
  deriving DecidableEq, Repr

/-- An SD image (R331): a fixed length and the bytes below it, listed as memory lists them. An absent image has length 0. -/
structure SdImage where
  size : Nat
  bytes : Memory
  deriving DecidableEq, Repr

/-- An SD DMA slot: its registers and its hidden state (R328). STATUS is `busy` in bit 0. -/
structure SdSlot where
  memAddr : Word
  sdBlock : Word
  len : Word
  ctrl : Word
  busy : Bool
  kind : SdKind
  cur : Word
  off : Word
  rem : Word
  image : SdImage
  deriving DecidableEq, Repr

/-- The devices and the DMA engine (R46; spec/60_exceptions.md R320 to R331). -/
structure Devices where
  /-- Oldest first (R322). -/
  ps2Queue : List Half
  /-- Oldest first (R324). -/
  uartRx : List Byte
  /-- Every byte written to UART_TX, oldest first (R323). -/
  uartOut : List Byte
  pitPeriod : Word
  pitCount : Nat
  vgaHscroll : Half
  vgaVscroll : Half
  vgaMode : Half
  vgaScale : Half
  vgaClkdiv : Half
  vgaFrame : Half
  /-- Passes since the last rendered frame (R327). -/
  vgaPasses : Nat
  /-- The MODEL's own counter: draws made so far of VGA_STATUS_VALUE (log 9). -/
  vgaDraws : Nat
  sd0 : SdSlot
  sd1 : SdSlot
  /-- dma_count, shared by both slots (R330). -/
  dmaCount : Nat
  deriving DecidableEq, Repr

/-- One keyboard input of the host (R352). -/
inductive HostInput where
  /-- A 16-bit event for the PS/2 queue. -/
  | keyEvent (e : Half)
  /-- A byte for the UART RX queue. -/
  | uartByte (b : Byte)
  deriving DecidableEq, Repr

/-- The whole machine. The cores stand in ascending cid order as `done`, `core`, `todo`: those this scheduler pass has visited,
the one whose visit comes next, and those still to come (R340); N_CORES is their number. -/
structure State where
  params : Params
  done : List CoreState
  core : CoreState
  todo : List CoreState
  mem : Memory
  dev : Devices
  /-- The inputs the host sends before each pass to come (R345, R352); an empty schedule sends none. -/
  hostSchedule : List (List HostInput)
  deriving DecidableEq, Repr

/-- What stops the machine. -/
inductive Fault where
  /-- An instruction reads a register that nothing has written since reset, under RESET_UNWRITTEN = FAULT: "is a model fault"
  (R380, spec decision D16, spec/93_implementation_defined.md section 2). Raised by runWord only, and never under ZERO, the default.
  Safe: nothing is claimed after it. -/
  | unwrittenRegister
  deriving DecidableEq, Repr

/-- Why a step has no meaning. -/
inductive Refusal where
  /-- An instruction whose arm of exec has no meaning yet. Raised by exec only; no arm does. Safe: nothing is claimed of it. -/
  | notModelled (mnemonic : String)
  deriving DecidableEq, Repr

/-- The outcome of an instruction or a step. -/
abbrev Result := Host.Outcome State Fault Refusal

/-! ## Reset (R380) -/

/-- An entry of an empty TLB: not valid. -/
def TlbEntry.empty : TlbEntry where
  valid := false
  vpn := 0
  ppn := 0
  pid := 0
  flags := 0

/-- Nothing has been written yet. -/
def Written.none : Written where
  gpr := Vector.replicate 30 false
  epc := false
  efg := false
  ksp := false
  isp := false
  usp := false
  tlbAddr := false
  mbi := false
  mbo := false
  cdv := false

/-- Core `k` right after reset: pc, mode, pid, cid and the empty TLB as the sources give them, every other register 0 (R380;
log 2, DESIGN CHOICE of the spec's D16). -/
def CoreState.reset (k : Nat) : CoreState where
  gpr := Vector.replicate 30 0
  pc := 0x00000400
  mode := .kernel
  modePrev := .kernel
  run := .running
  trapLive := false
  pid := 0
  imr := 0
  isr := 0
  epc := 0
  efg := 0
  ksp := 0
  isp := 0
  usp := 0
  tlbAddr := 0
  mbi := 0
  mbo := 0
  cdv := 0
  cid := BitVec.ofNat 32 k
  flg := 0
  tlb := Vector.replicate 16 TlbEntry.empty
  tlbNext := 0
  stuck := false
  written := Written.none

/-- An absent image has length 0 (R331). -/
def SdImage.absent : SdImage where
  size := 0
  bytes := []

/-- An SD slot right after reset, with the image the host loaded (R380; log 3). -/
def SdSlot.reset (image : SdImage) : SdSlot where
  memAddr := 0
  sdBlock := 0
  len := 0
  ctrl := 0
  busy := false
  kind := .none
  cur := 0
  off := 0
  rem := 0
  image := image

/-- The devices right after reset (R380; log 3). -/
def Devices.reset (image0 image1 : SdImage) : Devices where
  ps2Queue := []
  uartRx := []
  uartOut := []
  pitPeriod := 0
  pitCount := 0
  vgaHscroll := 0
  vgaVscroll := 0
  vgaMode := 0
  vgaScale := 0
  vgaClkdiv := 0
  vgaFrame := 0
  vgaPasses := 0
  vgaDraws := 0
  sd0 := SdSlot.reset image0
  sd1 := SdSlot.reset image1
  dmaCount := 0

/-- The reset state under any parameters, once its images are loaded (`State.boot` in Machine/Boot.lean loads them): `others` cores
beside core 0, so N_CORES = others + 1; memory and SD images; and the host's input schedule. -/
def State.initial (p : Params) (others : Nat) (mem : Memory) (image0 image1 : SdImage) (schedule : List (List HostInput)) :
    State where
  params := p
  done := []
  core := CoreState.reset 0
  todo := (List.range others).map fun k => CoreState.reset (k + 1)
  mem := mem
  dev := Devices.reset image0 image1
  hostSchedule := schedule

/-- The machine right after reset: the default parameters, two cores, an empty boot image, no SD images, no host input (logs 4
and 5). -/
def State.reset : State := State.initial Params.default 1 [] SdImage.absent SdImage.absent []

end Sys2Proof.Machine
end

