-- ==== Sys2Proof/Machine/Memory.lean ====
section
/-! DEFINITION. Bytes of memory and of SD images: reading, writing, the canonical form, and little-endian accesses of 1, 2 and 4
bytes (spec/20_memory.md R62 to R64, R80, R81). -/

namespace Sys2Proof.Machine

/-- Bytes of an access (R64). -/
def widthBytes : Width → Nat
  | .byte => 1
  | .half => 2
  | .word => 4

/-- What an address that is not listed reads as: RAM the image does not reach (R80) and VGA regions at reset (R81) hold 0. -/
def unlistedByte : Byte := 0#8

/-- The byte at an address. -/
def Memory.read : Memory → Nat → Byte
  | [], _ => unlistedByte
  | (b, v) :: rest, a => if a = b then v else Memory.read rest a

/-- Store a byte, keeping addresses rising and listing no byte that an unlisted address reads as. -/
def Memory.write : Memory → Nat → Byte → Memory
  | [], a, v => if v = unlistedByte then [] else [(a, v)]
  | (b, u) :: rest, a, v =>
    if a < b then (if v = unlistedByte then (b, u) :: rest else (a, v) :: (b, u) :: rest)
    else if a = b then (if v = unlistedByte then rest else (a, v) :: rest)
    else (b, u) :: Memory.write rest a v

/-- Every listed address is above `lo`, addresses rise strictly, and no listed byte is what an unlisted address reads as. -/
def Memory.wfAbove : Nat → Memory → Bool
  | _, [] => true
  | lo, (a, v) :: rest => decide (lo ≤ a) && decide (v ≠ unlistedByte) && Memory.wfAbove (a + 1) rest

/-- The canonical form: equal memories are equal lists. -/
def Memory.wf (m : Memory) : Bool := Memory.wfAbove 0 m

/-- The `w` bytes from `a` on, little-endian, zero-extended to a word (R62). -/
def Memory.readLE (m : Memory) (a : Nat) : Width → Word
  | .byte => (Memory.read m a).zeroExtend 32
  | .half => (Memory.read m (a + 1) ++ Memory.read m a).zeroExtend 32
  | .word => wordOfBytes (Memory.read m a) (Memory.read m (a + 1)) (Memory.read m (a + 2)) (Memory.read m (a + 3))

/-- Byte `a + k` becomes `v[8k+7:8k]` for each of the `w` bytes (R62). -/
def Memory.writeLE (m : Memory) (a : Nat) (w : Width) (v : Word) : Memory :=
  match w with
  | .byte => Memory.write m a (v.extractLsb' 0 8)
  | .half => Memory.write (Memory.write m a (v.extractLsb' 0 8)) (a + 1) (v.extractLsb' 8 8)
  | .word =>
    Memory.write (Memory.write (Memory.write (Memory.write m a (v.extractLsb' 0 8)) (a + 1) (v.extractLsb' 8 8))
      (a + 2) (v.extractLsb' 16 8)) (a + 3) (v.extractLsb' 24 8)

/-! ## SD images (R330, R331) -/

/-- A byte of the image; "a byte beyond the image is 0" (R330). -/
def SdImage.readByte (i : SdImage) (a : Nat) : Byte :=
  if a < i.size then Memory.read i.bytes a else 0#8

/-- "A byte beyond the image is not written" (R330). -/
def SdImage.writeByte (i : SdImage) (a : Nat) (v : Byte) : SdImage :=
  if a < i.size then { i with bytes := Memory.write i.bytes a v } else i

/-- Image bytes off..off+3, little-endian (R330). -/
def SdImage.readWord (i : SdImage) (off : Word) : Word :=
  wordOfBytes (i.readByte off.toNat) (i.readByte (off.toNat + 1)) (i.readByte (off.toNat + 2)) (i.readByte (off.toNat + 3))

/-- Image bytes off..off+3 become the word's, little-endian (R330). -/
def SdImage.writeWord (i : SdImage) (off : Word) (v : Word) : SdImage :=
  (((i.writeByte off.toNat (v.extractLsb' 0 8)).writeByte (off.toNat + 1) (v.extractLsb' 8 8)).writeByte
    (off.toNat + 2) (v.extractLsb' 16 8)).writeByte (off.toNat + 3) (v.extractLsb' 24 8)

end Sys2Proof.Machine
end

