-- ==== Sys2Proof/Machine/Operands.lean ====
section
/-! DEFINITION. Operands: the general-register resolver (spec/10_state.md R22), the control registers by index (R34) and the
alignment of a data address (spec/20_memory.md R65). -/

namespace Sys2Proof.Machine

/-! ## General registers (R20 to R23) -/

/-- What a register number names. -/
inductive RegTarget where
  | zero
  | gpr (k : Fin 30)
  | usp
  | ksp
  | isp
  deriving DecidableEq, Repr

/-- The stack pointer that r31 names in a mode (R21). -/
def stackTarget : Mode → RegTarget
  | .user => .usp
  | .kernel => .ksp
  | .interrupt => .isp

/-- The operand resolver (R22): r0 is ZERO, r31 a stack pointer, r1..r30 the storage slots 0..29. -/
def resolve (m : Mode) (r : Reg) : RegTarget :=
  if r = 0#5 then .zero
  else if r = 31#5 then stackTarget m
  else .gpr (Fin.ofNat 30 (r.toNat - 1))

/-- The value a target holds; ZERO reads 0. -/
def CoreState.readTarget (c : CoreState) : RegTarget → Word
  | .zero => 0#32
  | .gpr k => c.gpr[k]
  | .usp => c.usp
  | .ksp => c.ksp
  | .isp => c.isp

/-- Write a target; a write to ZERO is discarded. -/
def CoreState.writeTarget (c : CoreState) (t : RegTarget) (v : Word) : CoreState :=
  match t with
  | .zero => c
  | .gpr k =>
    { c with
      gpr := c.gpr.set k.val v k.isLt
      written := { c.written with gpr := c.written.gpr.set k.val true k.isLt } }
  | .usp => { c with usp := v, written := { c.written with usp := true } }
  | .ksp => { c with ksp := v, written := { c.written with ksp := true } }
  | .isp => { c with isp := v, written := { c.written with isp := true } }

/-- `x[i]` (R22). -/
def CoreState.reg (c : CoreState) (r : Reg) : Word := c.readTarget (resolve c.mode r)

/-- `x[i] <- v` (R22). -/
def CoreState.setReg (c : CoreState) (r : Reg) (v : Word) : CoreState := c.writeTarget (resolve c.mode r) v

/-- The register number of the stack-pointer alias. -/
def spReg : Reg := 31#5

/-! ## Control registers (R34) -/

/-- The fourteen control registers, in index order. -/
inductive CReg where
  | pid
  | imr
  | isr
  | epc
  | efg
  | ksp
  | isp
  | usp
  | tlb
  | mbi
  | mbo
  | cdv
  | cid
  | flg
  deriving DecidableEq, Repr

/-- The fourteen, cr0 to cr13. -/
def CReg.all : List CReg := [.pid, .imr, .isr, .epc, .efg, .ksp, .isp, .usp, .tlb, .mbi, .mbo, .cdv, .cid, .flg]

/-- "Indices 14..31 name no register" (R34). -/
def CReg.ofIndex (k : CrIndex) : Option CReg := CReg.all[k.toNat]?

/-- The bits of imr that are held: [31] and [15:0] (R36). -/
def imrMask : Word := 0x8000FFFF#32

/-- Read a control register, "zero in the unheld bits" (R242). -/
def CoreState.readCr (c : CoreState) : CReg → Word
  | .pid => c.pid.zeroExtend 32
  | .imr => c.imr
  | .isr => c.isr.zeroExtend 32
  | .epc => c.epc
  | .efg => c.efg.zeroExtend 32
  | .ksp => c.ksp
  | .isp => c.isp
  | .usp => c.usp
  | .tlb => c.tlbAddr
  | .mbi => c.mbi
  | .mbo => c.mbo
  | .cdv => c.cdv
  | .cid => c.cid
  | .flg => c.flg.zeroExtend 32

/-- Write a control register, the case list of R241; a write to cid has no effect. -/
def CoreState.writeCr (c : CoreState) (r : CReg) (v : Word) : CoreState :=
  match r with
  | .pid => { c with pid := v.extractLsb' 0 8 }
  | .imr => { c with imr := v &&& imrMask }
  | .isr => { c with isr := v.extractLsb' 0 16 }
  | .epc => { c with epc := v, written := { c.written with epc := true } }
  | .efg => { c with efg := v.extractLsb' 0 4, written := { c.written with efg := true } }
  | .ksp => { c with ksp := v, written := { c.written with ksp := true } }
  | .isp => { c with isp := v, written := { c.written with isp := true } }
  | .usp => { c with usp := v, written := { c.written with usp := true } }
  | .tlb => { c with tlbAddr := v, written := { c.written with tlbAddr := true } }
  | .mbi => { c with mbi := v, written := { c.written with mbi := true } }
  | .mbo => { c with mbo := v, written := { c.written with mbo := true } }
  | .cdv => { c with cdv := v, written := { c.written with cdv := true } }
  | .cid => c
  | .flg => { c with flg := v.extractLsb' 0 4 }

/-- The control register behind r31 in a mode (R21, R39). -/
def stackCReg : Mode → CReg
  | .user => .usp
  | .kernel => .ksp
  | .interrupt => .isp

/-! ## Registers written since reset (R380) -/

/-- The target has been written since reset; ZERO reads 0 without a write. -/
def CoreState.targetWritten (c : CoreState) : RegTarget → Bool
  | .zero => true
  | .gpr k => c.written.gpr[k]
  | .usp => c.written.usp
  | .ksp => c.written.ksp
  | .isp => c.written.isp

/-- `x[i]` has been written since reset. -/
def CoreState.regWritten (c : CoreState) (r : Reg) : Bool := c.targetWritten (resolve c.mode r)

/-- The control register has been written since reset, or is one of those that "keep their values" (R380): pid, imr, isr, cid,
flg. -/
def CoreState.crWritten (c : CoreState) : CReg → Bool
  | .epc => c.written.epc
  | .efg => c.written.efg
  | .ksp => c.written.ksp
  | .isp => c.written.isp
  | .usp => c.written.usp
  | .tlb => c.written.tlbAddr
  | .mbi => c.written.mbi
  | .mbo => c.written.mbo
  | .cdv => c.written.cdv
  | .pid | .imr | .isr | .cid | .flg => true

/-! ## Addresses -/

/-- `target & 0xFFFFFFFC` (R27). -/
def alignPc (target : Word) : Word := target &&& 0xFFFFFFFC#32

/-- `n - 1` for an access of `n` bytes: the address bits below its natural alignment. -/
def lowMask : Width → Word
  | .byte => 0#32
  | .half => 1#32
  | .word => 3#32

/-- Align (R65): none where MISALIGN = REFUSE refuses the access, "no step". -/
def alignAddr (m : Misalign) (va : Word) (w : Width) : Option Word :=
  match m with
  | .alignDown => some (va &&& ~~~(lowMask w))
  | .refuse => if va &&& lowMask w = 0#32 then some va else none

end Sys2Proof.Machine
end

