-- ==== Sys2Proof/Machine/Bus.lean ====
section
/-! DEFINITION. The physical bus: the physical map and its decoding (spec/20_memory.md R77 to R81), the MMIO ports (R82, R83) with the
behaviour of the devices behind them (spec/60_exceptions.md R320 to R329). -/

namespace Sys2Proof.Machine

/-! ## The physical map (R77, R78) -/

/-- A range of physical addresses, both ends inclusive. -/
structure Region where
  first : Nat
  last : Nat
  deriving DecidableEq, Repr

/-- An address lies in a region. -/
def Region.has (r : Region) (a : Nat) : Bool := decide (r.first ≤ a) && decide (a ≤ r.last)

/-- The MMIO port window. -/
def portWindow : Region := ⟨0x07FE5800, 0x07FE5B4F⟩

/-- The device regions that are storage (R81): VGA tile framebuffer, pixel framebuffer, tilemap, sprite map. -/
def storageRegions : List Region :=
  [⟨0x07FBD000, 0x07FBFFFF⟩, ⟨0x07FC0000, 0x07FDFFFF⟩, ⟨0x07FE8000, 0x07FEFFFF⟩, ⟨0x07FF0000, 0x07FFFFFF⟩]

/-- Where a physical access goes. -/
inductive Place where
  /-- RAM or a device region: bytes. -/
  | storage
  /-- The port window. -/
  | port
  | unmapped
  deriving DecidableEq, Repr

/-- Decoding precedence (R78): devices first, then RAM, then unmapped. An access that does not lie wholly in RAM is not in RAM
(log 12, from R289). -/
def place (p : Params) (pa : Word) (w : Width) : Place :=
  if portWindow.has pa.toNat then .port
  else if storageRegions.any (·.has pa.toNat) then .storage
  else if pa.toNat + widthBytes w ≤ p.ramSize then .storage
  else .unmapped

/-! ## Ports (R82) -/

/-- The two SD slots. -/
inductive SlotId where
  | sd0
  | sd1
  deriving DecidableEq, Repr

/-- The ports of R82's table. -/
inductive Port where
  | ps2Data
  | uartTx
  | uartRx
  | pitInterval
  | sdMemAddr (i : SlotId)
  | sdBlock (i : SlotId)
  | sdLen (i : SlotId)
  | sdCtrl (i : SlotId)
  | sdStatus (i : SlotId)
  | vgaHscroll
  | vgaVscroll
  | vgaMode
  | vgaScale
  | vgaStatus
  | vgaFrame
  | vgaClkdiv
  deriving DecidableEq, Repr

/-- A row of R82's table. -/
structure PortRow where
  address : Nat
  port : Port
  width : Width
  deriving DecidableEq, Repr

/-- R82's table. -/
def portTable : List PortRow :=
  [⟨0x07FE5800, .ps2Data, .half⟩,
   ⟨0x07FE5802, .uartTx, .byte⟩,
   ⟨0x07FE5803, .uartRx, .byte⟩,
   ⟨0x07FE5804, .pitInterval, .word⟩,
   ⟨0x07FE5810, .sdMemAddr .sd0, .word⟩,
   ⟨0x07FE5814, .sdBlock .sd0, .word⟩,
   ⟨0x07FE5818, .sdLen .sd0, .word⟩,
   ⟨0x07FE581C, .sdCtrl .sd0, .word⟩,
   ⟨0x07FE5820, .sdStatus .sd0, .word⟩,
   ⟨0x07FE5908, .sdMemAddr .sd1, .word⟩,
   ⟨0x07FE590C, .sdBlock .sd1, .word⟩,
   ⟨0x07FE5910, .sdLen .sd1, .word⟩,
   ⟨0x07FE5914, .sdCtrl .sd1, .word⟩,
   ⟨0x07FE5918, .sdStatus .sd1, .word⟩,
   ⟨0x07FE5B40, .vgaHscroll, .half⟩,
   ⟨0x07FE5B42, .vgaVscroll, .half⟩,
   ⟨0x07FE5B44, .vgaMode, .half⟩,
   ⟨0x07FE5B46, .vgaScale, .half⟩,
   ⟨0x07FE5B48, .vgaStatus, .half⟩,
   ⟨0x07FE5B4A, .vgaFrame, .half⟩,
   ⟨0x07FE5B4C, .vgaClkdiv, .half⟩]

/-- The one port that starts at a physical address (R83). -/
def portAt (pa : Word) : Option PortRow := portTable.find? fun r => r.address == pa.toNat

/-! ## The SD slots behind their ports (R328, R329) -/

/-- A slot of the devices. -/
def Devices.slot (d : Devices) : SlotId → SdSlot
  | .sd0 => d.sd0
  | .sd1 => d.sd1

/-- Replace a slot. -/
def Devices.setSlot (d : Devices) (i : SlotId) (s : SdSlot) : Devices :=
  match i with
  | .sd0 => { d with sd0 := s }
  | .sd1 => { d with sd1 := s }

/-- A write of `v` to CTRL (R329): ignored while BUSY; 1 and 3 latch a transfer, 8 starts init, any other value is stored and
starts nothing. -/
def SdSlot.command (s : SdSlot) (v : Word) : SdSlot :=
  if s.busy then s
  else if v = 0x1#32 ∨ v = 0x3#32 then
    { s with
      ctrl := v
      kind := if v = 0x1#32 then .read else .write
      cur := s.memAddr &&& 0xFFFFFFFC#32
      off := s.sdBlock * 512#32
      rem := s.len &&& 0xFFFFFFFC#32
      busy := true }
  else if v = 0x8#32 then { s with ctrl := v, kind := .init, busy := true }
  else { s with ctrl := v }

/-! ## Reading and writing a port -/

/-- The front of a queue, or 0 from an empty one (R322, R324). -/
def frontOrZero {n : Nat} : List (BitVec n) → BitVec n
  | [] => 0#n
  | x :: _ => x

/-- `P.read()` before the width mask of R83: the value, and the devices after the read's side effect. -/
def Devices.readPort (d : Devices) : Port → Word × Devices
  | .ps2Data => (zext (frontOrZero d.ps2Queue), { d with ps2Queue := d.ps2Queue.tail })
  | .uartTx => (0#32, d)
  | .uartRx => (zext (frontOrZero d.uartRx), { d with uartRx := d.uartRx.tail })
  | .pitInterval => (d.pitPeriod, d)
  | .sdMemAddr i => ((d.slot i).memAddr, d)
  | .sdBlock i => ((d.slot i).sdBlock, d)
  | .sdLen i => ((d.slot i).len, d)
  | .sdCtrl i => ((d.slot i).ctrl, d)
  | .sdStatus i => (zext (BitVec.ofBool (d.slot i).busy), d)
  | .vgaHscroll => (zext d.vgaHscroll, d)
  | .vgaVscroll => (zext d.vgaVscroll, d)
  | .vgaMode => (zext d.vgaMode, d)
  | .vgaScale => (zext d.vgaScale, d)
  | .vgaStatus => (zext (Config.vgaStatusDraw d.vgaDraws), { d with vgaDraws := d.vgaDraws + 1 })
  | .vgaFrame => (zext d.vgaFrame, d)
  | .vgaClkdiv => (zext d.vgaClkdiv, d)

/-- `P.write(v)` for a value already masked to the access (R83). -/
def Devices.writePort (d : Devices) (p : Port) (v : Word) : Devices :=
  match p with
  | .ps2Data => d
  | .uartTx => { d with uartOut := d.uartOut ++ [v.extractLsb' 0 8] }
  | .uartRx => d
  | .pitInterval => { d with pitPeriod := v, pitCount := 0 }
  | .sdMemAddr i => d.setSlot i { d.slot i with memAddr := v }
  | .sdBlock i => d.setSlot i { d.slot i with sdBlock := v }
  | .sdLen i => d.setSlot i { d.slot i with len := v }
  | .sdCtrl i => d.setSlot i ((d.slot i).command v)
  | .sdStatus _ => d
  | .vgaHscroll => { d with vgaHscroll := v.extractLsb' 0 16 }
  | .vgaVscroll => { d with vgaVscroll := v.extractLsb' 0 16 }
  | .vgaMode => { d with vgaMode := v.extractLsb' 0 16 }
  | .vgaScale => { d with vgaScale := v.extractLsb' 0 16 }
  | .vgaStatus => d
  | .vgaFrame => d
  | .vgaClkdiv => { d with vgaClkdiv := v.extractLsb' 0 16 }

/-- The low bytes of a value that an access of a width carries. -/
def widthMask : Width → Word
  | .byte => 0x000000FF#32
  | .half => 0x0000FFFF#32
  | .word => 0xFFFFFFFF#32

/-- `v & (2^(8*min(n, P.width)) - 1)` (R83). -/
def maskToPort (access portWidth : Width) (v : Word) : Word := v &&& widthMask access &&& widthMask portWidth

/-- PortRead (R83). -/
def portRead (d : Devices) (pa : Word) (w : Width) : Word × Devices :=
  match portAt pa with
  | some row => (maskToPort w row.width (d.readPort row.port).1, (d.readPort row.port).2)
  | none => (0#32, d)

/-- PortWrite (R83). -/
def portWrite (d : Devices) (pa : Word) (w : Width) (v : Word) : Devices :=
  match portAt pa with
  | some row => d.writePort row.port (maskToPort w row.width v)
  | none => d

/-! ## The bus primitives (R79) -/

/-- PhysRead (R79): the value zero-extended to a word, and the machine after the read's side effect. -/
def physRead (s : State) (pa : Word) (w : Width) : Word × State :=
  match place s.params pa w with
  | .storage => (Memory.readLE s.mem pa.toNat w, s)
  | .port => ((portRead s.dev pa w).1, { s with dev := (portRead s.dev pa w).2 })
  | .unmapped => (0#32, s)

/-- PhysWrite (R79). -/
def physWrite (s : State) (pa : Word) (w : Width) (v : Word) : State :=
  match place s.params pa w with
  | .storage => { s with mem := Memory.writeLE s.mem pa.toNat w v }
  | .port => { s with dev := portWrite s.dev pa w v }
  | .unmapped => s

end Sys2Proof.Machine
end

