-- ==== Sys2Proof/Machine/Flags.lean ====
section
/-! DEFINITION. The condition flags (spec/10_state.md R31), the ALU primitive (spec/40_alu.md R141) and the branch predicates
(spec/42_control.md R211). -/

namespace Sys2Proof.Machine

/-! ## The flags register (R31) -/

/-- flg[0] -/
def flagZ (f : BitVec 4) : Bool := f.getLsbD 0

/-- flg[1] -/
def flagN (f : BitVec 4) : Bool := f.getLsbD 1

/-- flg[2] -/
def flagC (f : BitVec 4) : Bool := f.getLsbD 2

/-- flg[3] -/
def flagV (f : BitVec 4) : Bool := f.getLsbD 3

/-- The register holding the four flags (R31: `flg <- (Z, N, C, V)` writes all four at once). -/
def packFlags (z n c v : Bool) : BitVec 4 :=
  BitVec.ofBool v ++ BitVec.ofBool c ++ BitVec.ofBool n ++ BitVec.ofBool z

/-! ## The ALU primitive (R141) -/

/-- A result and the flags written with it. -/
structure AluOut where
  result : Word
  flags : BitVec 4
  deriving DecidableEq, Repr

/-- `Z = (r == 0#32)` and `N = r[31]` for every operation (R141). -/
def aluOut (r : Word) (c v : Bool) : AluOut where
  result := r
  flags := packFlags (r == 0#32) (r.getLsbD 31) c v

/-- AddCV (R141): C is the carry out of bit 31, V the signed overflow. -/
def aluAdd (a b : Word) : AluOut :=
  aluOut (a + b) (decide (2 ^ 32 ≤ a.toNat + b.toNat))
    (a.getLsbD 31 == b.getLsbD 31 && (a + b).getLsbD 31 != a.getLsbD 31)

/-- SubCV (R141): C is the borrow (90_conflicts.md C1), V the signed overflow. -/
def aluSub (a b : Word) : AluOut :=
  aluOut (a - b) (decide (a.toNat < b.toNat))
    (a.getLsbD 31 != b.getLsbD 31 && (a - b).getLsbD 31 != a.getLsbD 31)

/-- LogicCV (R141): logic and shift operations write C = 0 and V = 0. -/
def aluLogic (r : Word) : AluOut := aluOut r false false

/-- The shift amount `x[rB][4:0]` (R149 to R151). -/
def shiftAmount (b : Word) : Nat := (b.extractLsb' 0 5).toNat

/-- lsl (R149). -/
def aluLsl (a b : Word) : AluOut := aluLogic (a <<< shiftAmount b)

/-- lsr (R150): zeros enter at bit 31. -/
def aluLsr (a b : Word) : AluOut := aluLogic (a >>> shiftAmount b)

/-- Rotation right as R151 writes it. -/
def rotateRightBy (a : Word) (n : Nat) : Word :=
  if n = 0 then a else (a >>> n) ||| (a <<< (32 - n))

/-- rotr (R151). -/
def aluRotr (a b : Word) : AluOut := aluLogic (rotateRightBy a (shiftAmount b))

/-! ## Branch predicates (R211) -/

/-- Signed less: N ≠ V. -/
def condLess (f : BitVec 4) : Bool := flagN f != flagV f

/-- Signed less or equal: Z or N ≠ V. -/
def condLessEq (f : BitVec 4) : Bool := flagZ f || condLess f

/-- Unsigned below or equal: C or Z. -/
def condBelowEq (f : BitVec 4) : Bool := flagC f || flagZ f

end Sys2Proof.Machine
end

