-- ==== Sys2Proof/Machine/Mmu.lean ====
section
/-! DEFINITION. Address translation (spec/20_memory.md R67 to R75) and the TLB's own operations (spec/43_system.md R247 to R249). -/

namespace Sys2Proof.Machine

/-- What an access is for (spec/00_scope.md R9). -/
inductive Intent where
  | fetch
  | load
  | store
  | rmw
  deriving DecidableEq, Repr

/-- `va[31:12]`. -/
def vpnOf (va : Word) : BitVec 20 := va.extractLsb' 12 20

/-- `va[11:0]`. -/
def offsetOf (va : Word) : BitVec 12 := va.extractLsb' 0 12

/-- Flags bit 0, R. -/
def TlbEntry.readable (e : TlbEntry) : Bool := e.flags.getLsbD 0

/-- Flags bit 1, W. -/
def TlbEntry.writable (e : TlbEntry) : Bool := e.flags.getLsbD 1

/-- Flags bit 2, X. -/
def TlbEntry.executable (e : TlbEntry) : Bool := e.flags.getLsbD 2

/-- Flags bit 3, U. -/
def TlbEntry.userAccessible (e : TlbEntry) : Bool := e.flags.getLsbD 3

/-- Flags bit 4, G. -/
def TlbEntry.isGlobal (e : TlbEntry) : Bool := e.flags.getLsbD 4

/-- The lowest slot whose entry satisfies `p`. -/
def lowestSlot (t : Tlb) (p : TlbEntry → Bool) : Option (Fin 16) := (List.finRange 16).find? fun i => p t[i]

/-- TranslationEnabled (R67). -/
def translationEnabled (c : CoreState) : Bool := (lowestSlot c.tlb (·.valid)).isSome || c.pid != 0#8

/-- An entry matches a virtual address under a pid (R69). -/
def entryMatches (pid : BitVec 8) (va : Word) (e : TlbEntry) : Bool :=
  e.valid && e.vpn == vpnOf va && (e.pid == pid || e.isGlobal)

/-- Match (R69): the lowest matching slot. -/
def tlbMatch (c : CoreState) (va : Word) : Option (Fin 16) := lowestSlot c.tlb (entryMatches c.pid va)

/-- The permission an intent needs (R70). -/
def intentAllowed (e : TlbEntry) : Intent → Bool
  | .fetch => e.executable
  | .load => e.readable
  | .store => e.writable
  | .rmw => e.readable && e.writable

/-- Allowed (R70): the intent's permission, and U in user mode. -/
def accessAllowed (m : Mode) (e : TlbEntry) (i : Intent) : Bool :=
  intentAllowed e i && (m != .user || e.userAccessible)

/-- Translate (R71): the physical address, or none where a TLB miss is raised (absent entry and bad permission alike). -/
def translateVa (c : CoreState) (va : Word) (i : Intent) : Option Word :=
  if translationEnabled c then
    match tlbMatch c va with
    | some k => if accessAllowed c.mode c.tlb[k] i then some (c.tlb[k].ppn ++ offsetOf va) else none
    | none => none
  else some va

/-! ## tlbw, tlbr, tlbc -/

/-- The entry that `tlbw` writes from an entry word and a virtual address (R247). -/
def newEntry (pid : BitVec 8) (entryWord va : Word) : TlbEntry where
  valid := true
  vpn := vpnOf va
  ppn := entryWord.extractLsb' 12 20
  pid := pid
  flags := entryWord.extractLsb' 0 12

/-- An entry of the set C of R247: one that could match where the new one matches. -/
def conflicts (new e : TlbEntry) : Bool :=
  e.valid && e.vpn == new.vpn && (e.pid == new.pid || e.isGlobal || new.isGlobal)

/-- Clear the valid bit of every entry that satisfies `p`. -/
def invalidateWhere (t : Tlb) (p : TlbEntry → Bool) : Tlb :=
  ⟨⟨t.toList.map fun e => if p e then { e with valid := false } else e⟩, by simp⟩

/-- Put an entry into a slot. -/
def putEntry (t : Tlb) (k : Fin 16) (e : TlbEntry) : Tlb := t.set k.val e k.isLt

/-- The insertion of R247: replace in place, else the lowest free slot, else FIFO eviction through tlb_next. -/
def tlbInsert (c : CoreState) (new : TlbEntry) : CoreState :=
  match lowestSlot c.tlb (conflicts new) with
  | some k => { c with tlb := putEntry (invalidateWhere c.tlb (conflicts new)) k new }
  | none =>
    match lowestSlot c.tlb (fun e => !e.valid) with
    | some k => { c with tlb := putEntry c.tlb k new }
    | none => { c with tlb := putEntry c.tlb c.tlbNext new, tlbNext := c.tlbNext + 1 }

/-- The word `tlbr` answers (R248): ppn in [31:12], flags in [11:0], or 0 on a miss. -/
def tlbLookup (c : CoreState) (va : Word) : Word :=
  match tlbMatch c va with
  | some k => c.tlb[k].ppn ++ c.tlb[k].flags
  | none => 0#32

/-- The clearing of R249. -/
def tlbClear (c : CoreState) : CoreState := { c with tlb := invalidateWhere c.tlb fun _ => true, tlbNext := 0 }

end Sys2Proof.Machine
end

