-- ==== Sys2Proof/Machine/Ops.lean ====
section
/-! DEFINITION. The shared operations of the meanings: registers and pc of the current core, taking a trap and returning from one
(spec/60_exceptions.md R292, R294), the privilege check (R282), and translated accesses (spec/20_memory.md R65, R71, R79). -/

namespace Sys2Proof.Machine

/-! ## The current core -/

/-- Replace the current core. -/
def State.withCore (s : State) (c : CoreState) : State := { s with core := c }

/-- `x[i]` of the current core (R22). -/
def State.reg (s : State) (r : Reg) : Word := s.core.reg r

/-- `x[i] <- v` on the current core (R22). -/
def State.setReg (s : State) (r : Reg) (v : Word) : State := s.withCore (s.core.setReg r v)

/-- Write the condition flags (R31). -/
def State.setFlags (s : State) (f : BitVec 4) : State := s.withCore { s.core with flg := f }

/-- `pc <- pc + 4` (R25). -/
def State.advance (s : State) : State := s.withCore { s.core with pc := s.core.pc + 4#32 }

/-- `pc <- target`, the low two bits cleared (R27). -/
def State.jump (s : State) (target : Word) : State := s.withCore { s.core with pc := alignPc target }

/-- The cores in cid order. -/
def State.cores (s : State) : List CoreState := s.done ++ s.core :: s.todo

/-- N_CORES. -/
def State.nCores (s : State) : Nat := s.done.length + 1 + s.todo.length

/-- Change every core. -/
def State.mapCores (s : State) (f : CoreState → CoreState) : State :=
  { s with done := s.done.map f, core := f s.core, todo := s.todo.map f }

/-- Change core `t`; no core has an index from N_CORES on. -/
def State.modifyCore (s : State) (t : Nat) (f : CoreState → CoreState) : State :=
  if t < s.done.length then { s with done := s.done.modify t f }
  else if t = s.done.length then { s with core := f s.core }
  else { s with todo := s.todo.modify (t - s.done.length - 1) f }

/-! ## Traps (R280, R289 to R292, R297) -/

/-- The exceptions (R280 to R284). -/
inductive Exception where
  | instr
  | priv
  | tlbUmiss
  | tlbKmiss
  deriving DecidableEq, Repr

/-- The vector of an exception (R280). -/
def Exception.vector : Exception → BitVec 8
  | .instr => 0x80#8
  | .priv => 0x81#8
  | .tlbUmiss => 0x82#8
  | .tlbKmiss => 0x83#8

/-- Physical address `4*N` of IVT slot N (R289). -/
def ivtAddress (v : BitVec 8) : Word := zext v <<< 2

/-- The word in IVT slot `v`, read without translation and without a permission check (R289). -/
def ivtEntry (s : State) (v : BitVec 8) : Word := (physRead s (ivtAddress v) .word).1

/-- What trap entry writes, in one step (R292, R293). -/
def trapEntry (s : State) (v : BitVec 8) (epcValue : Word) (newMode : Mode) : State :=
  s.withCore
    { s.core with
      epc := epcValue
      efg := s.core.flg
      modePrev := s.core.mode
      mode := newMode
      trapLive := true
      pc := alignPc (ivtEntry s v)
      written := { s.core.written with epc := true, efg := true } }

/-- The current core is STUCK: it has no further step (R297). Other cores and the devices go on (log 10). -/
def State.stick (s : State) : State := s.withCore { s.core with stuck := true }

/-- Trap entry (R292). Only an interrupt enters interrupt mode (R291), so `newMode` tells whether the trap is one; an exception
or sys with trap_live set is STUCK under NESTED_TRAP_FATAL and "does not enter the trap" (R297, log 10). -/
def enterTrap (s : State) (v : BitVec 8) (epcValue : Word) (newMode : Mode) : Result :=
  if s.params.nestedTrapFatal && s.core.trapLive && newMode != .interrupt then .next s.stick
  else .next (trapEntry s v epcValue newMode)

/-- `raise E` (R287): kernel mode, epc = pc of the faulting instruction (R290). -/
def raise (s : State) (e : Exception) : Result := enterTrap s e.vector s.core.pc .kernel

/-- `cr[tlb] <- va` on the current core (R40, R75). -/
def State.setTlbAddr (s : State) (va : Word) : State :=
  s.withCore { s.core with tlbAddr := va, written := { s.core.written with tlbAddr := true } }

/-- The miss of R71: `cr[tlb] <- va`, then TLB_UMISS in user mode and TLB_KMISS otherwise (R75). -/
def raiseMiss (s : State) (va : Word) : Result :=
  raise (s.setTlbAddr va) (if s.core.mode = .user then .tlbUmiss else .tlbKmiss)

/-- A privileged instruction: its effect in kernel and interrupt mode, EXC_PRIV in user mode (R240, R282). -/
def privileged (s : State) (effect : Result) : Result :=
  if s.core.mode = .user then raise s .priv else effect

/-- Return from a trap (R294): pc from epc, the mode, the flags, and trap_live cleared (R48). -/
def returnTo (s : State) (m : Mode) (flags : BitVec 4) : State :=
  s.withCore { s.core with pc := alignPc s.core.epc, mode := m, flg := flags, trapLive := false }

/-! ## Translated accesses (R9, R65, R71) -/

/-- One data access of width `w` at effective address `ea`: aligned, then translated once, then `k` at the physical address. Under
MISALIGN = REFUSE a misaligned access has no step and the core is stuck at it (R65, spec decision D15, log 11); a miss is taken
before `k` does anything (R182, R286). -/
def withAccess (s : State) (ea : Word) (w : Width) (i : Intent) (k : Word → Result) : Result :=
  match alignAddr s.params.misalign ea w with
  | none => .next s.stick
  | some va =>
    match translateVa s.core va i with
    | none => raiseMiss s va
    | some pa => k pa

/-- Load: `x[rD] <- MemRead(ea, n, LOAD)`, then the next pc (R181, R184). -/
def loadTo (s : State) (rD : Reg) (w : Width) (ea : Word) : Result :=
  withAccess s ea w .load fun pa =>
    .next (((physRead s pa w).2.setReg rD (physRead s pa w).1).advance)

/-- Store: `MemWrite(ea, n, v)`, then the next pc (R181, R185). -/
def storeFrom (s : State) (v : Word) (w : Width) (ea : Word) : Result :=
  withAccess s ea w .store fun pa => .next (physWrite s pa w v).advance

/-! ## Arithmetic and branches -/

/-- Write an ALU result to rD and its flags, then the next pc (R143). -/
def writeAlu (s : State) (rD : Reg) (o : AluOut) : Result := .next (((s.setReg rD o.result).setFlags o.flags).advance)

/-- Write a moved value to rD, flags untouched, then the next pc (R152). -/
def writeMove (s : State) (rD : Reg) (v : Word) : Result := .next ((s.setReg rD v).advance)

/-- `pc + sext_32(imm26) * 4` (R112); `disp` is `sext_32(imm26)`, as decoding assembles it. -/
def branchTarget (s : State) (disp : Word) : Word := s.core.pc + disp * 4#32

/-- The common pseudocode of the branches (R212). -/
def branchIf (s : State) (taken : Bool) (disp : Word) : Result :=
  .next (if taken then s.jump (branchTarget s disp) else s.advance)

end Sys2Proof.Machine
end

