-- ==== Sys2Proof/Machine/Alu.lean ====
section
/-! DEFINITION. The meanings of add, sub, cmp, and, or, xor, lsl, lsr, rotr (spec/40_alu.md R143 to R151). -/

namespace Sys2Proof.Machine

/-- add rD, rA, rB (R143). -/
def execAdd (rD rA rB : Reg) (s : State) : Result := writeAlu s rD (aluAdd (s.reg rA) (s.reg rB))

/-- sub rD, rA, rB (R144). -/
def execSub (rD rA rB : Reg) (s : State) : Result := writeAlu s rD (aluSub (s.reg rA) (s.reg rB))

/-- and rD, rA, rB (R146). -/
def execAnd (rD rA rB : Reg) (s : State) : Result := writeAlu s rD (aluLogic (s.reg rA &&& s.reg rB))

/-- or rD, rA, rB (R147). -/
def execOr (rD rA rB : Reg) (s : State) : Result := writeAlu s rD (aluLogic (s.reg rA ||| s.reg rB))

/-- xor rD, rA, rB (R148). -/
def execXor (rD rA rB : Reg) (s : State) : Result := writeAlu s rD (aluLogic (s.reg rA ^^^ s.reg rB))

/-- lsl rD, rA, rB (R149). -/
def execLsl (rD rA rB : Reg) (s : State) : Result := writeAlu s rD (aluLsl (s.reg rA) (s.reg rB))

/-- lsr rD, rA, rB (R150). -/
def execLsr (rD rA rB : Reg) (s : State) : Result := writeAlu s rD (aluLsr (s.reg rA) (s.reg rB))

/-- rotr rD, rA, rB (R151). -/
def execRotr (rD rA rB : Reg) (s : State) : Result := writeAlu s rD (aluRotr (s.reg rA) (s.reg rB))

/-- cmp rA, rB (R145): the flags of sub, no register written. -/
def execCmp (rA rB : Reg) (s : State) : Result :=
  .next ((s.setFlags (aluSub (s.reg rA) (s.reg rB)).flags).advance)

end Sys2Proof.Machine
end

