-- ==== Sys2Proof/Machine/Control.lean ====
section
/-! DEFINITION. The meanings of the branches, jumps, calls and stack instructions (spec/42_control.md R210 to R233). -/

namespace Sys2Proof.Machine

/-- br label (R213). -/
def execBr (disp : Word) (s : State) : Result := branchIf s true disp

/-- bz label (R214). -/
def execBz (disp : Word) (s : State) : Result := branchIf s (flagZ s.core.flg) disp

/-- bnz label (R215). -/
def execBnz (disp : Word) (s : State) : Result := branchIf s (!flagZ s.core.flg) disp

/-- bs label (R216). -/
def execBs (disp : Word) (s : State) : Result := branchIf s (flagN s.core.flg) disp

/-- bns label (R217). -/
def execBns (disp : Word) (s : State) : Result := branchIf s (!flagN s.core.flg) disp

/-- bc label (R218). -/
def execBc (disp : Word) (s : State) : Result := branchIf s (flagC s.core.flg) disp

/-- bnc label (R219). -/
def execBnc (disp : Word) (s : State) : Result := branchIf s (!flagC s.core.flg) disp

/-- bo label (R220). -/
def execBo (disp : Word) (s : State) : Result := branchIf s (flagV s.core.flg) disp

/-- bno label (R221). -/
def execBno (disp : Word) (s : State) : Result := branchIf s (!flagV s.core.flg) disp

/-- bl label (R222). -/
def execBl (disp : Word) (s : State) : Result := branchIf s (condLess s.core.flg) disp

/-- bge label (R223). -/
def execBge (disp : Word) (s : State) : Result := branchIf s (!condLess s.core.flg) disp

/-- ble label (R224). -/
def execBle (disp : Word) (s : State) : Result := branchIf s (condLessEq s.core.flg) disp

/-- bb label (R225). -/
def execBb (disp : Word) (s : State) : Result := branchIf s (flagC s.core.flg) disp

/-- bae label (R226). -/
def execBae (disp : Word) (s : State) : Result := branchIf s (!flagC s.core.flg) disp

/-- bbe label (R227). -/
def execBbe (disp : Word) (s : State) : Result := branchIf s (condBelowEq s.core.flg) disp

/-- jmp target (R228): absolute, `zext_32(imm26) << 2`; `imm` is `zext_32(imm26)` (R112). -/
def execJmp (imm : Word) (s : State) : Result := .next (s.jump (imm <<< 2))

/-- Push a word on the r31 stack: the store comes before r31 changes (R229, R231). `k` is what follows, given the state with r31
written. -/
def pushWord (s : State) (v : Word) (k : State → State) : Result :=
  withAccess s (s.reg spReg - 4#32) .word .store fun pa =>
    .next (k ((physWrite s pa .word v).setReg spReg (s.reg spReg - 4#32)))

/-- Pop a word off the r31 stack: the load comes before r31 changes (R230, R232). `k` is what follows, given the word and the
state with r31 written. -/
def popWord (s : State) (k : Word → State → State) : Result :=
  withAccess s (s.reg spReg) .word .load fun pa =>
    .next (k (physRead s pa .word).1 ((physRead s pa .word).2.setReg spReg (s.reg spReg + 4#32)))

/-- call label (R229): push `pc + 4`, then branch. -/
def execCall (disp : Word) (s : State) : Result :=
  pushWord s (s.core.pc + 4#32) fun t => t.jump (branchTarget s disp)

/-- ret (R230): pop pc. -/
def execRet (s : State) : Result := popWord s fun v t => t.jump v

/-- push rS (R231): `x[rS]` is read before r31 changes. -/
def execPush (rS : Reg) (s : State) : Result := pushWord s (s.reg rS) fun t => t.advance

/-- pop rD (R232): rD is written after r31. -/
def execPop (rD : Reg) (s : State) : Result := popWord s fun v t => (t.setReg rD v).advance

/-- nop (R233). -/
def execNop (s : State) : Result := .next s.advance

end Sys2Proof.Machine
end

