-- ==== Sys2Proof/Machine/LoadStore.lean ====
section
/-! DEFINITION. The meanings of the memory instructions (spec/41_loadstore.md R180 to R192). -/

namespace Sys2Proof.Machine

/-- pc-relative effective address (R180); `disp` is `sext_32(imm21)`, as decoding assembles it (R112). -/
def pcAddress (s : State) (disp : Word) : Word := s.core.pc + disp

/-- Register-indirect effective address (R180); `disp` is `sext_32(imm16)` or `sext_32(imm11)` (R112). -/
def baseAddress (s : State) (rA : Reg) (disp : Word) : Word := s.reg rA + disp

/-- lw rD, disp (R184). -/
def execLw (rD : Reg) (disp : Word) (s : State) : Result := loadTo s rD .word (pcAddress s disp)

/-- sw rS, disp (R185). -/
def execSw (rS : Reg) (disp : Word) (s : State) : Result := storeFrom s (s.reg rS) .word (pcAddress s disp)

/-- lwa rD, [rA, disp] (R186). -/
def execLwa (rD rA : Reg) (disp : Word) (s : State) : Result := loadTo s rD .word (baseAddress s rA disp)

/-- swa rS, [rA, disp] (R187). -/
def execSwa (rS rA : Reg) (disp : Word) (s : State) : Result :=
  storeFrom s (s.reg rS) .word (baseAddress s rA disp)

/-- lda rD, [rA, disp] (R188): a halfword, zero-extended. -/
def execLda (rD rA : Reg) (disp : Word) (s : State) : Result := loadTo s rD .half (baseAddress s rA disp)

/-- sda rS, [rA, disp] (R189): `x[rS][15:0]`. -/
def execSda (rS rA : Reg) (disp : Word) (s : State) : Result :=
  storeFrom s (s.reg rS) .half (baseAddress s rA disp)

/-- lba rD, [rA, disp] (R190): a byte, zero-extended. -/
def execLba (rD rA : Reg) (disp : Word) (s : State) : Result := loadTo s rD .byte (baseAddress s rA disp)

/-- sba rS, [rA, disp] (R191): `x[rS][7:0]`. -/
def execSba (rS rA : Reg) (disp : Word) (s : State) : Result :=
  storeFrom s (s.reg rS) .byte (baseAddress s rA disp)

/-- fada rD, rV, [rA, disp] (R192): translated once for its read and its write; the addend is read before rD is written. -/
def execFada (rD rA rV : Reg) (disp : Word) (s : State) : Result :=
  withAccess s (baseAddress s rA disp) .word .rmw fun pa =>
    let old := (physRead s pa .word).1
    let afterWrite := physWrite (physRead s pa .word).2 pa .word (old + s.reg rV)
    .next ((afterWrite.setReg rD old).advance)

end Sys2Proof.Machine
end

