-- ==== Sys2Proof/Machine/Move.lean ====
section
/-! DEFINITION. The meanings of mov, movi, movi.u, movi.h and adpc (spec/40_alu.md R152 to R156). -/

namespace Sys2Proof.Machine

/-- mov rD, rA (R152). -/
def execMov (rD rA : Reg) (s : State) : Result := writeMove s rD (s.reg rA)

/-- movi rD, imm (R153): `sext_32(imm16)`, as decoding assembles it (R112). -/
def execMovi (rD : Reg) (imm : Word) (s : State) : Result := writeMove s rD imm

/-- movi.u rD, imm (R154): `zext_32(imm16)`, as decoding assembles it (R112). -/
def execMoviU (rD : Reg) (imm : Word) (s : State) : Result := writeMove s rD imm

/-- movi.h rD, imm16 (R155): the upper half, keeping `x[rD][15:0]`. -/
def execMoviH (rD : Reg) (imm16 : BitVec 16) (s : State) : Result :=
  writeMove s rD (imm16 ++ (s.reg rD).extractLsb' 0 16)

/-- adpc rD, disp (R156): a byte displacement from the instruction's own address. -/
def execAdpc (rD : Reg) (disp : Word) (s : State) : Result := writeMove s rD (s.core.pc + disp)

end Sys2Proof.Machine
end

