-- ==== Sys2Proof/Machine/System.lean ====
section
/-! DEFINITION. The meanings of the system instructions (spec/43_system.md R240 to R252). -/

namespace Sys2Proof.Machine

/-- A crmv whose cr-index names no register raises EXC_INSTR, before the privilege check (R117, R241, R242). -/
def withCReg (s : State) (k : CrIndex) (effect : CReg → Result) : Result :=
  match CReg.ofIndex k with
  | some r => privileged s (effect r)
  | none => raise s .instr

/-- crmv crD, rS (R241). -/
def execCrmvW (crD : CrIndex) (rS : Reg) (s : State) : Result :=
  withCReg s crD fun r => .next ((s.withCore (s.core.writeCr r (s.reg rS))).advance)

/-- crmv rD, crS (R242). -/
def execCrmvR (rD : Reg) (crS : CrIndex) (s : State) : Result :=
  withCReg s crS fun r => .next ((s.setReg rD (s.core.readCr r)).advance)

/-- sys imm8 (R243): a trap to kernel mode through slot imm8 with epc = `pc + 4`; not privileged (R240). -/
def execSys (imm8 : BitVec 8) (s : State) : Result := enterTrap s imm8 (s.core.pc + 4#32) .kernel

/-- rfe (R244): to user mode, the flags unchanged. -/
def execRfe (s : State) : Result := privileged s (.next (returnTo s .user s.core.flg))

/-- rfi (R245): to mode_prev, the flags from efg. -/
def execRfi (s : State) : Result := privileged s (.next (returnTo s s.core.modePrev s.core.efg))

/-- rft (R246): to kernel mode, the flags from efg. -/
def execRft (s : State) : Result := privileged s (.next (returnTo s .kernel s.core.efg))

/-- tlbw rE, rV (R247). -/
def execTlbw (rE rV : Reg) (s : State) : Result :=
  privileged s (.next ((s.withCore (tlbInsert s.core (newEntry s.core.pid (s.reg rE) (s.reg rV)))).advance))

/-- tlbr rD, rV (R248). -/
def execTlbr (rD rV : Reg) (s : State) : Result :=
  privileged s (.next ((s.setReg rD (tlbLookup s.core (s.reg rV))).advance))

/-- tlbc (R249). -/
def execTlbc (s : State) : Result := privileged s (.next ((s.withCore (tlbClear s.core)).advance))

/-- isr bit 5, the IPI source (R250, R300). -/
def ipiBit : BitVec 16 := 0x20#16

/-- What an `ipi` does to its target: the payload into mbi, the IPI bit into isr (R250). -/
def receiveIpi (payload : Word) (c : CoreState) : CoreState :=
  { c with mbi := payload, isr := c.isr ||| ipiBit, written := { c.written with mbi := true } }

/-- ipi rD, rT (R250). -/
def execIpi (rD rT : Reg) (s : State) : Result :=
  privileged s
    (if (s.reg rT).toNat < s.nCores then
      .next (((s.modifyCore (s.reg rT).toNat (receiveIpi s.core.mbo)).setReg rD 1#32).advance)
    else .next ((s.setReg rD 0#32).advance))

/-- `run <- r` on the current core. -/
def State.setRun (s : State) (r : RunState) : State := s.withCore { s.core with run := r }

/-- mode halt (R251). -/
def execModeHalt (s : State) : Result := privileged s (.next (s.advance.setRun .halted))

/-- mode sleep (R252). -/
def execModeSleep (s : State) : Result := privileged s (.next (s.advance.setRun .sleeping))

end Sys2Proof.Machine
end

