-- ==== Sys2Proof/Machine/Dispatch.lean ====
section
/-! DEFINITION. One arm per instruction: what executing it on the current core does (spec/60_exceptions.md R287, "execute d by its rule"). -/

namespace Sys2Proof.Machine

def exec (i : Instr) (s : State) : Host.Outcome State Fault Refusal :=
  match i with
  | .add rD rA rB => Sys2Proof.Machine.execAdd rD rA rB s
  | .sub rD rA rB => Sys2Proof.Machine.execSub rD rA rB s
  | .and rD rA rB => Sys2Proof.Machine.execAnd rD rA rB s
  | .or rD rA rB => Sys2Proof.Machine.execOr rD rA rB s
  | .xor rD rA rB => Sys2Proof.Machine.execXor rD rA rB s
  | .lsl rD rA rB => Sys2Proof.Machine.execLsl rD rA rB s
  | .lsr rD rA rB => Sys2Proof.Machine.execLsr rD rA rB s
  | .rotr rD rA rB => Sys2Proof.Machine.execRotr rD rA rB s
  | .cmp a b => Sys2Proof.Machine.execCmp a b s
  | .mov a b => Sys2Proof.Machine.execMov a b s
  | .movi rD imm => Sys2Proof.Machine.execMovi rD imm s
  | .moviU rD imm => Sys2Proof.Machine.execMoviU rD imm s
  | .moviH rD imm16 => Sys2Proof.Machine.execMoviH rD imm16 s
  | .adpc a disp => Sys2Proof.Machine.execAdpc a disp s
  | .crmvW a b => Sys2Proof.Machine.execCrmvW a b s
  | .crmvR a b => Sys2Proof.Machine.execCrmvR a b s
  | .lw a disp => Sys2Proof.Machine.execLw a disp s
  | .sw a disp => Sys2Proof.Machine.execSw a disp s
  | .lwa a b disp => Sys2Proof.Machine.execLwa a b disp s
  | .swa a b disp => Sys2Proof.Machine.execSwa a b disp s
  | .lda a b disp => Sys2Proof.Machine.execLda a b disp s
  | .sda a b disp => Sys2Proof.Machine.execSda a b disp s
  | .lba a b disp => Sys2Proof.Machine.execLba a b disp s
  | .sba a b disp => Sys2Proof.Machine.execSba a b disp s
  | .fada rD rA rV disp => Sys2Proof.Machine.execFada rD rA rV disp s
  | .push a => Sys2Proof.Machine.execPush a s
  | .pop a => Sys2Proof.Machine.execPop a s
  | .br disp => Sys2Proof.Machine.execBr disp s
  | .bz disp => Sys2Proof.Machine.execBz disp s
  | .bnz disp => Sys2Proof.Machine.execBnz disp s
  | .bs disp => Sys2Proof.Machine.execBs disp s
  | .bns disp => Sys2Proof.Machine.execBns disp s
  | .bc disp => Sys2Proof.Machine.execBc disp s
  | .bnc disp => Sys2Proof.Machine.execBnc disp s
  | .bo disp => Sys2Proof.Machine.execBo disp s
  | .bno disp => Sys2Proof.Machine.execBno disp s
  | .bl disp => Sys2Proof.Machine.execBl disp s
  | .bge disp => Sys2Proof.Machine.execBge disp s
  | .ble disp => Sys2Proof.Machine.execBle disp s
  | .bb disp => Sys2Proof.Machine.execBb disp s
  | .bae disp => Sys2Proof.Machine.execBae disp s
  | .bbe disp => Sys2Proof.Machine.execBbe disp s
  | .jmp imm => Sys2Proof.Machine.execJmp imm s
  | .call disp => Sys2Proof.Machine.execCall disp s
  | .ret => Sys2Proof.Machine.execRet s
  | .nop => Sys2Proof.Machine.execNop s
  | .ipi a b => Sys2Proof.Machine.execIpi a b s
  | .sys imm8 => Sys2Proof.Machine.execSys imm8 s
  | .rfe => Sys2Proof.Machine.execRfe s
  | .rfi => Sys2Proof.Machine.execRfi s
  | .rft => Sys2Proof.Machine.execRft s
  | .tlbw a b => Sys2Proof.Machine.execTlbw a b s
  | .tlbr a b => Sys2Proof.Machine.execTlbr a b s
  | .tlbc => Sys2Proof.Machine.execTlbc s
  | .modeHalt => Sys2Proof.Machine.execModeHalt s
  | .modeSleep => Sys2Proof.Machine.execModeSleep s

end Sys2Proof.Machine
end

