-- ==== Sys2Proof/Machine/Engines.lean ====
section
/-! DEFINITION. The agents beside the cores: the SD DMA engine (spec/60_exceptions.md R330), the device sampler (R320, R325, R327,
R341) and the host's keyboard input (R352). -/

namespace Sys2Proof.Machine

/-! ## The SD DMA engine (R330) -/

/-- Replace an SD slot. -/
def State.setSlot (s : State) (i : SlotId) (d : SdSlot) : State := { s with dev := s.dev.setSlot i d }

/-- The end of a quantum: the cursors move on by 4 bytes, and BUSY clears when no byte is left. -/
def SdSlot.stepCursors (d : SdSlot) : SdSlot :=
  { d with
    cur := d.cur + 4#32
    off := d.off + 4#32
    rem := d.rem - 4#32
    busy := d.rem - 4#32 != 0#32 }

/-- One 4-byte quantum of a transfer: SD to RAM for `read`, RAM to SD otherwise (R330's "else"). The slot is read again after the
memory access, which may have been a port access (log 16). -/
def dmaQuantum (s : State) (i : SlotId) : State :=
  let d := s.dev.slot i
  if d.kind = .read then
    let moved := physWrite s d.cur .word (d.image.readWord d.off)
    moved.setSlot i (moved.dev.slot i).stepCursors
  else
    let moved := (physRead s d.cur .word).2
    let slot := moved.dev.slot i
    moved.setSlot i { slot with image := slot.image.writeWord d.off (physRead s d.cur .word).1 }.stepCursors

/-- One slot's part of DmaStep; `quantum` says whether this step moves data. -/
def dmaSlot (quantum : Bool) (s : State) (i : SlotId) : State :=
  let d := s.dev.slot i
  if !d.busy then s
  else if d.kind = .init then s.setSlot i { d with busy := false }
  else if !quantum then s
  else if d.rem = 0#32 then s.setSlot i { d with busy := false }
  else dmaQuantum s i

/-- This DmaStep moves a quantum: `dma_count + 1 >= SD_DMA_TICKS`. -/
def dmaDue (s : State) : Bool := decide (s.params.sdDmaTicks ≤ s.dev.dmaCount + 1)

/-- The shared counter's move (R330). -/
def dmaCountStep (s : State) : State :=
  { s with dev := { s.dev with dmaCount := if dmaDue s then 0 else s.dev.dmaCount + 1 } }

/-- DmaStep (R330): slot 0 before slot 1. -/
def dmaStep (s : State) : State := dmaSlot (dmaDue s) (dmaSlot (dmaDue s) (dmaCountStep s) .sd0) .sd1

/-! ## The device sampler (R341) -/

/-- OR bits into every core's isr (R300, R305). -/
def raiseLines (s : State) (bits : BitVec 16) : State := s.mapCores fun c => { c with isr := c.isr ||| bits }

/-- isr bit 0. -/
def pitBit : BitVec 16 := 0x1#16

/-- isr bit 1. -/
def keyboardBit : BitVec 16 := 0x2#16

/-- isr bit 4. -/
def vgaBit : BitVec 16 := 0x10#16

/-- The PIT fires at this sample (R320). -/
def pitDue (d : Devices) : Bool := d.pitPeriod != 0#32 && decide (d.pitPeriod.toNat ≤ d.pitCount + 1)

/-- The PIT's sample (R320). -/
def samplePit (s : State) : State :=
  if pitDue s.dev then raiseLines { s with dev := { s.dev with pitCount := 0 } } pitBit
  else { s with dev := { s.dev with pitCount := s.dev.pitCount + 1 } }

/-- The VGA's sample (R327): a frame every VGA_FRAME_PASSES passes, never if 0 (log 15). -/
def sampleVga (s : State) : State :=
  if s.params.vgaFramePasses = 0 then s
  else if s.params.vgaFramePasses ≤ s.dev.vgaPasses + 1 then
    raiseLines { s with dev := { s.dev with vgaPasses := 0, vgaFrame := s.dev.vgaFrame + 1#16 } } vgaBit
  else { s with dev := { s.dev with vgaPasses := s.dev.vgaPasses + 1 } }

/-- The active input queue is not empty (R325). -/
def inputWaiting (s : State) : Bool :=
  if s.params.uartInput then !s.dev.uartRx.isEmpty else !s.dev.ps2Queue.isEmpty

/-- The keyboard line's sample (R325). -/
def sampleKeyboard (s : State) : State := if inputWaiting s then raiseLines s keyboardBit else s

/-- Sample (R341): the PIT, the VGA frame, the keyboard line. -/
def sample (s : State) : State := sampleKeyboard (sampleVga (samplePit s))

/-! ## The host (R352) -/

/-- One input reaches the queue that UART_INPUT selects; the host sends nothing to the other one (R322, R352; log 8). -/
def Devices.receive (uartInput : Bool) (d : Devices) : HostInput → Devices
  | .keyEvent e => if uartInput then d else { d with ps2Queue := d.ps2Queue ++ [e] }
  | .uartByte b => if uartInput then { d with uartRx := d.uartRx ++ [b] } else d

/-- The inputs the schedule holds for the pass that begins (R345). -/
def hostArrive (s : State) : State :=
  { s with
    dev := (s.hostSchedule.headD []).foldl (Devices.receive s.params.uartInput) s.dev
    hostSchedule := s.hostSchedule.tail }

end Sys2Proof.Machine
end

