-- ==== Sys2Proof/Machine/Sources.lean ====
section
/-! DEFINITION. The registers each instruction reads, and the read of an unwritten one, which RESET_UNWRITTEN = FAULT makes a model
fault (spec/70_reset_and_hazards.md R380; log 28). -/

namespace Sys2Proof.Machine

/-- A register that an instruction reads: a general register through the resolver (R22), or a control register by name. -/
inductive Source where
  | reg (r : Reg)
  | cr (q : CReg)
  deriving DecidableEq, Repr

/-- What a privileged instruction reads: nothing in user mode, where EXC_PRIV comes before its operands (R282). -/
def privilegedSources (s : State) (l : List Source) : List Source := if s.core.mode = .user then [] else l

/-- What `ipi` reads (R250): the target's number, and mbo where that target exists. -/
def ipiSources (s : State) (rT : Reg) : List Source :=
  if (s.reg rT).toNat < s.nCores then [.reg rT, .cr .mbo] else [.reg rT]

/-- A data access gets past Align and Translate (R65, R71). -/
def accessTranslates (s : State) (ea : Word) (w : Width) (i : Intent) : Bool :=
  match alignAddr s.params.misalign ea w with
  | none => false
  | some va => (translateVa s.core va i).isSome

/-- What `fada` reads (R192): x[rA] for its address, and x[rV] after Translate, so not where the access traps or sticks. -/
def fadaSources (s : State) (rA rV : Reg) (disp : Word) : List Source :=
  if accessTranslates s (baseAddress s rA disp) .word .rmw then [.reg rA, .reg rV] else [.reg rA]

/-- The registers an instruction reads, in its rule's pseudocode: its operands before it does anything else, but for the addend of
`fada` (log 28, DEDUCED). Registers that R380 does not name among those whose unwritten read is a fault (pid, imr, isr, cid, flg, and
mode_prev, run, trap_live, tlb_next and the TLB's entries, of which it says nothing) are read freely: for the latter that is the
model's choice (log 28, DESIGN CHOICE). -/
def sources (s : State) : Instr → List Source
  | .add _ rA rB | .sub _ rA rB | .and _ rA rB | .or _ rA rB | .xor _ rA rB => [.reg rA, .reg rB]
  | .lsl _ rA rB | .lsr _ rA rB | .rotr _ rA rB | .cmp rA rB => [.reg rA, .reg rB]
  | .mov _ rA => [.reg rA]
  | .moviH rD _ => [.reg rD]
  | .movi _ _ | .moviU _ _ | .adpc _ _ => []
  | .crmvW crD rS => if crIndexOk crD then privilegedSources s [.reg rS] else []
  | .crmvR _ crS => privilegedSources s ((CReg.ofIndex crS).toList.map .cr)
  | .lw _ _ => []
  | .sw rS _ => [.reg rS]
  | .lwa _ rA _ | .lda _ rA _ | .lba _ rA _ => [.reg rA]
  | .swa rS rA _ | .sda rS rA _ | .sba rS rA _ => [.reg rA, .reg rS]
  | .fada _ rA rV disp => fadaSources s rA rV disp
  | .push rS => [.reg spReg, .reg rS]
  | .pop _ | .call _ | .ret => [.reg spReg]
  | .br _ | .bz _ | .bnz _ | .bs _ | .bns _ | .bc _ | .bnc _ | .bo _ | .bno _ => []
  | .bl _ | .bge _ | .ble _ | .bb _ | .bae _ | .bbe _ | .jmp _ | .nop | .sys _ => []
  | .ipi _ rT => privilegedSources s (ipiSources s rT)
  | .rfe => privilegedSources s [.cr .epc]
  | .rfi | .rft => privilegedSources s [.cr .epc, .cr .efg]
  | .tlbw rE rV => privilegedSources s [.reg rE, .reg rV]
  | .tlbr _ rV => privilegedSources s [.reg rV]
  | .tlbc | .modeHalt | .modeSleep => []

/-- The register has been written since reset. -/
def CoreState.sourceWritten (c : CoreState) : Source → Bool
  | .reg r => c.regWritten r
  | .cr q => c.crWritten q

/-- The instruction reads no register that would be a model fault here (R380). -/
def readable (s : State) (i : Instr) : Bool :=
  decide (s.params.resetUnwritten = .zero) || (sources s i).all s.core.sourceWritten

end Sys2Proof.Machine
end

