-- ==== Sys2Proof/Machine/Tick.lean ====
section
/-! DEFINITION. The core tick (spec/60_exceptions.md R287 to R290, R301 to R304) and the scheduler (R340 to R342), one core's visit at
a time (log 6). The instruction layout is an argument, the parameter ENCODING (R6, log 1). -/

namespace Sys2Proof.Machine

/-! ## Interrupt delivery (R301 to R303) -/

/-- The lowest set bit. -/
def lowestBit (p : BitVec 16) : Option (Fin 16) := (List.finRange 16).find? fun k => p.getLsbD k.val

/-- The enabled pending sources: `isr & imr & 0xFFFF` (R301). -/
def pendingEnabled (c : CoreState) : BitVec 16 := c.isr &&& c.imr.extractLsb' 0 16

/-- The vector `0xF0 + k` of isr bit k (R300). -/
def interruptVector (k : Fin 16) : BitVec 8 := 0xF0#8 + BitVec.ofNat 8 k.val

/-- Deliverable (R301): the vector of the interrupt this core takes at its tick, if any. -/
def deliverable (c : CoreState) : Option (BitVec 8) :=
  if c.imr.getLsbD 31 = false then none
  else if c.mode = .interrupt then none
  else (lowestBit (pendingEnabled c)).map interruptVector

/-! ## The core tick (R287) -/

/-- Interrupt entry, and the wake from sleep (R302): epc = the next pc not yet executed (R290). -/
def takeInterrupt (s : State) (v : BitVec 8) : Result :=
  enterTrap (s.setRun .running) v s.core.pc .interrupt

/-- Decode and execute a fetched word; a word that decodes to no instruction raises EXC_INSTR (R281), and an instruction that reads
an unwritten register under RESET_UNWRITTEN = FAULT "is a model fault" (R380, log 28); under ZERO, the default, it runs. -/
def runWord (encoding : Encoding) (w : Word) (s : State) : Result :=
  match encoding w with
  | .ok i => if readable s i then exec i s else .fault .unwrittenRegister
  | .error _ => raise s .instr

/-- Fetch at pc, decode and execute (R287). The fetch is a PhysRead, with a port's side effect (log 25). -/
def fetchAndRun (encoding : Encoding) (s : State) : Result :=
  match translateVa s.core s.core.pc .fetch with
  | none => raiseMiss s s.core.pc
  | some pa => runWord encoding (physRead s pa .word).1 (physRead s pa .word).2

/-- CoreTick (R287) of a core that is neither halted nor stuck. -/
def coreTick (encoding : Encoding) (s : State) : Result :=
  match deliverable s.core with
  | some v => takeInterrupt s v
  | none => if s.core.run = .sleeping then .next s else fetchAndRun encoding s

/-! ## The scheduler (R340) -/

/-- Every core is halted (R342). -/
def State.allHalted (s : State) : Bool := s.cores.all fun c => c.run == .halted

/-- No core of this pass has been visited yet. -/
def State.atPassStart (s : State) : Bool := s.done.isEmpty

/-- The run is over: every core halted, and the pass in which the last one halted is complete (R342). -/
def State.runOver (s : State) : Bool := s.atPassStart && s.allHalted

/-- Between passes the host acts (R352). -/
def beginVisit (s : State) : State := if s.atPassStart then hostArrive s else s

/-- Make the first core the next one: a new pass. -/
def rewind (s : State) : State :=
  match s.done with
  | [] => s
  | c :: cs => { s with done := [], core := c, todo := cs ++ s.core :: s.todo }

/-- After a visit: the next core's turn, or the sample and a new pass (R340). -/
def endVisit (s : State) : State :=
  match s.todo with
  | c :: cs => { s with done := s.done ++ [s.core], core := c, todo := cs }
  | [] => rewind (sample s)

/-- What follows a core's tick: the DmaStep (R340), but for a tick that left its core STUCK, which has not come to its end (logs 10
and 11, DESIGN CHOICE); then the end of the visit. -/
def afterCoreTick (s : State) : State := endVisit (if s.core.stuck then s else dmaStep s)

/-- One core's visit (R340): a halted core takes neither a tick nor a DmaStep, and nor does a STUCK core, which "has no further
step" (R297, spec decision D15) while the other cores and the devices go on (logs 10 and 11). -/
def visit (encoding : Encoding) (s : State) : Result :=
  if s.core.run = .halted ∨ s.core.stuck = true then .next (endVisit s)
  else
    match coreTick encoding s with
    | .next t => .next (afterCoreTick t)
    | .fault f => .fault f
    | .refused r => .refused r

/-- One step of the machine: the next core's visit, or nothing when the run is over (log 7). -/
def machineStep (encoding : Encoding) (s : State) : Result :=
  if s.runOver then .next s else visit encoding (beginVisit s)

/-! ## Placing an instruction where the next fetch reads it -/

/-- The physical address the next step fetches from. -/
def fetchAddress (s : State) : Word := (translateVa s.core s.core.pc .fetch).getD s.core.pc

/-- Store an instruction word where the next step fetches it. -/
def placeFetchWord (s : State) (w : Word) : State :=
  { s with mem := Memory.writeLE s.mem (fetchAddress s).toNat .word w }

end Sys2Proof.Machine
end

