-- ==== Sys2Proof/Machine/Step.lean ====
section
/-! DEFINITION. The step, and the host's way to place an instruction under the next fetch. -/

namespace Sys2Proof.Machine

/-- One step of the machine (spec/60_exceptions.md R340) under the spec's own instruction layout: next, fault or refusal. -/
def step : State → Host.Outcome State Fault Refusal := fun s => machineStep decode s

/-- The state with an instruction of `nbits` bits stored where the next step fetches (log 5). -/
def State.withFetchWord (s : State) (nbits w : Nat) : State := placeFetchWord s (BitVec.ofNat 32 (w % 2 ^ nbits))

end Sys2Proof.Machine
end

