-- ==== Sys2Proof/Machine/Boot.lean ====
section
/-! DEFINITION. The loader of the boot image and of the SD images, before the first pass (spec/70_reset_and_hazards.md R380, R381;
spec/60_exceptions.md R331). -/

namespace Sys2Proof.Machine

/-- Lay bytes out from an address on, at the addresses that take them; every other address holds 0. -/
def loadBytes (takes : Nat → Bool) : Nat → List Byte → Memory
  | _, [] => []
  | a, b :: rest =>
    if takes a then Memory.write (loadBytes takes (a + 1) rest) a b else loadBytes takes (a + 1) rest

/-- The bytes of a word, little-endian (R62). -/
def wordBytes (w : Word) : List Byte :=
  [w.extractLsb' 0 8, w.extractLsb' 8 8, w.extractLsb' 16 8, w.extractLsb' 24 8]

/-- The address belongs to a device region or the port window, and so is no RAM (R78). -/
def deviceAt (a : Nat) : Bool := portWindow.has a || storageRegions.any (·.has a)

/-- Memory at reset: word k of the boot image at physical `4k` (R381), and 0 beyond it and in the device regions, which the image
does not reach (R80, R81, R380; log 29, DESIGN CHOICE where RAM_SIZE lies above a device region). -/
def bootMemory (image : List Word) : Memory := loadBytes (fun a => !deviceAt a) 0 (image.flatMap wordBytes)

/-- An SD image as its raw byte stream; an absent one is the empty stream, of length 0 (R331). -/
def SdImage.load (raw : List Byte) : SdImage where
  size := raw.length
  bytes := loadBytes (fun _ => true) 0 raw

/-- The reset state with its images loaded, or none, the loader error of an image longer than RAM_SIZE bytes (R381, spec decision
D16). -/
def State.boot (p : Params) (others : Nat) (image : List Word) (sd0 sd1 : List Byte) (schedule : List (List HostInput)) :
    Option State :=
  if p.ramSize < 4 * image.length then none
  else some (State.initial p others (bootMemory image) (SdImage.load sd0) (SdImage.load sd1) schedule)

end Sys2Proof.Machine
end

