-- ==== Sys2Proof/Safety.lean ====
section
/-! DEFINITION. The terms claims use: what an instruction leaves unchanged, what a load or a store does at a physical address, and
the invariant of a safe run. -/

namespace Sys2Proof.Machine

/-! ## Operands -/

/-- The operands of `i` are the fields of `w` that its format gives them (R111, R113), and its immediate is assembled from its field
as R112 says. -/
def OperandsAre (w : Word) (i : Instr) : Prop :=
  let a := w.extractLsb' 21 5
  let b := w.extractLsb' 16 5
  let c := w.extractLsb' 11 5
  let simm (n : Nat) : Word := (w.extractLsb' 0 n).signExtend 32
  let zimm (n : Nat) : Word := (w.extractLsb' 0 n).zeroExtend 32
  match i with
  | .add rD rA rB | .sub rD rA rB | .and rD rA rB | .or rD rA rB | .xor rD rA rB => rD = a ∧ rA = b ∧ rB = c
  | .lsl rD rA rB | .lsr rD rA rB | .rotr rD rA rB => rD = a ∧ rA = b ∧ rB = c
  | .cmp x y | .mov x y | .crmvW x y | .crmvR x y | .ipi x y | .tlbw x y | .tlbr x y => x = a ∧ y = b
  | .push x | .pop x => x = a
  | .movi rD imm => rD = a ∧ imm = simm 16
  | .moviU rD imm => rD = a ∧ imm = zimm 16
  | .moviH rD imm16 => rD = a ∧ imm16 = w.extractLsb' 0 16
  | .adpc x disp | .lw x disp | .sw x disp => x = a ∧ disp = simm 21
  | .lwa x rA disp | .swa x rA disp | .lda x rA disp | .sda x rA disp => x = a ∧ rA = b ∧ disp = simm 16
  | .lba x rA disp | .sba x rA disp => x = a ∧ rA = b ∧ disp = simm 16
  | .fada rD rA rV disp => rD = a ∧ rA = b ∧ rV = c ∧ disp = simm 11
  | .br disp | .bz disp | .bnz disp | .bs disp | .bns disp | .bc disp | .bnc disp | .bo disp | .bno disp => disp = simm 26
  | .bl disp | .bge disp | .ble disp | .bb disp | .bae disp | .bbe disp | .call disp => disp = simm 26
  | .jmp imm => imm = zimm 26
  | .sys imm8 => imm8 = w.extractLsb' 0 8
  | .ret | .nop | .rfe | .rfi | .rft | .tlbc | .modeHalt | .modeSleep => True

/-! ## Frames -/

/-- Everything outside the current core is unchanged: the parameters, the other cores, every byte of memory, the devices, the
host's schedule. -/
def SameOutside (s t : State) : Prop :=
  t.params = s.params ∧ t.done = s.done ∧ t.todo = s.todo ∧ t.dev = s.dev ∧ t.hostSchedule = s.hostSchedule ∧
    ∀ a, Memory.read t.mem a = Memory.read s.mem a

/-- The state of a core that no register number and no cr-index names, less the pc: mode, mode_prev, run, trap_live, STUCK, the TLB
and tlb_next. -/
def SameHidden (c d : CoreState) : Prop :=
  d.mode = c.mode ∧ d.modePrev = c.modePrev ∧ d.run = c.run ∧ d.trapLive = c.trapLive ∧ d.tlb = c.tlb ∧
    d.tlbNext = c.tlbNext ∧ d.stuck = c.stuck

/-- Every general register but those in `regs`, and every control register but those in `crs` and the stack pointer that r31 names
where r31 is in `regs`, keeps its value, and is written since reset exactly where it was. -/
def OnlyWrites (c d : CoreState) (regs : List Reg) (crs : List CReg) : Prop :=
  (∀ r, r ∉ regs → d.reg r = c.reg r ∧ d.regWritten r = c.regWritten r) ∧
    ∀ q, q ∉ crs → ¬ (spReg ∈ regs ∧ q = stackCReg c.mode) →
      d.readCr q = c.readCr q ∧ d.crWritten q = c.crWritten q

/-- The frame of an instruction that touches nothing outside its core and writes only `regs` and `crs` there (and the pc). -/
def Frame (s t : State) (regs : List Reg) (crs : List CReg) : Prop :=
  SameOutside s t ∧ SameHidden s.core t.core ∧ OnlyWrites s.core t.core regs crs

/-- `x[rD] <- v` as a reader of the register sees it: r0 discards the value and reads 0. The register counts as written. -/
def HoldsResult (t : State) (rD : Reg) (v : Word) : Prop :=
  t.reg rD = (if rD = 0#5 then 0#32 else v) ∧ t.core.regWritten rD = true

/-- Everything but the saved state, mode, pc and trap_live is as before a trap: the general registers' storage, every control
register but epc, efg and those in `crs`, the TLB, the run state, STUCK, and everything outside the core (R293). Those written
count as written. -/
def TrapFrame (s t : State) (crs : List CReg) : Prop :=
  SameOutside s t ∧ t.core.gpr = s.core.gpr ∧ t.core.run = s.core.run ∧ t.core.tlb = s.core.tlb ∧
    t.core.tlbNext = s.core.tlbNext ∧ t.core.stuck = s.core.stuck ∧ t.core.written.gpr = s.core.written.gpr ∧
    (∀ q, q ∉ .epc :: .efg :: crs →
      t.core.readCr q = s.core.readCr q ∧ t.core.crWritten q = s.core.crWritten q) ∧
    ∀ q, q ∈ .epc :: .efg :: crs → t.core.crWritten q = true

/-- The trap of vector `v` was entered from `s`: what R292 writes. -/
def TrapTaken (s t : State) (v : BitVec 8) (epcValue : Word) (newMode : Mode) : Prop :=
  t.core.epc = epcValue ∧ t.core.efg = s.core.flg ∧ t.core.modePrev = s.core.mode ∧ t.core.mode = newMode ∧
    t.core.trapLive = true ∧ t.core.pc = ivtEntry s v &&& 0xFFFFFFFC#32

/-- No exception or sys is STUCK in this state (R297). -/
def TrapsEnter (s : State) : Prop := s.params.nestedTrapFatal = false ∨ s.core.trapLive = false

/-- The state in which nothing has happened but that the current core is STUCK (R297; R65 and spec decision D15). -/
def stuckState (s : State) : State := { s with core := { s.core with stuck := true } }

/-- The state with a faulting virtual address in `tlb` (R75), which then counts as written. -/
def tlbAddressState (s : State) (va : Word) : State :=
  { s with core := { s.core with tlbAddr := va, written := { s.core.written with tlbAddr := true } } }

/-- Every register the instruction reads has been written since reset, or RESET_UNWRITTEN is ZERO (R380). -/
def Readable (s : State) (i : Instr) : Prop :=
  s.params.resetUnwritten = .zero ∨ ∀ x ∈ sources s i, s.core.sourceWritten x = true

/-! ## Accesses -/

/-- The data access at `ea` is possible: its alignment is accepted and its translation answers `pa` (R65, R71). -/
def AccessAt (s : State) (ea : Word) (w : Width) (i : Intent) (pa : Word) : Prop :=
  ∃ va, alignAddr s.params.misalign ea w = some va ∧ translateVa s.core va i = some pa

/-- The data access at `ea` misses at the aligned address `va` (R71, R182). -/
def AccessMisses (s : State) (ea : Word) (w : Width) (i : Intent) (va : Word) : Prop :=
  alignAddr s.params.misalign ea w = some va ∧ translateVa s.core va i = none

/-- `v` is the little-endian value of the `w` bytes of memory from `a` on, zero-extended (R62, R181). -/
def BytesAre (m : Memory) (a : Nat) (w : Width) (v : Word) : Prop :=
  v.toNat < 2 ^ (8 * widthBytes w) ∧
    ∀ k, k < widthBytes w → v.extractLsb' (8 * k) 8 = Memory.read m (a + k)

/-- The `n` bytes from `a` on lie in one of the four VGA regions (R77, R81). -/
def InVga (a n : Nat) : Prop :=
  ∃ r ∈ [(0x07FBD000, 0x07FBFFFF), (0x07FC0000, 0x07FDFFFF), (0x07FE8000, 0x07FEFFFF), (0x07FF0000, 0x07FFFFFF)],
    r.1 ≤ a ∧ a + n ≤ r.2 + 1

/-- The `n` bytes from `a` on lie in the port window (R77). -/
def InPorts (a n : Nat) : Prop := 0x07FE5800 ≤ a ∧ a + n ≤ 0x07FE5B4F + 1

/-- The `n` bytes from `a` on are RAM: below RAM_SIZE, and no byte of them a device's (R78). -/
def InRam (p : Params) (a n : Nat) : Prop := a + n ≤ p.ramSize ∧ ∀ k, k < n → ¬ InVga (a + k) 1 ∧ ¬ InPorts (a + k) 1

/-- Where an access of `n` bytes at a multiple of `n` goes: devices first, then RAM, then nowhere (R77 to R79). -/
def PhysicalMap (p : Params) : Prop :=
  ∀ (pa : Word) (w : Width), let a := pa.toNat; let n := widthBytes w
    a % n = 0 →
      (place p pa w = .port ↔ InPorts a n) ∧ (place p pa w = .storage ↔ InVga a n ∨ InRam p a n) ∧
        (place p pa w = .unmapped ↔ ¬ InPorts a n ∧ ¬ InVga a n ∧ ¬ InRam p a n)

/-- What reading `w` bytes at physical address `pa` answers and does to the devices (R79, R83). -/
def ReadsAs (s : State) (pa : Word) (w : Width) (v : Word) (d : Devices) : Prop :=
  (place s.params pa w = .storage → BytesAre s.mem pa.toNat w v ∧ d = s.dev) ∧
    (place s.params pa w = .port → v = (portRead s.dev pa w).1 ∧ d = (portRead s.dev pa w).2) ∧
    (place s.params pa w = .unmapped → v = 0#32 ∧ d = s.dev)

/-- The `w` bytes from `a` on hold the low bytes of `v`, and every other byte is as before. -/
def StoresBytes (m m' : Memory) (a : Nat) (w : Width) (v : Word) : Prop :=
  (∀ k, k < widthBytes w → Memory.read m' (a + k) = v.extractLsb' (8 * k) 8) ∧
    ∀ b, (b < a ∨ a + widthBytes w ≤ b) → Memory.read m' b = Memory.read m b

/-- What writing the low `w` bytes of `v` at physical address `pa` does to memory and the devices (R79, R83). -/
def WritesAs (s : State) (pa : Word) (w : Width) (v : Word) (m : Memory) (d : Devices) : Prop :=
  (place s.params pa w = .storage → StoresBytes s.mem m pa.toNat w v ∧ d = s.dev) ∧
    (place s.params pa w = .port → (∀ a, Memory.read m a = Memory.read s.mem a) ∧ d = portWrite s.dev pa w v) ∧
    (place s.params pa w = .unmapped → (∀ a, Memory.read m a = Memory.read s.mem a) ∧ d = s.dev)

/-- Nothing outside the current core, memory and the devices changes. -/
def SameBeyondBus (s t : State) : Prop :=
  t.params = s.params ∧ t.done = s.done ∧ t.todo = s.todo ∧ t.hostSchedule = s.hostSchedule

/-! ## Completion -/

/-- What a step makes of a tick's outcome: the DMA step, but where the core is now STUCK (logs 10 and 11), and the end of the visit
follow a next state (R340). -/
def afterTick (r : Result) : Result :=
  match r with
  | .next t => .next (if t.core.stuck = true then endVisit t else endVisit (dmaStep t))
  | .fault f => .fault f
  | .refused q => .refused q

/-- The flags register holds these four. -/
def FlagsAre (t : State) (z n c v : Bool) : Prop :=
  flagZ t.core.flg = z ∧ flagN t.core.flg = n ∧ flagC t.core.flg = c ∧ flagV t.core.flg = v

/-- The instruction answers `r` in rD, writes Z and N from `r` and C and V as given, moves the pc on by 4 and does nothing else
(R141, R143). -/
def Computes (s : State) (i : Instr) (rD : Reg) (r : Word) (c v : Bool) : Prop :=
  ∃ t, exec i s = .next t ∧ HoldsResult t rD r ∧ FlagsAre t (r == 0#32) (r.getLsbD 31) c v ∧
    t.core.pc = s.core.pc + 4#32 ∧ Frame s t [rD] [.flg]

/-- The instruction moves `v` into rD, leaves the flags, moves the pc on by 4 and does nothing else (R152). -/
def MovesValue (s : State) (i : Instr) (rD : Reg) (v : Word) : Prop :=
  ∃ t, exec i s = .next t ∧ HoldsResult t rD v ∧ t.core.pc = s.core.pc + 4#32 ∧ Frame s t [rD] []

/-- The instruction goes to `target` and does nothing else. -/
def GoesTo (s : State) (i : Instr) (target : Word) : Prop :=
  ∃ t, exec i s = .next t ∧ t.core.pc = target ∧ Frame s t [] []

/-- The instruction branches by `disp` words where `taken`, and goes on otherwise (R27, R212). -/
def BranchesIf (s : State) (i : Instr) (taken : Prop) (disp : Word) : Prop :=
  (taken → GoesTo s i ((s.core.pc + disp * 4#32) &&& 0xFFFFFFFC#32)) ∧
    (¬ taken → GoesTo s i (s.core.pc + 4#32))

/-- The instruction loads the `w` bytes at `ea`, zero-extended, into rD, with a port's read side effect, moves the pc on by 4 and
does nothing else (R181, R184). -/
def LoadsFrom (s : State) (i : Instr) (rD : Reg) (w : Width) (ea : Word) : Prop :=
  ∀ pa, AccessAt s ea w .load pa → ∃ t v,
    exec i s = .next t ∧ ReadsAs s pa w v t.dev ∧ HoldsResult t rD v ∧ t.core.pc = s.core.pc + 4#32 ∧
      SameBeyondBus s t ∧ SameHidden s.core t.core ∧ OnlyWrites s.core t.core [rD] [] ∧
      ∀ a, Memory.read t.mem a = Memory.read s.mem a

/-- The instruction stores the low `w` bytes of `v` at `ea`, with a port's write effect, moves the pc on by 4 and does nothing
else (R181, R185). -/
def StoresTo (s : State) (i : Instr) (v : Word) (w : Width) (ea : Word) : Prop :=
  ∀ pa, AccessAt s ea w .store pa → ∃ t,
    exec i s = .next t ∧ WritesAs s pa w v t.mem t.dev ∧ t.core = { s.core with pc := s.core.pc + 4#32 } ∧
      SameBeyondBus s t

/-- The instruction pushes `v`: the word below the stack pointer becomes `v`, then r31 moves down to it, then the pc goes to
`target`; nothing else changes (R229, R231). -/
def PushesTo (s : State) (i : Instr) (v target : Word) : Prop :=
  ∀ pa, AccessAt s (s.reg spReg - 4#32) .word .store pa → ∃ t,
    exec i s = .next t ∧ WritesAs s pa .word v t.mem t.dev ∧ t.reg spReg = s.reg spReg - 4#32 ∧ t.core.pc = target ∧
      SameBeyondBus s t ∧ SameHidden s.core t.core ∧ OnlyWrites s.core t.core [spReg] []

/-- The data access an instruction makes: its effective address, width and intent (R64, R180, R182, R283). -/
def dataAccess (s : State) : Instr → Option (Word × Width × Intent)
  | .lw _ disp => some (pcAddress s disp, .word, .load)
  | .sw _ disp => some (pcAddress s disp, .word, .store)
  | .lwa _ rA disp => some (baseAddress s rA disp, .word, .load)
  | .swa _ rA disp => some (baseAddress s rA disp, .word, .store)
  | .lda _ rA disp => some (baseAddress s rA disp, .half, .load)
  | .sda _ rA disp => some (baseAddress s rA disp, .half, .store)
  | .lba _ rA disp => some (baseAddress s rA disp, .byte, .load)
  | .sba _ rA disp => some (baseAddress s rA disp, .byte, .store)
  | .fada _ rA _ disp => some (baseAddress s rA disp, .word, .rmw)
  | .push _ | .call _ => some (s.reg spReg - 4#32, .word, .store)
  | .pop _ | .ret => some (s.reg spReg, .word, .load)
  | .add _ _ _ | .sub _ _ _ | .and _ _ _ | .or _ _ _ | .xor _ _ _ | .lsl _ _ _ | .lsr _ _ _ | .rotr _ _ _ => none
  | .cmp _ _ | .mov _ _ | .movi _ _ | .moviU _ _ | .moviH _ _ | .adpc _ _ | .crmvW _ _ | .crmvR _ _ => none
  | .br _ | .bz _ | .bnz _ | .bs _ | .bns _ | .bc _ | .bnc _ | .bo _ | .bno _ => none
  | .bl _ | .bge _ | .ble _ | .bb _ | .bae _ | .bbe _ | .jmp _ | .nop => none
  | .ipi _ _ | .sys _ | .rfe | .rfi | .rft | .tlbw _ _ | .tlbr _ _ | .tlbc | .modeHalt | .modeSleep => none

/-- Instruction `i` reads register `x` in its rule's pseudocode (spec/40_alu.md to spec/43_system.md; R22, R282; log 28). -/
def Reads (s : State) (x : Source) : Instr → Prop
  | .add _ rA rB | .sub _ rA rB | .cmp rA rB | .and _ rA rB | .or _ rA rB | .xor _ rA rB => x = .reg rA ∨ x = .reg rB
  | .lsl _ rA rB | .lsr _ rA rB | .rotr _ rA rB => x = .reg rA ∨ x = .reg rB
  | .mov _ rA | .lwa _ rA _ | .lda _ rA _ | .lba _ rA _ => x = .reg rA
  | .moviH rD _ => x = .reg rD
  | .sw rS _ => x = .reg rS
  | .swa rS rA _ | .sda rS rA _ | .sba rS rA _ => x = .reg rA ∨ x = .reg rS
  | .fada _ rA rV disp =>
    x = .reg rA ∨ (x = .reg rV ∧ ∃ pa, AccessAt s (s.reg rA + disp) .word .rmw pa)
  | .push rS => x = .reg spReg ∨ x = .reg rS
  | .pop _ | .call _ | .ret => x = .reg spReg
  | .crmvW crD rS => s.core.mode ≠ .user ∧ crD.toNat ≤ 13 ∧ x = .reg rS
  | .crmvR _ crS => s.core.mode ≠ .user ∧ ∃ q, CReg.all[crS.toNat]? = some q ∧ x = .cr q
  | .ipi _ rT => s.core.mode ≠ .user ∧ (x = .reg rT ∨ (x = .cr .mbo ∧ (s.reg rT).toNat < s.nCores))
  | .rfe => s.core.mode ≠ .user ∧ x = .cr .epc
  | .rfi | .rft => s.core.mode ≠ .user ∧ (x = .cr .epc ∨ x = .cr .efg)
  | .tlbw rE rV => s.core.mode ≠ .user ∧ (x = .reg rE ∨ x = .reg rV)
  | .tlbr _ rV => s.core.mode ≠ .user ∧ x = .reg rV
  | .movi _ _ | .moviU _ _ | .adpc _ _ | .lw _ _ | .jmp _ | .nop | .sys _ | .tlbc | .modeHalt | .modeSleep => False
  | .br _ | .bz _ | .bnz _ | .bs _ | .bns _ | .bc _ | .bnc _ | .bo _ | .bno _ => False
  | .bl _ | .bge _ | .ble _ | .bb _ | .bae _ | .bbe _ => False

/-- The eleven privileged instructions (R311). -/
def IsPrivileged (i : Instr) : Prop :=
  (∃ crD rS, i = .crmvW crD rS) ∨ (∃ rD crS, i = .crmvR rD crS) ∨ (∃ rE rV, i = .tlbw rE rV) ∨
    (∃ rD rV, i = .tlbr rD rV) ∨ i = .tlbc ∨ i = .rfe ∨ i = .rfi ∨ i = .rft ∨ (∃ rD rT, i = .ipi rD rT) ∨
    i = .modeHalt ∨ i = .modeSleep

/-- The nine instructions that write all four flags (R32). -/
def IsAlu (i : Instr) : Prop :=
  ∃ rD rA rB, i = .add rD rA rB ∨ i = .sub rD rA rB ∨ i = .cmp rA rB ∨ i = .and rD rA rB ∨ i = .or rD rA rB ∨
    i = .xor rD rA rB ∨ i = .lsl rD rA rB ∨ i = .lsr rD rA rB ∨ i = .rotr rD rA rB

/-- The general registers an instruction writes beside what a trap saves: its destination and, for a stack instruction, r31. -/
def destinations : Instr → List Reg
  | .add rD _ _ | .sub rD _ _ | .and rD _ _ | .or rD _ _ | .xor rD _ _ | .lsl rD _ _ | .lsr rD _ _ | .rotr rD _ _ => [rD]
  | .mov rD _ | .movi rD _ | .moviU rD _ | .moviH rD _ | .adpc rD _ | .crmvR rD _ => [rD]
  | .lw rD _ | .lwa rD _ _ | .lda rD _ _ | .lba rD _ _ | .fada rD _ _ _ | .ipi rD _ | .tlbr rD _ => [rD]
  | .push _ | .call _ | .ret => [spReg]
  | .pop rD => [spReg, rD]
  | .cmp _ _ | .crmvW _ _ | .sw _ _ | .swa _ _ _ | .sda _ _ _ | .sba _ _ _ => []
  | .br _ | .bz _ | .bnz _ | .bs _ | .bns _ | .bc _ | .bnc _ | .bo _ | .bno _ => []
  | .bl _ | .bge _ | .ble _ | .bb _ | .bae _ | .bbe _ | .jmp _ | .nop => []
  | .sys _ | .rfe | .rfi | .rft | .tlbw _ _ | .tlbc | .modeHalt | .modeSleep => []

/-- A trap was entered from `s`. -/
def Trapped (s t : State) : Prop := ∃ v epcValue newMode, TrapTaken s t v epcValue newMode

/-- What other than a `crmv` to it may write a control register when `i` takes `s` to `t` (R32, R34 to R44, R75, R250). -/
def HasWriter (s t : State) (i : Instr) : CReg → Prop
  | .pid | .imr | .mbo | .cdv | .cid => False
  | .isr | .mbi => ∃ rD rT, i = .ipi rD rT
  | .epc | .efg => Trapped s t
  | .ksp => spReg ∈ destinations i ∧ s.core.mode = .kernel
  | .isp => spReg ∈ destinations i ∧ s.core.mode = .interrupt
  | .usp => spReg ∈ destinations i ∧ s.core.mode = .user
  | .tlb => ∃ ea w n, dataAccess s i = some (ea, w, n) ∧ AccessMisses s ea w n t.core.tlbAddr
  | .flg => IsAlu i ∨ i = .rfi ∨ i = .rft

/-! ## Ports in the rules' own words -/

/-- A value cut to the narrower of an access and its port (R83). -/
def cutTo (access port : Width) (v : Word) : Word :=
  BitVec.ofNat 32 (v.toNat % 2 ^ (8 * min (widthBytes access) (widthBytes port)))

/-- A read of the port of width `p` at `a`, at every access width, answers `v` cut to it and leaves the devices as `e`. -/
def PortAnswers (d : Devices) (a : Word) (p : Width) (v : Word) (e : Devices) : Prop :=
  ∀ w, portRead d a w = (cutTo w p v, e)

/-- A write to the port of width `p` at `a`, at every access width, does `f` of the value cut to it. -/
def PortTakes (d : Devices) (a : Word) (p : Width) (f : Word → Devices) : Prop :=
  ∀ w v, portWrite d a w v = f (cutTo w p v)

/-- The PS/2, UART and PIT ports (R320, R322 to R324). -/
def QueueAndTimerPorts (d : Devices) : Prop :=
  (∀ e q, d.ps2Queue = e :: q → PortAnswers d 0x07FE5800#32 .half (e.zeroExtend 32) { d with ps2Queue := q }) ∧
    (d.ps2Queue = [] → PortAnswers d 0x07FE5800#32 .half 0#32 d) ∧ PortTakes d 0x07FE5800#32 .half (fun _ => d) ∧
    PortAnswers d 0x07FE5802#32 .byte 0#32 d ∧
    PortTakes d 0x07FE5802#32 .byte (fun v => { d with uartOut := d.uartOut ++ [v.extractLsb' 0 8] }) ∧
    (∀ b q, d.uartRx = b :: q → PortAnswers d 0x07FE5803#32 .byte (b.zeroExtend 32) { d with uartRx := q }) ∧
    (d.uartRx = [] → PortAnswers d 0x07FE5803#32 .byte 0#32 d) ∧ PortTakes d 0x07FE5803#32 .byte (fun _ => d) ∧
    PortAnswers d 0x07FE5804#32 .word d.pitPeriod d ∧
    PortTakes d 0x07FE5804#32 .word (fun v => { d with pitPeriod := v, pitCount := 0 })

/-- The first of a slot's five registers (R328). -/
def slotBase : SlotId → Word
  | .sd0 => 0x07FE5810#32
  | .sd1 => 0x07FE5908#32

/-- A slot's registers but for the commands of CTRL, which `SdCommandLatchesTheTransfer` states (R328). -/
def SlotPorts (d : Devices) (i : SlotId) : Prop :=
  PortAnswers d (slotBase i) .word (d.slot i).memAddr d ∧
    PortTakes d (slotBase i) .word (fun v => d.setSlot i { d.slot i with memAddr := v }) ∧
    PortAnswers d (slotBase i + 4#32) .word (d.slot i).sdBlock d ∧
    PortTakes d (slotBase i + 4#32) .word (fun v => d.setSlot i { d.slot i with sdBlock := v }) ∧
    PortAnswers d (slotBase i + 8#32) .word (d.slot i).len d ∧
    PortTakes d (slotBase i + 8#32) .word (fun v => d.setSlot i { d.slot i with len := v }) ∧
    PortAnswers d (slotBase i + 12#32) .word (d.slot i).ctrl d ∧
    PortAnswers d (slotBase i + 16#32) .word (if (d.slot i).busy = true then 1#32 else 0#32) d ∧
    PortTakes d (slotBase i + 16#32) .word (fun _ => d)

/-- The VGA registers (R326): five hold what was last written, VGA_STATUS answers a draw, VGA_FRAME the frame count. -/
def VgaPorts (d : Devices) : Prop :=
  PortAnswers d 0x07FE5B40#32 .half (d.vgaHscroll.zeroExtend 32) d ∧
    PortTakes d 0x07FE5B40#32 .half (fun v => { d with vgaHscroll := v.extractLsb' 0 16 }) ∧
    PortAnswers d 0x07FE5B42#32 .half (d.vgaVscroll.zeroExtend 32) d ∧
    PortTakes d 0x07FE5B42#32 .half (fun v => { d with vgaVscroll := v.extractLsb' 0 16 }) ∧
    PortAnswers d 0x07FE5B44#32 .half (d.vgaMode.zeroExtend 32) d ∧
    PortTakes d 0x07FE5B44#32 .half (fun v => { d with vgaMode := v.extractLsb' 0 16 }) ∧
    PortAnswers d 0x07FE5B46#32 .half (d.vgaScale.zeroExtend 32) d ∧
    PortTakes d 0x07FE5B46#32 .half (fun v => { d with vgaScale := v.extractLsb' 0 16 }) ∧
    (∃ x : Half, PortAnswers d 0x07FE5B48#32 .half (x.zeroExtend 32) { d with vgaDraws := d.vgaDraws + 1 }) ∧
    PortTakes d 0x07FE5B48#32 .half (fun _ => d) ∧
    PortAnswers d 0x07FE5B4A#32 .half (d.vgaFrame.zeroExtend 32) d ∧ PortTakes d 0x07FE5B4A#32 .half (fun _ => d) ∧
    PortAnswers d 0x07FE5B4C#32 .half (d.vgaClkdiv.zeroExtend 32) d ∧
    PortTakes d 0x07FE5B4C#32 .half (fun v => { d with vgaClkdiv := v.extractLsb' 0 16 })

/-- The addresses at which a port starts (R82). -/
def portStarts : List Nat :=
  [0x07FE5800, 0x07FE5802, 0x07FE5803, 0x07FE5804, 0x07FE5810, 0x07FE5814, 0x07FE5818, 0x07FE581C, 0x07FE5820,
   0x07FE5908, 0x07FE590C, 0x07FE5910, 0x07FE5914, 0x07FE5918, 0x07FE5B40, 0x07FE5B42, 0x07FE5B44, 0x07FE5B46,
   0x07FE5B48, 0x07FE5B4A, 0x07FE5B4C]

/-! ## The DMA engine in the rules' own words -/

/-- A slot after a quantum (R330): the cursors are 4 further, and BUSY clears when no byte is left. -/
def movedOn (d : SdSlot) : SdSlot :=
  { d with cur := d.cur + 4#32, off := d.off + 4#32, rem := d.rem - 4#32, busy := !(d.rem - 4#32 == 0#32) }

/-- What one DmaStep does for slot `i`, which takes `s` to `t`; `due` says whether it moves a quantum (R330). The slot that moves on
is the one the quantum's own access leaves (log 16), and the image of a write is the old one with the word in it. -/
def SlotStep (due : Bool) (s t : State) (i : SlotId) : Prop :=
  let d := s.dev.slot i
  (d.busy = false → t = s) ∧
    (d.busy = true → d.kind = .init → t = s.setSlot i { d with busy := false }) ∧
    (d.busy = true → d.kind ≠ .init → due = false → t = s) ∧
    (d.busy = true → d.kind ≠ .init → due = true → d.rem = 0#32 → t = s.setSlot i { d with busy := false }) ∧
    (d.busy = true → due = true → d.rem ≠ 0#32 → d.kind = .read → ∃ w e,
      (∀ k, k < 4 → w.extractLsb' (8 * k) 8 = d.image.readByte (d.off.toNat + k)) ∧ WritesAs s d.cur .word w t.mem e ∧
        t = { s with mem := t.mem, dev := e.setSlot i (movedOn (e.slot i)) }) ∧
    (d.busy = true → due = true → d.rem ≠ 0#32 → d.kind ≠ .read → d.kind ≠ .init → ∃ w e image,
      ReadsAs s d.cur .word w e ∧ image.size = d.image.size ∧
        (∀ b, image.readByte b =
          if d.off.toNat ≤ b ∧ b < d.off.toNat + 4 ∧ b < d.image.size then w.extractLsb' (8 * (b - d.off.toNat)) 8
          else d.image.readByte b) ∧
        t = { s with dev := e.setSlot i { movedOn (e.slot i) with image := image } })

/-! ## The TLB in the rules' own words -/

/-- Entry `e` matches `va` under `pid` (R69). -/
def EntryHits (pid : BitVec 8) (va : Word) (e : TlbEntry) : Prop :=
  e.valid = true ∧ e.vpn = va.extractLsb' 12 20 ∧ (e.pid = pid ∨ e.flags.getLsbD 4 = true)

/-- Slot `k` is the one a lookup answers: it matches and no lower slot does (R69). -/
def IsMatch (c : CoreState) (va : Word) (k : Fin 16) : Prop :=
  EntryHits c.pid va c.tlb[k] ∧ ∀ j, j < k → ¬ EntryHits c.pid va c.tlb[j]

/-- The permission of R70. -/
def PermissionHolds (m : Mode) (e : TlbEntry) (i : Intent) : Prop :=
  (i = .fetch → e.flags.getLsbD 2 = true) ∧ (i = .load → e.flags.getLsbD 0 = true) ∧
    (i = .store → e.flags.getLsbD 1 = true) ∧
    (i = .rmw → e.flags.getLsbD 0 = true ∧ e.flags.getLsbD 1 = true) ∧ (m = .user → e.flags.getLsbD 3 = true)

/-- Entry `e` is in the set C of an insertion of `new` (R247). -/
def EntryConflicts (new e : TlbEntry) : Prop :=
  e.valid = true ∧ e.vpn = new.vpn ∧ (e.pid = new.pid ∨ e.flags.getLsbD 4 = true ∨ new.flags.getLsbD 4 = true)

/-- The bits a control register holds (R34's table). -/
def heldBits : CReg → Word
  | .pid => 0xFF#32
  | .imr => 0x8000FFFF#32
  | .isr => 0xFFFF#32
  | .efg | .flg => 0xF#32
  | .epc | .ksp | .isp | .usp | .tlb | .mbi | .mbo | .cdv | .cid => 0xFFFFFFFF#32

/-- What a register number names (R20 to R22), and what each control register's name reads: its own field, zero in the bits it does
not hold (R34). -/
def RegistersReadTheirFields (c : CoreState) : Prop :=
  (c.reg 0#5 = 0#32 ∧ (∀ k : Fin 30, c.reg (BitVec.ofNat 5 (k.val + 1)) = c.gpr[k]) ∧
    (c.mode = .user → c.reg 31#5 = c.usp) ∧ (c.mode = .kernel → c.reg 31#5 = c.ksp) ∧
    (c.mode = .interrupt → c.reg 31#5 = c.isp)) ∧
  c.readCr .pid = c.pid.zeroExtend 32 ∧ c.readCr .imr = c.imr ∧ c.readCr .isr = c.isr.zeroExtend 32 ∧
    c.readCr .epc = c.epc ∧ c.readCr .efg = c.efg.zeroExtend 32 ∧ c.readCr .ksp = c.ksp ∧ c.readCr .isp = c.isp ∧
    c.readCr .usp = c.usp ∧ c.readCr .tlb = c.tlbAddr ∧ c.readCr .mbi = c.mbi ∧ c.readCr .mbo = c.mbo ∧
    c.readCr .cdv = c.cdv ∧ c.readCr .cid = c.cid ∧ c.readCr .flg = c.flg.zeroExtend 32

/-! ## The loaded images -/

/-- Memory holds the boot image: word k at physical 4k, little-endian, but in the device regions, and 0 everywhere else (R80, R81,
R380, R381; log 29). -/
def HoldsImage (m : Memory) (image : List Word) : Prop :=
  (∀ k w, image[k]? = some w → ∀ j, j < 4 →
    (¬ InVga (4 * k + j) 1 → ¬ InPorts (4 * k + j) 1 → Memory.read m (4 * k + j) = w.extractLsb' (8 * j) 8) ∧
    (InVga (4 * k + j) 1 ∨ InPorts (4 * k + j) 1 → Memory.read m (4 * k + j) = 0#8)) ∧
  ∀ a, 4 * image.length ≤ a → Memory.read m a = 0#8

/-- An SD image is the raw byte stream it was loaded from (R331). -/
def IsRaw (m : SdImage) (raw : List Byte) : Prop := m.size = raw.length ∧ ∀ b, m.readByte b = raw.getD b 0#8

/-! ## The invariant of a run -/

/-- A register that nothing has written since reset holds its reset value, 0 (R380). -/
def CoreState.unwrittenHoldReset (c : CoreState) : Prop :=
  (∀ x, c.targetWritten x = false → c.readTarget x = 0#32) ∧ ∀ q, c.crWritten q = false → c.readCr q = 0#32

/-- `pc[1:0]` is 0 (R27), the unheld bits of imr are 0 (R36), and an unwritten register holds its reset value. -/
def CoreState.wellKept (c : CoreState) : Prop :=
  c.pc &&& 3#32 = 0#32 ∧ c.imr &&& ~~~imrMask = 0#32 ∧ c.unwrittenHoldReset

/-- The image's bytes are in canonical form; the cursors are multiples of 4 (R329); a busy slot is doing something. -/
def SdSlot.wellKept (d : SdSlot) : Prop :=
  Memory.wf d.image.bytes = true ∧ d.cur &&& 3#32 = 0#32 ∧ d.off &&& 3#32 = 0#32 ∧ d.rem &&& 3#32 = 0#32 ∧
    (d.busy = true → d.kind ≠ .none)

/-- Core k's cid is k (R43). -/
def State.cidsNumbered (s : State) : Prop := s.cores.map (·.cid) = (List.range s.nCores).map (BitVec.ofNat 32)

/-- What holds in every state of a run from reset. -/
def State.Inv (s : State) : Prop :=
  Memory.wf s.mem = true ∧ s.dev.sd0.wellKept ∧ s.dev.sd1.wellKept ∧ (∀ c ∈ s.cores, c.wellKept) ∧ s.cidsNumbered

end Sys2Proof.Machine
end

