-- ==== Sys2Proof/Certificates/Slice0/Obligations.lean ====
section
/-! DEFINITION. The statements for the provers, from the numbered rules of spec/. `SameOutside`, `Frame`, `TrapFrame` and the other
terms are in Sys2Proof/Safety.lean. -/

open Sys2Proof Sys2Proof.Machine

/-! ## Encoding (spec/30_encoding.md) -/

/-- Decoding an encoded well-formed instruction gives it back, every operand at every value. The layout is the spec's own
decision D1 (log 1). -/
def Obligations.DecodeEncodeRoundTrip : Prop :=
  ∀ i : Instr, i.wellFormed = true → decode (encode i) = .ok i

/-- Each word has one meaning: a word that decodes is the encoding of the instruction it decodes to, and that instruction is well
formed (log 1). -/
def Obligations.DecodedWordIsItsEncoding : Prop :=
  ∀ (w : Word) (i : Instr), decode w = .ok i → i.wellFormed = true ∧ encode i = w

/-- The algorithm of R115: a word decodes exactly when a row of the opcode table covers it and, for crmv, its cr-index is 0..13;
every row that covers a decoded word has that instruction's mnemonic; and its operands are the word's fields (R111, R113), its
immediates assembled from theirs (R112; log 1). -/
def Obligations.DecodeFollowsOpcodeTable : Prop :=
  ∀ w : Word,
    ((∃ i, decode w = .ok i) ↔
      ∃ row ∈ opcodeTable, w &&& row.mask = row.pattern ∧
        (row.mnemonic = "crmv.w" → (w.extractLsb' 21 5).toNat ≤ 13) ∧
        (row.mnemonic = "crmv.r" → (w.extractLsb' 16 5).toNat ≤ 13)) ∧
    ∀ i, decode w = .ok i →
      (∀ row ∈ opcodeTable, w &&& row.mask = row.pattern → row.mnemonic = i.mnemonic) ∧ OperandsAre w i

/-- Words written out in spec/40_alu.md to spec/43_system.md beside their instruction (log 1). -/
def Obligations.SampleWordsDecode : Prop :=
  decode 0x04611000#32 = .ok (.add 3#5 1#5 2#5) ∧ decode 0x2C20FFFF#32 = .ok (.movi 1#5 0xFFFFFFFF#32) ∧
    decode 0x2C2207FE#32 = .ok (.moviH 1#5 0x07FE#16) ∧ decode 0x30400020#32 = .ok (.adpc 2#5 0x20#32) ∧
    decode 0x445FFFF8#32 = .ok (.sw 2#5 0xFFFFFFF8#32) ∧ decode 0x4C22FFFC#32 = .ok (.swa 1#5 2#5 0xFFFFFFFC#32) ∧
    decode 0x60221800#32 = .ok (.fada 1#5 2#5 3#5 0#32) ∧ decode 0xC4000040#32 = .ok (.call 0x40#32) ∧
    decode 0x34210000#32 = .ok (.crmvW 1#5 1#5) ∧ decode 0xE0000001#32 = .ok (.sys 1#8) ∧
    decode 0x00000000#32 = .error .unassignedOpcode

/-! ## The tick and the scheduler (spec/60_exceptions.md) -/

/-- Where the word at pc decodes to `i` under the layout in use, the step is `exec i` at the state the visit begins with, then the
DMA step (but where `i` leaves its core STUCK: logs 10 and 11, DESIGN CHOICE) and the end of the visit; where `i` reads a register that nothing has written, under RESET_UNWRITTEN = FAULT, it is the
model fault (R380, spec decision D16; which registers an instruction reads is the model's reading, log 28). The layout is the
parameter ENCODING (R6, D1); `step` is the machine under the spec's own. Clause 2 is for a fetch from anywhere (a port's read has its
side effect, spec decision D43, log 25), clause 3 for the four bytes of an instruction in storage, where the fetch changes nothing.
That a step is one visit is log 6. -/
def Obligations.StepRunsDecodedInstruction : Prop :=
  (∀ s : State, step s = machineStep decode s) ∧
  ∀ (encoding : Encoding) (s : State) (i : Instr) (pa : Word),
    s.core.run = .running → s.core.stuck = false → deliverable s.core = none →
    translateVa s.core s.core.pc .fetch = some pa →
    (encoding (physRead (beginVisit s) pa .word).1 = .ok i →
      (Readable s i → machineStep encoding s = afterTick (exec i (physRead (beginVisit s) pa .word).2)) ∧
      (¬ Readable s i → machineStep encoding s = .fault .unwrittenRegister)) ∧
    (place s.params pa .word = .storage →
      decodeBytes [Memory.read s.mem pa.toNat, Memory.read s.mem (pa.toNat + 1), Memory.read s.mem (pa.toNat + 2),
        Memory.read s.mem (pa.toNat + 3)] = .ok (i, []) →
      Readable s i → step s = afterTick (exec i (beginVisit s)))

/-- An illegal word enters vector 0x80 in every mode (R281); a fetch that does not translate enters 0x82 or 0x83 with the pc in
`tlb` (R75, R283, R284). Nothing else of the instruction happens (R286). The frame of the illegal word starts after the fetch's read:
the effect of a fetch from a port stands (spec decision D43, log 25); 0x83 for a miss in interrupt mode is the spec's decision D25 (log
22). Where the trap cannot be entered the core is STUCK (R297, spec decision D21), and what the fetch has done stands (log 10). -/
def Obligations.FaultingFetchTraps : Prop :=
  ∀ s : State, s.core.run = .running → s.core.stuck = false → deliverable s.core = none →
    (∀ pa e, translateVa s.core s.core.pc .fetch = some pa → decode (physRead (beginVisit s) pa .word).1 = .error e →
      (TrapsEnter s → ∃ t, step s = afterTick (.next t) ∧
        TrapTaken (physRead (beginVisit s) pa .word).2 t 0x80#8 s.core.pc .kernel ∧
        TrapFrame (physRead (beginVisit s) pa .word).2 t []) ∧
      (¬ TrapsEnter s → step s = afterTick (.next (stuckState (physRead (beginVisit s) pa .word).2)))) ∧
    (translateVa s.core s.core.pc .fetch = none →
      (TrapsEnter s → ∃ t, step s = afterTick (.next t) ∧
        TrapTaken (beginVisit s) t (if s.core.mode = .user then 0x82#8 else 0x83#8) s.core.pc .kernel ∧
        t.core.tlbAddr = s.core.pc ∧ TrapFrame (beginVisit s) t [.tlb]) ∧
      (¬ TrapsEnter s → step s = afterTick (.next (stuckState (tlbAddressState (beginVisit s) s.core.pc)))))

/-- The lowest bit set in both isr and imr, with imr[31] set and outside interrupt mode, is an interrupt that takes the tick of a
core that is neither halted nor STUCK, whatever stands at its pc, and wakes it; with no such bit nothing is delivered (R288, R290, R301 to R303;
spec decisions D17, D18 and D42, log 21). -/
def Obligations.LowestPendingInterruptPreempts : Prop :=
  ∀ s : State,
    (∀ k, k < 16 → s.core.isr.getLsbD k = true → s.core.imr.getLsbD k = true →
      (∀ j, j < k → ¬ (s.core.isr.getLsbD j = true ∧ s.core.imr.getLsbD j = true)) →
      s.core.imr.getLsbD 31 = true → s.core.mode ≠ .interrupt → s.core.run ≠ .halted → s.core.stuck = false →
      ∃ t, step s = afterTick (.next t) ∧
        TrapTaken (beginVisit s) t (0xF0#8 + BitVec.ofNat 8 k) s.core.pc .interrupt ∧ t.core.run = .running ∧
        TrapFrame ((beginVisit s).setRun .running) t []) ∧
    (s.core.imr.getLsbD 31 = false ∨ s.core.mode = .interrupt ∨
        (∀ k, k < 16 → ¬ (s.core.isr.getLsbD k = true ∧ s.core.imr.getLsbD k = true)) →
      deliverable s.core = none)

/-- The visits in which no instruction runs. The run is over exactly when no core of the pass has been visited and every core is
halted (R342, log 7). A halted core has no tick and no DMA step (R287, R340) and nor has a STUCK core, which has no further step
(R297, spec decision D15); that such a visit is a step of its own is log 6, a DESIGN CHOICE. A sleeping core's visit is a DMA step.
After any other tick comes the DMA step, but for the tick that leaves its core STUCK (logs 10 and 11, DESIGN CHOICE). That a run which
is over stays as it is is the model's choice (log 7). -/
def Obligations.VisitsThatExecuteNothing : Prop :=
  ∀ s : State,
    (s.runOver = true ↔ s.done = [] ∧ ∀ c ∈ s.cores, c.run = .halted) ∧
    (s.runOver = true → step s = .next s) ∧
    (s.runOver = false → s.core.run = .halted ∨ s.core.stuck = true → step s = .next (endVisit (beginVisit s))) ∧
    (s.core.run = .sleeping → s.core.stuck = false → deliverable s.core = none →
      step s = .next (endVisit (dmaStep (beginVisit s)))) ∧
    ∀ t, s.core.run ≠ .halted → s.core.stuck = false → coreTick decode (beginVisit s) = .next t →
      (t.core.stuck = true → step s = .next (endVisit t)) ∧
      (t.core.stuck = false → step s = .next (endVisit (dmaStep t)))

/-- A halted core "is permanently inert" (R251, spec decision D44, log 27), and a STUCK core "has no further step" (R297, spec
decisions D15 and D21): no step changes anything of it but isr and mbi, which the sampler and other cores may write. -/
def Obligations.HaltedCoreIsInert : Prop :=
  ∀ (s t : State) (k : Nat) (c : CoreState), step s = .next t → s.cores[k]? = some c →
    c.run = .halted ∨ c.stuck = true →
    ∃ d : CoreState, t.cores[k]? = some d ∧
      d = { c with isr := d.isr, mbi := d.mbi, written := { c.written with mbi := d.written.mbi } }

/-- The next core's turn follows a core's, in ascending cid, and the first core's after the last (R340); the cores keep their order,
their number and their cids. That a step is one core's visit is log 6, a DESIGN CHOICE; cid never changing is the spec's decision D4
(log 20), the fixed length of the SD images D46 (log 26). The parameters never change. -/
def Obligations.CoresTakeTurns : Prop :=
  ∀ s t : State, s.runOver = false → step s = .next t →
    t.done.length = (if s.todo = [] then 0 else s.done.length + 1) ∧ t.nCores = s.nCores ∧
      t.cores.map (·.cid) = s.cores.map (·.cid) ∧ t.params = s.params ∧
      t.dev.sd0.image.size = s.dev.sd0.image.size ∧ t.dev.sd1.image.size = s.dev.sd1.image.size

/-- Every instruction answers a next state, in every state, and no step is refused. That a nested trap and a refused alignment are
next states too, in which the core alone is STUCK, is the model's choice (logs 10 and 11; R65's words are "the model refuses the
instruction (no step)"). Every step answers one under RESET_UNWRITTEN = ZERO, and under FAULT it stops only where the instruction
fetched reads a register that nothing has written (R380, spec decision D16); which registers that are is said for every instruction,
in the terms of its rule (`Reads`, log 28). Under ALIGN_DOWN and without NESTED_TRAP_FATAL
no core becomes STUCK (R65, R297; spec decisions D15 and D21, log 4). -/
def Obligations.DefaultMachineNeverStops : Prop :=
  (∀ (i : Instr) (s : State), ∃ t, exec i s = .next t) ∧
  (∀ (i : Instr) (s : State) (x : Source), x ∈ sources s i ↔ Reads s x i) ∧
  ∀ s : State,
    (s.params.resetUnwritten = .zero → ∃ t, step s = .next t) ∧
    (∀ f, step s = .fault f → f = .unwrittenRegister ∧ s.params.resetUnwritten = .fault ∧
      ∃ pa i, translateVa s.core s.core.pc .fetch = some pa ∧
        decode (physRead (beginVisit s) pa .word).1 = .ok i ∧ ¬ Readable s i) ∧
    (∀ r, step s ≠ .refused r) ∧
    ∀ t, step s = .next t → s.params.misalign = .alignDown → s.params.nestedTrapFatal = false →
      t.cores.map (·.stuck) = s.cores.map (·.stuck)

/-! ## Traps and modes (spec/60_exceptions.md) -/

/-- Trap entry (R292), and the STUCK core that does not enter the trap (R297, spec decision D21). That a trap is an interrupt exactly
when it enters interrupt mode is read from R291 (log 10); the low two bits of the vector are cleared by the spec's decision D14 (log
27), here and wherever `TrapTaken` stands. -/
def Obligations.TrapEntryEffect : Prop :=
  ∀ (s : State) (v : BitVec 8) (epcValue : Word) (newMode : Mode),
    (s.params.nestedTrapFatal = true ∧ s.core.trapLive = true ∧ newMode ≠ .interrupt →
      enterTrap s v epcValue newMode = .next (stuckState s)) ∧
    (¬ (s.params.nestedTrapFatal = true ∧ s.core.trapLive = true ∧ newMode ≠ .interrupt) →
      ∃ t, enterTrap s v epcValue newMode = .next t ∧ t.core.epc = epcValue ∧ t.core.efg = s.core.flg ∧
        t.core.modePrev = s.core.mode ∧ t.core.mode = newMode ∧ t.core.trapLive = true ∧
        t.core.pc = (physRead s (v.zeroExtend 32 * 4#32) .word).1 &&& 0xFFFFFFFC#32 ∧ TrapFrame s t [])

/-- IVT slot N is the little-endian word at physical 4*N, whatever the TLB and the mode, and 0 where RAM does not hold it whole
(R289). -/
def Obligations.IvtSlotIsPhysicalWord : Prop :=
  ∀ (s : State) (v : BitVec 8),
    (4 * v.toNat + 4 ≤ s.params.ramSize → BytesAre s.mem (4 * v.toNat) .word (ivtEntry s v)) ∧
    (s.params.ramSize < 4 * v.toNat + 4 → ivtEntry s v = 0#32)

/-- `sys imm8` enters kernel mode through slot imm8 from every mode, with epc = pc + 4 (R243, spec decision D20); under
NESTED_TRAP_FATAL it is STUCK while a trap is live (R297, spec decision D21). -/
def Obligations.SysEntersKernel : Prop :=
  ∀ (s : State) (imm8 : BitVec 8),
    (TrapsEnter s → ∃ t, exec (.sys imm8) s = .next t ∧ TrapTaken s t imm8 (s.core.pc + 4#32) .kernel ∧ TrapFrame s t []) ∧
    (¬ TrapsEnter s → exec (.sys imm8) s = .next (stuckState s))

/-- EXC_PRIV (R282): a privileged instruction in user mode enters vector 0x81 with epc = pc, and mutates nothing else. Where the trap
cannot be entered the core is STUCK (R297, spec decision D21). -/
def Obligations.PrivilegedInUserRaisesExcPriv : Prop :=
  ∀ (s : State) (i : Instr), IsPrivileged i → i.wellFormed = true → s.core.mode = .user →
    (TrapsEnter s → ∃ t, exec i s = .next t ∧ TrapTaken s t 0x81#8 s.core.pc .kernel ∧ TrapFrame s t []) ∧
    (¬ TrapsEnter s → exec i s = .next (stuckState s))

/-- `rfe` (R244): pc from epc with the low two bits cleared (spec decision D14, log 27), user mode, trap_live cleared, and nothing else
changes. -/
def Obligations.RfeReturnsToUser : Prop :=
  ∀ s : State, s.core.mode ≠ .user →
    exec .rfe s =
      .next { s with core := { s.core with pc := s.core.epc &&& 0xFFFFFFFC#32, mode := .user, trapLive := false } }

/-- `rfi` (R245): pc from epc with the low two bits cleared (spec decision D14, log 27), flags from efg, mode from mode_prev, trap_live
cleared, and nothing else changes. -/
def Obligations.RfiRestoresModeAndFlags : Prop :=
  ∀ s : State, s.core.mode ≠ .user →
    exec .rfi s =
      .next { s with core := { s.core with
        pc := s.core.epc &&& 0xFFFFFFFC#32, flg := s.core.efg, mode := s.core.modePrev, trapLive := false } }

/-- `rft` (R246): pc from epc, flags from efg, kernel mode (spec decision D22), trap_live cleared, and nothing else changes. -/
def Obligations.RftReturnsToKernel : Prop :=
  ∀ s : State, s.core.mode ≠ .user →
    exec .rft s =
      .next { s with core := { s.core with
        pc := s.core.epc &&& 0xFFFFFFFC#32, flg := s.core.efg, mode := .kernel, trapLive := false } }

/-- User mode is left only by a trap (R312): an instruction of user mode stays there, or enters kernel mode through slot 0x80,
0x81 or 0x82 with epc = pc, or is `sys` with epc = pc + 4. -/
def Obligations.UserModeIsLeftOnlyByTrap : Prop :=
  ∀ (i : Instr) (s t : State), exec i s = .next t → s.core.mode = .user →
    t.core.mode = .user ∨
      ∃ v, TrapTaken s t v t.core.epc .kernel ∧
        ((v ∈ [0x80#8, 0x81#8, 0x82#8] ∧ t.core.epc = s.core.pc) ∨ (i = .sys v ∧ t.core.epc = s.core.pc + 4#32))

/-- An instruction that user mode completes without a trap, its core not STUCK, changes no control register but usp and flg, no hidden
state of its core, and no other core (R240, R310, R311). -/
def Obligations.UserCannotChangePrivilegedState : Prop :=
  ∀ (i : Instr) (s t : State), exec i s = .next t → s.core.mode = .user → t.core.mode = .user →
    t.core.stuck = false →
    (∀ q : CReg, q ≠ .usp → q ≠ .flg →
      t.core.readCr q = s.core.readCr q ∧ t.core.crWritten q = s.core.crWritten q) ∧
      SameHidden s.core t.core ∧ t.done = s.done ∧ t.todo = s.todo

/-- What an instruction can write. Each control register has only `crmv` to it and its own writers: for flg the ALU instructions, rfi
and rft (R32); for isr and mbi `ipi` (R250); for epc and efg a trap (R38); for `tlb` a miss (R75); for usp, ksp and isp an instruction
that writes r31 in their mode (R21, R39); cid has none, by the spec's decision D4 (log 20). A general register has the instructions
that name it as their destination. mode_prev changes by a trap only, mode and trap_live by a trap and the returns (R28, R29, R48), the
TLB by `tlbw` and `tlbc` (R89), the run state by halt and sleep (R30), other cores by `ipi`, STUCK by R297 and by REFUSE (spec
decisions D15 and D21), and memory and the devices by a data access (R182). -/
def Obligations.StateHasOnlyItsWriters : Prop :=
  ∀ (i : Instr) (s t : State), exec i s = .next t →
    (∀ q : CReg, ¬ HasWriter s t i q →
      (q = .cid ∨ ∀ k rS, i = .crmvW k rS → CReg.all[k.toNat]? ≠ some q) →
      t.core.readCr q = s.core.readCr q ∧ t.core.crWritten q = s.core.crWritten q) ∧
    (∀ k : Fin 30, BitVec.ofNat 5 (k.val + 1) ∉ destinations i →
      t.core.gpr[k] = s.core.gpr[k] ∧ t.core.written.gpr[k] = s.core.written.gpr[k]) ∧
    (¬ Trapped s t → t.core.modePrev = s.core.modePrev ∧
      (i ≠ .rfe → i ≠ .rfi → i ≠ .rft → t.core.mode = s.core.mode ∧ t.core.trapLive = s.core.trapLive)) ∧
    ((∀ rE rV, i ≠ .tlbw rE rV) → i ≠ .tlbc → t.core.tlb = s.core.tlb ∧ t.core.tlbNext = s.core.tlbNext) ∧
    (i ≠ .modeHalt → i ≠ .modeSleep → t.core.run = s.core.run) ∧
    (t.core.stuck ≠ s.core.stuck → t.core.stuck = true ∧ (s.params.misalign = .refuse ∨ ¬ TrapsEnter s)) ∧
    ((∀ rD rT, i ≠ .ipi rD rT) → t.done = s.done ∧ t.todo = s.todo) ∧
    t.params = s.params ∧ t.hostSchedule = s.hostSchedule ∧
    (dataAccess s i = none → t.dev = s.dev ∧ ∀ a, Memory.read t.mem a = Memory.read s.mem a)

/-! ## Arithmetic, logic and shifts (spec/40_alu.md) -/

/-- `add` (R143). -/
def Obligations.AddResultAndFlags : Prop :=
  ∀ (s : State) (rD rA rB : Reg),
    Computes s (.add rD rA rB) rD (s.reg rA + s.reg rB) (decide ((s.reg rA).toNat + (s.reg rB).toNat ≥ 2 ^ 32))
      ((s.reg rA).getLsbD 31 == (s.reg rB).getLsbD 31 &&
        (s.reg rA + s.reg rB).getLsbD 31 != (s.reg rA).getLsbD 31)

/-- `sub` (R144). -/
def Obligations.SubResultAndFlags : Prop :=
  ∀ (s : State) (rD rA rB : Reg),
    Computes s (.sub rD rA rB) rD (s.reg rA - s.reg rB) (decide ((s.reg rA).toNat < (s.reg rB).toNat))
      ((s.reg rA).getLsbD 31 != (s.reg rB).getLsbD 31 &&
        (s.reg rA - s.reg rB).getLsbD 31 != (s.reg rA).getLsbD 31)

/-- `cmp` (R145): the flags of `sub`, and no register written. -/
def Obligations.CmpFlags : Prop :=
  ∀ (s : State) (rA rB : Reg),
    ∃ t, exec (.cmp rA rB) s = .next t ∧
      FlagsAre t (s.reg rA - s.reg rB == 0#32) ((s.reg rA - s.reg rB).getLsbD 31)
        (decide ((s.reg rA).toNat < (s.reg rB).toNat))
        ((s.reg rA).getLsbD 31 != (s.reg rB).getLsbD 31 &&
          (s.reg rA - s.reg rB).getLsbD 31 != (s.reg rA).getLsbD 31) ∧
      t.core.pc = s.core.pc + 4#32 ∧ Frame s t [] [.flg]

/-- `and`, `or`, `xor` (R146 to R148); C = 0 and V = 0 is the spec's decision D6 (log 19). -/
def Obligations.LogicResultsAndFlags : Prop :=
  ∀ (s : State) (rD rA rB : Reg),
    Computes s (.and rD rA rB) rD (s.reg rA &&& s.reg rB) false false ∧
      Computes s (.or rD rA rB) rD (s.reg rA ||| s.reg rB) false false ∧
      Computes s (.xor rD rA rB) rD (s.reg rA ^^^ s.reg rB) false false

/-- `lsl`, `lsr`, `rotr` bit by bit (R149 to R151); the shift amount `x[rB][4:0]` and C = V = 0 are the spec's decisions D7 and D6
(log 19). -/
def Obligations.ShiftResultsBitByBit : Prop :=
  ∀ (s : State) (rD rA rB : Reg),
    (∃ r, Computes s (.lsl rD rA rB) rD r false false ∧ ∀ k, k < 32 →
      r.getLsbD k = (decide ((s.reg rB).toNat % 32 ≤ k) && (s.reg rA).getLsbD (k - (s.reg rB).toNat % 32))) ∧
    (∃ r, Computes s (.lsr rD rA rB) rD r false false ∧ ∀ k, k < 32 →
      r.getLsbD k = (s.reg rA).getLsbD (k + (s.reg rB).toNat % 32)) ∧
    (∃ r, Computes s (.rotr rD rA rB) rD r false false ∧ ∀ k, k < 32 →
      r.getLsbD k = (s.reg rA).getLsbD ((k + (s.reg rB).toNat % 32) % 32))

/-- C and V say exactly when the unsigned and the signed result of add and sub do not fit in 32 bits (R141, R142). -/
def Obligations.CarryAndOverflowAreExact : Prop :=
  ∀ (s : State) (rD rA rB : Reg),
    (∃ t, exec (.add rD rA rB) s = .next t ∧
      (flagC t.core.flg = true ↔ (s.reg rA).toNat + (s.reg rB).toNat ≠ (s.reg rA + s.reg rB).toNat) ∧
      (flagV t.core.flg = true ↔ (s.reg rA).toInt + (s.reg rB).toInt ≠ (s.reg rA + s.reg rB).toInt)) ∧
    (∃ t, exec (.sub rD rA rB) s = .next t ∧
      (flagC t.core.flg = true ↔ ((s.reg rA).toNat : Int) - (s.reg rB).toNat ≠ (s.reg rA - s.reg rB).toNat) ∧
      (flagV t.core.flg = true ↔ (s.reg rA).toInt - (s.reg rB).toInt ≠ (s.reg rA - s.reg rB).toInt))

/-- After `cmp rA, rB` the branches compare the two registers, signed and unsigned (R145, R211). -/
def Obligations.CmpDecidesTheBranches : Prop :=
  ∀ (s : State) (rA rB : Reg) (disp : Word),
    ∃ t, exec (.cmp rA rB) s = .next t ∧
      BranchesIf t (.bz disp) (s.reg rA = s.reg rB) disp ∧
      BranchesIf t (.bnz disp) (s.reg rA ≠ s.reg rB) disp ∧
      BranchesIf t (.bl disp) ((s.reg rA).toInt < (s.reg rB).toInt) disp ∧
      BranchesIf t (.bge disp) ((s.reg rB).toInt ≤ (s.reg rA).toInt) disp ∧
      BranchesIf t (.ble disp) ((s.reg rA).toInt ≤ (s.reg rB).toInt) disp ∧
      BranchesIf t (.bb disp) ((s.reg rA).toNat < (s.reg rB).toNat) disp ∧
      BranchesIf t (.bae disp) ((s.reg rB).toNat ≤ (s.reg rA).toNat) disp ∧
      BranchesIf t (.bbe disp) ((s.reg rA).toNat ≤ (s.reg rB).toNat) disp

/-! ## Moves (spec/40_alu.md)

An immediate `imm` or `disp` below is the 32-bit value that decoding assembles, whatever the layout; under the spec's, what R112 says,
as `DecodeFollowsOpcodeTable` states. -/

/-- `mov`, `movi`, `movi.u` (R152 to R154). That the forms of movi are three words of one opcode, `movi` sign-extending and `movi.u`
zero-extending, is the spec's decision D8, which R112 marks (log 1). -/
def Obligations.MovesWriteTheirValue : Prop :=
  ∀ (s : State) (rD rA : Reg) (imm : Word),
    MovesValue s (.mov rD rA) rD (s.reg rA) ∧ MovesValue s (.movi rD imm) rD imm ∧ MovesValue s (.moviU rD imm) rD imm

/-- `movi.h` (R155). That it writes the upper half and keeps the lower one is the spec's decision D8, which R112 marks (log 1). -/
def Obligations.MoviHKeepsTheLowerHalf : Prop :=
  ∀ (s : State) (rD : Reg) (imm16 : BitVec 16),
    MovesValue s (.moviH rD imm16) rD (imm16 ++ (s.reg rD).extractLsb' 0 16)

/-- `adpc` (R156) adds a byte displacement to its own address, and `jmp` (R228) goes to 4 times its immediate, an absolute
address: the spec's decisions D10 and D11 (log 1). -/
def Obligations.AdpcAndJmpMakeTheirAddress : Prop :=
  ∀ (s : State) (rD : Reg) (disp imm : Word),
    MovesValue s (.adpc rD disp) rD (s.core.pc + disp) ∧ GoesTo s (.jmp imm) (BitVec.ofNat 32 (4 * imm.toNat))

/-! ## Memory (spec/20_memory.md, spec/41_loadstore.md) -/

/-- `lw`, `lwa`, `lda`, `lba` (R184, R186, R188, R190); zero extension is the spec's decision D9 (log 27), byte displacements D10 (log
1). That an address where nothing is mapped reads 0 is D28, and that a port answers at its first byte alone D29 (log 23). -/
def Obligations.LoadsReadTheirAddress : Prop :=
  ∀ (s : State) (rD rA : Reg) (disp : Word),
    LoadsFrom s (.lw rD disp) rD .word (s.core.pc + disp) ∧
      LoadsFrom s (.lwa rD rA disp) rD .word (s.reg rA + disp) ∧
      LoadsFrom s (.lda rD rA disp) rD .half (s.reg rA + disp) ∧
      LoadsFrom s (.lba rD rA disp) rD .byte (s.reg rA + disp)

/-- `sw`, `swa`, `sda`, `sba` (R185, R187, R189, R191); byte displacements are the spec's decision D10 (log 1). That a store where
nothing is mapped does nothing is D28, and that a port takes it at its first byte alone D29 (log 23). -/
def Obligations.StoresWriteTheirAddress : Prop :=
  ∀ (s : State) (rS rA : Reg) (disp : Word), Memory.wf s.mem = true →
    StoresTo s (.sw rS disp) (s.reg rS) .word (s.core.pc + disp) ∧
      StoresTo s (.swa rS rA disp) (s.reg rS) .word (s.reg rA + disp) ∧
      StoresTo s (.sda rS rA disp) (s.reg rS) .half (s.reg rA + disp) ∧
      StoresTo s (.sba rS rA disp) (s.reg rS) .byte (s.reg rA + disp)

/-- `fada` (R192): rD holds the word read, old + x[rV] is written, x[rV] as it was before; read and write go to one physical
address in one step. In storage the word becomes the sum; a port takes its own read and write effects, and where nothing is mapped the
word read is 0 and nothing is written (spec decisions D28 and D29, log 23). That it needs R and W is the spec's decision D26 (log 22),
the byte displacement D10 (log 1). -/
def Obligations.FadaAddsInOneStep : Prop :=
  ∀ (s : State) (rD rA rV : Reg) (disp : Word) (pa : Word), Memory.wf s.mem = true →
    AccessAt s (s.reg rA + disp) .word .rmw pa →
    ∃ t old d, exec (.fada rD rA rV disp) s = .next t ∧ ReadsAs s pa .word old d ∧
      WritesAs { s with dev := d } pa .word (old + s.reg rV) t.mem t.dev ∧ HoldsResult t rD old ∧
      t.core.pc = s.core.pc + 4#32 ∧ SameBeyondBus s t ∧ SameHidden s.core t.core ∧ OnlyWrites s.core t.core [rD] []

/-- A data access that does not translate traps before the instruction does anything (R182, R283, R284, R286): vector 0x82 or 0x83,
epc = pc, the aligned address in `tlb` (R75). 0x83 for a miss in interrupt mode is the spec's decision D25 (log 22). Where the trap
cannot be entered the core is STUCK with that address in `tlb` (R297, spec decision D21, log 10). -/
def Obligations.DataMissIsPrecise : Prop :=
  ∀ (s : State) (i : Instr) (ea va : Word) (w : Width) (n : Intent), dataAccess s i = some (ea, w, n) →
    AccessMisses s ea w n va →
    (TrapsEnter s → ∃ t, exec i s = .next t ∧
      TrapTaken s t (if s.core.mode = .user then 0x82#8 else 0x83#8) s.core.pc .kernel ∧
      t.core.tlbAddr = va ∧ TrapFrame s t [.tlb]) ∧
    (¬ TrapsEnter s → exec i s = .next (stuckState (tlbAddressState s va)))

/-- The parameter MISALIGN (R65, spec decision D15, log 11): under REFUSE a misaligned data access has no step, the core is STUCK, and an
aligned address is used as it is; ALIGN_DOWN uses the aligned container. -/
def Obligations.MisalignDecidesTheAccess : Prop :=
  ∀ (s : State) (i : Instr) (ea : Word) (w : Width) (n : Intent), dataAccess s i = some (ea, w, n) →
    (s.params.misalign = .refuse → ea.toNat % widthBytes w ≠ 0 → exec i s = .next (stuckState s)) ∧
    (s.params.misalign = .refuse → ea.toNat % widthBytes w = 0 → ∀ pa,
      AccessAt s ea w n pa ↔ translateVa s.core ea n = some pa) ∧
    (s.params.misalign = .alignDown → ∀ pa, AccessAt s ea w n pa ↔
      translateVa s.core (BitVec.ofNat 32 (ea.toNat / widthBytes w * widthBytes w)) n = some pa)

/-- Memory is little-endian (R62), for every state: no register and no mode switches it. Storage is the VGA regions and RAM, devices
before RAM (R77, R78, R81; the regions' ends are the spec's decision D28, log 23; an access across RAM_SIZE is log 12, the gaps between
the regions log 13). -/
def Obligations.MemoryIsLittleEndian : Prop :=
  (∀ p : Params, PhysicalMap p) ∧
  ∀ (s : State) (pa : Word) (w : Width) (v : Word), place s.params pa w = .storage → Memory.wf s.mem = true →
    (∀ k, k < widthBytes w →
      (physRead s pa w).1.extractLsb' (8 * k) 8 = Memory.read s.mem (pa.toNat + k) ∧
        Memory.read (physWrite s pa w v).mem (pa.toNat + k) = v.extractLsb' (8 * k) 8) ∧
      (physRead s pa w).1.toNat < 2 ^ (8 * widthBytes w)

/-! ## Control transfer and the stack (spec/42_control.md) -/

/-- The fifteen branches (R212), each with its predicate of R211 (the condition set is the spec's decision D13, the cleared low bits
D14; log 27). -/
def Obligations.BranchesFollowTheirPredicate : Prop :=
  ∀ (s : State) (disp : Word),
    let z := s.core.flg.getLsbD 0
    let n := s.core.flg.getLsbD 1
    let c := s.core.flg.getLsbD 2
    let v := s.core.flg.getLsbD 3
    BranchesIf s (.br disp) True disp ∧ BranchesIf s (.bz disp) (z = true) disp ∧
      BranchesIf s (.bnz disp) (z = false) disp ∧ BranchesIf s (.bs disp) (n = true) disp ∧
      BranchesIf s (.bns disp) (n = false) disp ∧ BranchesIf s (.bc disp) (c = true) disp ∧
      BranchesIf s (.bnc disp) (c = false) disp ∧ BranchesIf s (.bo disp) (v = true) disp ∧
      BranchesIf s (.bno disp) (v = false) disp ∧ BranchesIf s (.bl disp) (n ≠ v) disp ∧
      BranchesIf s (.bge disp) (n = v) disp ∧ BranchesIf s (.ble disp) (z = true ∨ n ≠ v) disp ∧
      BranchesIf s (.bb disp) (c = true) disp ∧ BranchesIf s (.bae disp) (c = false) disp ∧
      BranchesIf s (.bbe disp) (c = true ∨ z = true) disp

/-- `nop` (R233). -/
def Obligations.NopOnlyAdvances : Prop := ∀ s : State, GoesTo s .nop (s.core.pc + 4#32)

/-- `push` and `call` (R229, R231): the word goes below the stack pointer, which then moves down; `push r31` stores the old
pointer. The full-descending stack is the spec's decision D12, the cleared low bits of call's target D14 (log 27). Where that address
is a port the port takes its effect, and where nothing is mapped nothing is stored (spec decisions D28 and D29, log 23). -/
def Obligations.PushAndCallStoreBelowTheStack : Prop :=
  ∀ (s : State) (rS : Reg) (disp : Word), Memory.wf s.mem = true →
    PushesTo s (.push rS) (s.reg rS) (s.core.pc + 4#32) ∧
      PushesTo s (.call disp) (s.core.pc + 4#32) ((s.core.pc + disp * 4#32) &&& 0xFFFFFFFC#32)

/-- `pop` and `ret` (R230, R232): the word at the stack pointer, which then moves up; `pop r31` leaves r31 = the word, `ret` drops
the low two bits of it. The full-descending stack is the spec's decision D12, the cleared low bits D14 (log 27); that a stack word
where nothing is mapped reads 0 and that a port answers at its first byte alone are D28 and D29 (log 23). -/
def Obligations.PopAndRetLoadFromTheStack : Prop :=
  ∀ (s : State) (rD : Reg) (pa : Word), AccessAt s (s.reg spReg) .word .load pa →
    (∃ t v, exec (.pop rD) s = .next t ∧ ReadsAs s pa .word v t.dev ∧ HoldsResult t rD v ∧
      (rD ≠ spReg → t.reg spReg = s.reg spReg + 4#32) ∧ t.core.pc = s.core.pc + 4#32 ∧ SameBeyondBus s t ∧
      SameHidden s.core t.core ∧ OnlyWrites s.core t.core [spReg, rD] [] ∧
      ∀ a, Memory.read t.mem a = Memory.read s.mem a) ∧
    (∃ t v, exec .ret s = .next t ∧ ReadsAs s pa .word v t.dev ∧ t.core.pc = v &&& 0xFFFFFFFC#32 ∧
      t.reg spReg = s.reg spReg + 4#32 ∧ SameBeyondBus s t ∧ SameHidden s.core t.core ∧
      OnlyWrites s.core t.core [spReg] [] ∧ ∀ a, Memory.read t.mem a = Memory.read s.mem a)

/-- "Pushing then popping restores the register and sp" (R232), for every register but r31. -/
def Obligations.PushThenPopRestores : Prop :=
  ∀ (s t : State) (r : Reg) (pa : Word), Memory.wf s.mem = true → r ≠ spReg → place s.params pa .word = .storage →
    AccessAt s (s.reg spReg - 4#32) .word .store pa → AccessAt s (s.reg spReg - 4#32) .word .load pa →
    exec (.push r) s = .next t →
    ∃ u, exec (.pop r) t = .next u ∧ (∀ q, u.reg q = s.reg q) ∧ u.core.pc = s.core.pc + 8#32

/-! ## System instructions (spec/43_system.md) -/

/-- `crmv crD, rS` (R241), for each of the fourteen: the bits held are written, cid keeps its value (spec decisions D3, D4, D38; log
20), and nothing else changes but the alias r31 where it names the register written. -/
def Obligations.CrmvWritesTheHeldBits : Prop :=
  ∀ (s : State) (k : CrIndex) (rS : Reg) (q : CReg), s.core.mode ≠ .user → CReg.all[k.toNat]? = some q →
    ∃ t, exec (.crmvW k rS) s = .next t ∧
      t.core.readCr q = (if q = .cid then s.core.cid else s.reg rS &&& heldBits q) ∧ t.core.crWritten q = true ∧
      t.core.pc = s.core.pc + 4#32 ∧ SameOutside s t ∧ SameHidden s.core t.core ∧
      OnlyWrites s.core t.core (if q = stackCReg s.core.mode then [spReg] else []) [q]

/-- `crmv rD, crS` (R242): zero in the unheld bits (spec decisions D3, D4, D38; log 20). Each name reads its own field, and r31 is the
mode's stack pointer (R20 to R22, R34). The premise on imr is part of the invariant of `StepKeepsInvariant`. -/
def Obligations.CrmvReadsTheHeldBits : Prop :=
  (∀ c : CoreState, RegistersReadTheirFields c) ∧
  ∀ (s : State) (k : CrIndex) (rD : Reg) (q : CReg), s.core.mode ≠ .user → CReg.all[k.toNat]? = some q →
    MovesValue s (.crmvR rD k) rD (s.core.readCr q) ∧
      (s.core.imr &&& 0x7FFF0000#32 = 0#32 → s.core.readCr q &&& ~~~ heldBits q = 0#32)

/-- Where the four flags stand in flg (R31, spec decision D5, log 19): `crmv rD, flg` reads Z, N, C, V in bits 0, 1, 2, 3 and zeros
above. -/
def Obligations.FlagsStandInTheirBits : Prop :=
  ∀ (s : State) (rD : Reg), s.core.mode ≠ .user →
    ∃ v : Word, MovesValue s (.crmvR rD 13#5) rD v ∧ v.getLsbD 0 = flagZ s.core.flg ∧ v.getLsbD 1 = flagN s.core.flg ∧
      v.getLsbD 2 = flagC s.core.flg ∧ v.getLsbD 3 = flagV s.core.flg ∧ v.toNat < 16

/-- `tlbw` (R247; the placement is the spec's decisions D23 and D24, log 22). -/
def Obligations.TlbwInsertsOneEntry : Prop :=
  ∀ (s : State) (rE rV : Reg), s.core.mode ≠ .user →
    let e : TlbEntry :=
      { valid := true, vpn := (s.reg rV).extractLsb' 12 20, ppn := (s.reg rE).extractLsb' 12 20, pid := s.core.pid,
        flags := (s.reg rE).extractLsb' 0 12 }
    ∃ t k, exec (.tlbw rE rV) s = .next t ∧ t.core.tlb[k] = e ∧
      (∀ j : Fin 16, j ≠ k →
        (EntryConflicts e s.core.tlb[j] → t.core.tlb[j] = { s.core.tlb[j] with valid := false }) ∧
        (¬ EntryConflicts e s.core.tlb[j] → t.core.tlb[j] = s.core.tlb[j])) ∧
      ((EntryConflicts e s.core.tlb[k] ∧ (∀ j, j < k → ¬ EntryConflicts e s.core.tlb[j]) ∧
          t.core.tlbNext = s.core.tlbNext) ∨
        ((∀ j : Fin 16, ¬ EntryConflicts e s.core.tlb[j]) ∧ s.core.tlb[k].valid = false ∧
          (∀ j, j < k → s.core.tlb[j].valid = true) ∧ t.core.tlbNext = s.core.tlbNext) ∨
        ((∀ j : Fin 16, ¬ EntryConflicts e s.core.tlb[j]) ∧ (∀ j : Fin 16, s.core.tlb[j].valid = true) ∧
          k = s.core.tlbNext ∧ t.core.tlbNext = s.core.tlbNext + 1)) ∧
      t = { s with core := { s.core with pc := s.core.pc + 4#32, tlb := t.core.tlb, tlbNext := t.core.tlbNext } }

/-- `tlbr` (R248) answers the stored word of the entry that matches, or 0; after `tlbw rE, rV` it answers x[rE] bit for bit for
every address of that page (R247). -/
def Obligations.TlbrReadsWhatTlbwWrote : Prop :=
  ∀ (s : State) (rD rV : Reg), s.core.mode ≠ .user →
    (∀ k, IsMatch s.core (s.reg rV) k → MovesValue s (.tlbr rD rV) rD (s.core.tlb[k].ppn ++ s.core.tlb[k].flags)) ∧
    ((∀ k : Fin 16, ¬ EntryHits s.core.pid (s.reg rV) s.core.tlb[k]) → MovesValue s (.tlbr rD rV) rD 0#32) ∧
    ∀ (rE rW : Reg) (t : State), exec (.tlbw rE rV) s = .next t →
      (t.reg rW).extractLsb' 12 20 = (s.reg rV).extractLsb' 12 20 → MovesValue t (.tlbr rD rW) rD (s.reg rE)

/-- `tlbc` (R249): every entry invalid; tlb_next 0 is the spec's decision D23 (log 22). -/
def Obligations.TlbcClearsEveryEntry : Prop :=
  ∀ s : State, s.core.mode ≠ .user →
    ∃ t, exec .tlbc s = .next t ∧ (∀ k : Fin 16, t.core.tlb[k] = { s.core.tlb[k] with valid := false }) ∧
      t = { s with core := { s.core with pc := s.core.pc + 4#32, tlb := t.core.tlb, tlbNext := 0 } }

/-- `ipi` (R250): the target's mbi and isr bit 5, and rD = 1; rD = 0 and nothing else where no such core exists (spec decision D35,
log 27). Core number `s.done.length` is the sender. -/
def Obligations.IpiReachesItsTarget : Prop :=
  ∀ (s : State) (rD rT : Reg), s.core.mode ≠ .user →
    (s.nCores ≤ (s.reg rT).toNat → MovesValue s (.ipi rD rT) rD 0#32) ∧
    ((s.reg rT).toNat < s.nCores → ∃ t, exec (.ipi rD rT) s = .next t ∧ HoldsResult t rD 1#32 ∧
      t.core.pc = s.core.pc + 4#32 ∧ SameHidden s.core t.core ∧ OnlyWrites s.core t.core [rD] [.mbi, .isr] ∧
      t.cores.length = s.cores.length ∧
      (∀ k c d, s.cores[k]? = some c → t.cores[k]? = some d →
        (k = (s.reg rT).toNat → d.mbi = s.core.mbo ∧ d.isr = c.isr ||| 0x20#16 ∧ d.written.mbi = true) ∧
        (k ≠ (s.reg rT).toNat → d.mbi = c.mbi ∧ d.isr = c.isr ∧ d.written.mbi = c.written.mbi) ∧
        (k ≠ s.done.length →
          d = { c with mbi := d.mbi, isr := d.isr, written := { c.written with mbi := d.written.mbi } })) ∧
      t.params = s.params ∧ t.dev = s.dev ∧ t.hostSchedule = s.hostSchedule ∧
      ∀ a, Memory.read t.mem a = Memory.read s.mem a)

/-- `mode halt` and `mode sleep` (R251, R252). -/
def Obligations.HaltAndSleepSetTheRunState : Prop :=
  ∀ s : State, s.core.mode ≠ .user →
    exec .modeHalt s = .next { s with core := { s.core with pc := s.core.pc + 4#32, run := .halted } } ∧
      exec .modeSleep s = .next { s with core := { s.core with pc := s.core.pc + 4#32, run := .sleeping } }

/-! ## Translation (spec/20_memory.md) -/

/-- With no valid entry and pid 0, translation is identity and checks nothing (R67, R68). -/
def Obligations.TranslationOffIsIdentity : Prop :=
  ∀ (c : CoreState) (va : Word) (n : Intent), ¬ ((∃ k : Fin 16, c.tlb[k].valid = true) ∨ c.pid ≠ 0#8) →
    translateVa c va n = some va

/-- With translation enabled, the lowest matching entry decides: its page if it permits, a miss otherwise, and a miss where none
matches (R69 to R71; spec decisions D25 and D26, log 22). -/
def Obligations.TranslationFollowsTheMatch : Prop :=
  ∀ (c : CoreState) (va : Word) (n : Intent), ((∃ k : Fin 16, c.tlb[k].valid = true) ∨ c.pid ≠ 0#8) →
    (∀ k, IsMatch c va k →
      (PermissionHolds c.mode c.tlb[k] n → translateVa c va n = some (c.tlb[k].ppn ++ va.extractLsb' 0 12)) ∧
      (¬ PermissionHolds c.mode c.tlb[k] n → translateVa c va n = none)) ∧
    ((∀ k : Fin 16, ¬ EntryHits c.pid va c.tlb[k]) → translateVa c va n = none)

/-! ## Devices (spec/60_exceptions.md) -/

/-- Ports (R82, R83, R320, R322 to R328), at every access width: a value is cut to the narrower of the access and the port. A read of
PS2_DATA or UART_RX takes one element, and reads 0 from an empty queue (spec decision D30); UART_TX appends and reads 0, writes of
UART_RX and PS2_DATA are ignored (D45); a write of PIT_INTERVAL restarts the count (D34); the SD registers and five VGA registers hold
what was written, STATUS, VGA_FRAME and VGA_STATUS ignore writes, and VGA_STATUS reads a draw that nothing constrains (D32, D36; log 9).
An access at any address where no port starts, inside a port too, reads 0 and writes nothing (D29); the VGA addresses are D31. The
window's addresses go to the ports whatever RAM_SIZE is (R78, D28; logs 23 and 24). -/
def Obligations.PortsHaveTheirEffects : Prop :=
  ∀ (p : Params) (d : Devices),
    QueueAndTimerPorts d ∧ SlotPorts d .sd0 ∧ SlotPorts d .sd1 ∧ VgaPorts d ∧
    (∀ a : Word, a.toNat ∉ portStarts → ∀ w v, portRead d a w = (0#32, d) ∧ portWrite d a w v = d) ∧
    ∀ (a : Word) (w : Width), place p a w = .port ↔ 0x07FE5800 ≤ a.toNat ∧ a.toNat ≤ 0x07FE5B4F

/-- A write to a slot's CTRL port, at every access width (R329, spec decision D36, log 24; the cut to the access D29, log 23): dropped
while BUSY; 1 and 3 latch a transfer, 8 starts init, any other value is only stored. -/
def Obligations.SdCommandLatchesTheTransfer : Prop :=
  ∀ (d : Devices) (w : Width) (x : Word) (i : SlotId),
    let v := cutTo w .word x
    let a := (portWrite d (slotBase i + 12#32) w x).slot i
    let b := d.slot i
    (b.busy = true → a = b) ∧
    (b.busy = false → v = 1#32 ∨ v = 3#32 →
      a = { b with
        ctrl := v, busy := true, kind := (if v = 1#32 then .read else .write), cur := b.memAddr &&& 0xFFFFFFFC#32,
        off := b.sdBlock * 512#32, rem := b.len &&& 0xFFFFFFFC#32 }) ∧
    (b.busy = false → v = 8#32 → a = { b with ctrl := v, busy := true, kind := .init }) ∧
    (b.busy = false → v ≠ 1#32 → v ≠ 3#32 → v ≠ 8#32 → a = { b with ctrl := v }) ∧
    portWrite d (slotBase i + 12#32) w x = d.setSlot i a

/-- One DmaStep (R330; the shared counter and slot 0 before slot 1 are the spec's decision D37, log 26): the counter moves, then each
slot takes its part, idle or busy, wherever its transfer points. A BUSY init clears at that DmaStep (R330, R332); no data moves
before the counter reaches SD_DMA_TICKS; a quantum moves four bytes between the image (0 beyond its end, D46) and memory, a port or
an unmapped address, as a bus access does (R79, R83; D28 and D29, log 23), moves the cursors on, and clears BUSY after the last. A
quantum into the slot's own ports is log 16. -/
def Obligations.DmaMovesOneQuantum : Prop :=
  (∀ (m : SdImage) (b : Nat), m.size ≤ b → m.readByte b = 0#8) ∧
  ∀ s : State, Memory.wf s.mem = true → (∀ i, Memory.wf (s.dev.slot i).image.bytes = true) →
    let due := decide (s.params.sdDmaTicks ≤ s.dev.dmaCount + 1)
    let counted := { s with dev := { s.dev with dmaCount := if due then 0 else s.dev.dmaCount + 1 } }
    ∃ m, SlotStep due counted m .sd0 ∧ SlotStep due m (dmaStep s) .sd1

/-- The sample at the end of a pass (R320, R325, R327, R341; spec decisions D32 and D34, logs 15 and 24): each core's isr gains bit 0
where the PIT fires, bit 4 where a frame is rendered, bit 1 while the active queue is not empty, and nothing else of a core changes;
the first core's turn follows. Before the end of a pass nothing is sampled: the next core's turn follows, and nothing else (R340). -/
def Obligations.SampleRaisesTheLines : Prop :=
  (∀ (s : State) (c : CoreState) (cs : List CoreState), s.todo = c :: cs →
    endVisit s = { s with done := s.done ++ [s.core], core := c, todo := cs }) ∧
  ∀ s : State, s.todo = [] →
    let d := s.dev
    let pit := d.pitPeriod ≠ 0#32 ∧ d.pitPeriod.toNat ≤ d.pitCount + 1
    let frame := s.params.vgaFramePasses ≠ 0 ∧ s.params.vgaFramePasses ≤ d.vgaPasses + 1
    let waiting := if s.params.uartInput = true then d.uartRx ≠ [] else d.ps2Queue ≠ []
    let t := endVisit s
    t.done = [] ∧
    t.cores = s.cores.map (fun c => { c with isr := c.isr ||| (if pit then 0x1#16 else 0#16) |||
      (if frame then 0x10#16 else 0#16) ||| (if waiting then 0x2#16 else 0#16) }) ∧
    t.dev = { d with
      pitCount := (if pit then 0 else d.pitCount + 1)
      vgaFrame := (if frame then d.vgaFrame + 1#16 else d.vgaFrame)
      vgaPasses := (if s.params.vgaFramePasses = 0 then d.vgaPasses else if frame then 0 else d.vgaPasses + 1) } ∧
    t.mem = s.mem ∧ t.params = s.params ∧ t.hostSchedule = s.hostSchedule

/-- Host input arrives between passes only, in order, in the queue that UART_INPUT selects (R322, R352; log 8), and it changes nothing
else; an empty schedule brings nothing. -/
def Obligations.HostInputArrivesBetweenPasses : Prop :=
  ∀ (s : State) (now : List HostInput) (later : List (List HostInput)),
    (s.done ≠ [] → beginVisit s = s) ∧ (s.hostSchedule = [] → beginVisit s = s) ∧
    (s.done = [] → s.hostSchedule = now :: later →
      (s.params.uartInput = false →
        beginVisit s = { s with
          hostSchedule := later
          dev := { s.dev with ps2Queue := s.dev.ps2Queue ++ now.filterMap fun x =>
            match x with | .keyEvent e => some e | .uartByte _ => none } }) ∧
      (s.params.uartInput = true →
        beginVisit s = { s with
          hostSchedule := later
          dev := { s.dev with uartRx := s.dev.uartRx ++ now.filterMap fun x =>
            match x with | .uartByte b => some b | .keyEvent _ => none } }))

/-! ## Reset and the invariant (spec/70_reset_and_hazards.md) -/

/-- The state right after reset (R380), for every boot; an image longer than RAM_SIZE bytes is a loader error (R381, spec decision
D16). For every core the spec's sources give pc 0x400, kernel mode, pid 0, no valid TLB entry and cid the core's index (R26, R67,
R343), and for memory the loaded image (R381; that its words in a device region are lost is log 29, DESIGN CHOICE); that every other
register, hidden state and device is 0, idle or empty, and that every core starts, is the spec's decision D16 (logs 2 and 3). No core
is STUCK, and no register counts as written but those that keep their value under RESET_UNWRITTEN = FAULT (log 28). -/
def Obligations.ResetStateOfEveryCore : Prop :=
  State.boot Params.default 1 [] [] [] [] = some State.reset ∧
  ∀ (p : Params) (others : Nat) (image : List Word) (raw0 raw1 : List Byte) (sched : List (List HostInput)),
    (p.ramSize < 4 * image.length → State.boot p others image raw0 raw1 sched = none) ∧
    (4 * image.length ≤ p.ramSize → ∃ s, State.boot p others image raw0 raw1 sched = some s ∧
    s.params = p ∧ s.nCores = others + 1 ∧ s.done = [] ∧ HoldsImage s.mem image ∧ s.hostSchedule = sched ∧
    (s.dev.ps2Queue = [] ∧ s.dev.uartRx = [] ∧ s.dev.uartOut = [] ∧ s.dev.pitPeriod = 0#32 ∧ s.dev.pitCount = 0) ∧
    (s.dev.vgaHscroll = 0#16 ∧ s.dev.vgaVscroll = 0#16 ∧ s.dev.vgaMode = 0#16 ∧ s.dev.vgaScale = 0#16 ∧
      s.dev.vgaClkdiv = 0#16 ∧ s.dev.vgaFrame = 0#16 ∧ s.dev.vgaPasses = 0 ∧ s.dev.dmaCount = 0) ∧
    (∀ j, ∃ m, IsRaw m (if j = .sd0 then raw0 else raw1) ∧ s.dev.slot j =
      { memAddr := 0#32, sdBlock := 0#32, len := 0#32, ctrl := 0#32, busy := false, kind := .none, cur := 0#32,
        off := 0#32, rem := 0#32, image := m }) ∧
    ∀ (k : Nat) (c : CoreState), s.cores[k]? = some c →
      c.pc = 0x400#32 ∧ c.mode = .kernel ∧ c.modePrev = .kernel ∧ c.run = .running ∧ c.pid = 0#8 ∧
      c.cid = BitVec.ofNat 32 k ∧ (∀ j : Fin 16, c.tlb[j].valid = false) ∧ c.tlbNext = 0 ∧ c.trapLive = false ∧
      c.stuck = false ∧ (∀ r, c.reg r = 0#32 ∧ (c.regWritten r = true ↔ r = 0#5)) ∧
      ∀ q : CReg, (q ≠ .cid → c.readCr q = 0#32) ∧
        (c.crWritten q = true ↔ q = .pid ∨ q = .imr ∨ q = .isr ∨ q = .cid ∨ q = .flg))

/-- The invariant: memory and the SD images keep their canonical form, the DMA cursors stay multiples of 4, every pc stays a
multiple of 4 (R27), the unheld bits of every imr stay 0 (R36), core k's cid is k (R43), and a register that nothing has written since
reset still holds its reset value (R380; the values are the spec's decision D16, the marks log 28). -/
def Obligations.StepKeepsInvariant : Prop :=
  ∀ s t : State, s.Inv → step s = .next t → t.Inv

/-- The reset state satisfies the invariant, and so does every boot. -/
def Obligations.ResetHasInvariant : Prop :=
  State.reset.Inv ∧ ∀ p others image raw0 raw1 sched s, State.boot p others image raw0 raw1 sched = some s → s.Inv
end

