-- ==== Sys2Proof/Laws/Memory.lean ====
section
/-! SUPPORT. Memory: a read after a write, the bytes of a little-endian access, and the canonical form, kept by every operation. -/

namespace Sys2Proof.Machine

/-! ### One byte -/

@[simp] theorem read_nil (a : Nat) : Memory.read [] a = 0#8 := rfl

theorem read_cons (b : Nat) (v : Byte) (m : Memory) (a : Nat) :
    Memory.read ((b, v) :: m) a = if a = b then v else Memory.read m a := rfl

/-- A weaker lower bound still holds. -/
theorem wfAbove_mono {lo hi : Nat} (h : lo ≤ hi) : ∀ {m : Memory}, Memory.wfAbove hi m = true → Memory.wfAbove lo m = true
  | [], _ => rfl
  | (a, v) :: m, hm => by
    simp only [Memory.wfAbove, Bool.and_eq_true, decide_eq_true_eq] at hm ⊢
    exact ⟨⟨by omega, hm.1.2⟩, hm.2⟩

/-- Nothing is listed below the bound, so it reads as an unlisted address. -/
theorem read_below {lo : Nat} {a : Nat} (h : a < lo) : ∀ {m : Memory}, Memory.wfAbove lo m = true → Memory.read m a = 0#8
  | [], _ => rfl
  | (b, v) :: m, hm => by
    simp only [Memory.wfAbove, Bool.and_eq_true, decide_eq_true_eq] at hm
    rw [read_cons, if_neg (by omega)]
    exact read_below (by omega) hm.2

/-- A read after a write, in any memory in canonical form: the byte written, or what was there. -/
theorem read_write_above {lo : Nat} (a b : Nat) (v : Byte) :
    ∀ {m : Memory}, Memory.wfAbove lo m = true →
      Memory.read (Memory.write m a v) b = if b = a then v else Memory.read m b
  | [], _ => by
    unfold Memory.write; split
    · next h => subst h; simp [unlistedByte]
    · rw [read_cons]
  | (c, u) :: m, hm => by
    simp only [Memory.wfAbove, Bool.and_eq_true, decide_eq_true_eq] at hm
    unfold Memory.write
    split
    · next hlt =>
      have hz : Memory.read ((c, u) :: m) a = 0#8 := by
        rw [read_cons, if_neg (by omega)]; exact read_below (by omega) hm.2
      split
      · next hv => by_cases e : b = a <;> simp_all [unlistedByte]
      · simp only [read_cons]
    · split
      · next heq =>
        subst heq
        have hz : Memory.read m a = 0#8 := read_below (Nat.lt_succ_self _) hm.2
        split
        · next hv => by_cases e : b = a <;> simp_all [read_cons, unlistedByte]
        · simp only [read_cons]; split <;> rfl
      · next hne =>
        rw [read_cons, read_write_above a b v hm.2, read_cons]
        by_cases e : b = c
        · subst e; simp [Ne.symm hne]
        · simp [e]

theorem read_write {m : Memory} (hm : Memory.wf m = true) (a b : Nat) (v : Byte) :
    Memory.read (Memory.write m a v) b = if b = a then v else Memory.read m b :=
  read_write_above a b v hm

theorem write_wfAbove {lo : Nat} (a : Nat) (v : Byte) (ha : lo ≤ a) :
    ∀ {m : Memory}, Memory.wfAbove lo m = true → Memory.wfAbove lo (Memory.write m a v) = true
  | [], _ => by
    unfold Memory.write; split
    · rfl
    · next h => simp [Memory.wfAbove, ha, h]
  | (b, u) :: m, hm => by
    have hm' := hm
    simp only [Memory.wfAbove, Bool.and_eq_true, decide_eq_true_eq] at hm
    unfold Memory.write
    split
    · next hlt =>
      split
      · exact hm'
      · next hv =>
        simp only [Memory.wfAbove, Bool.and_eq_true, decide_eq_true_eq]
        exact ⟨⟨ha, hv⟩, ⟨by omega, hm.1.2⟩, hm.2⟩
    · split
      · next heq =>
        subst heq
        split
        · exact wfAbove_mono (by omega) hm.2
        · next hv =>
          simp only [Memory.wfAbove, Bool.and_eq_true, decide_eq_true_eq]
          exact ⟨⟨ha, hv⟩, hm.2⟩
      · next hne =>
        simp only [Memory.wfAbove, Bool.and_eq_true, decide_eq_true_eq]
        exact ⟨hm.1, write_wfAbove a v (by omega) hm.2⟩

/-- A write keeps the canonical form. -/
theorem write_wf {m : Memory} (hm : Memory.wf m = true) (a : Nat) (v : Byte) : Memory.wf (Memory.write m a v) = true :=
  write_wfAbove a v (Nat.zero_le a) hm

/-- In canonical form, memories that read alike are equal. -/
theorem memory_ext_above {lo : Nat} : ∀ {m n : Memory}, Memory.wfAbove lo m = true → Memory.wfAbove lo n = true →
    (∀ a, Memory.read m a = Memory.read n a) → m = n
  | [], [], _, _, _ => rfl
  | [], (b, v) :: n, _, hn, h => by
    simp only [Memory.wfAbove, Bool.and_eq_true, decide_eq_true_eq] at hn
    have := h b
    simp [read_cons] at this
    exact absurd this.symm hn.1.2
  | (b, v) :: m, [], hm, _, h => by
    simp only [Memory.wfAbove, Bool.and_eq_true, decide_eq_true_eq] at hm
    have := h b
    simp [read_cons] at this
    exact absurd this hm.1.2
  | (b, v) :: m, (c, u) :: n, hm, hn, h => by
    simp only [Memory.wfAbove, Bool.and_eq_true, decide_eq_true_eq] at hm hn
    have hb : Memory.read m b = 0#8 := read_below (Nat.lt_succ_self _) hm.2
    have hc : Memory.read n c = 0#8 := read_below (Nat.lt_succ_self _) hn.2
    have hbc : b = c := by
      rcases Nat.lt_trichotomy b c with hlt | heq | hgt
      · have e := h b
        rw [read_cons, read_cons, if_pos rfl, if_neg (by omega), read_below (by omega) hn.2] at e
        exact absurd e hm.1.2
      · exact heq
      · have e := h c
        rw [read_cons, read_cons, if_neg (by omega), if_pos rfl, read_below (by omega) hm.2] at e
        exact absurd e.symm hn.1.2
    subst hbc
    have hv : v = u := by have e := h b; simpa [read_cons] using e
    subst hv
    rw [memory_ext_above hm.2 hn.2 fun a => ?_]
    by_cases ha : a = b
    · subst ha; rw [hb, hc]
    · have e := h a; simpa [read_cons, ha] using e

theorem memory_ext {m n : Memory} (hm : Memory.wf m = true) (hn : Memory.wf n = true)
    (h : ∀ a, Memory.read m a = Memory.read n a) : m = n :=
  memory_ext_above hm hn h

/-! ### Little-endian accesses -/

/-- The memory of the reset state is in canonical form. -/
theorem reset_mem_wf : Memory.wf State.reset.mem = true := rfl

/-- A little-endian write keeps the canonical form. -/
theorem writeLE_wf {m : Memory} (hm : Memory.wf m = true) (a : Nat) (w : Width) (v : Word) :
    Memory.wf (Memory.writeLE m a w v) = true := by
  cases w <;> simp only [Memory.writeLE] <;> repeat first | exact hm | apply write_wf

/-- Every byte after a little-endian write (R62). -/
theorem read_writeLE {m : Memory} (hm : Memory.wf m = true) (a : Nat) (w : Width) (v : Word) (b : Nat) :
    Memory.read (Memory.writeLE m a w v) b =
      if a ≤ b ∧ b < a + widthBytes w then v.extractLsb' (8 * (b - a)) 8 else Memory.read m b := by
  cases w <;> simp only [Memory.writeLE]
  · rw [read_write hm]
    by_cases h : b = a
    · subst h; simp [widthBytes]
    · rw [if_neg h, if_neg (by simp only [widthBytes]; omega)]
  · rw [read_write (write_wf hm _ _), read_write hm]
    by_cases h1 : b = a + 1
    · subst h1; simp [widthBytes]
    · by_cases h0 : b = a
      · subst h0; simp [widthBytes]
      · rw [if_neg h1, if_neg h0, if_neg (by simp only [widthBytes]; omega)]
  · rw [read_write (write_wf (write_wf (write_wf hm _ _) _ _) _ _), read_write (write_wf (write_wf hm _ _) _ _),
      read_write (write_wf hm _ _), read_write hm]
    by_cases h3 : b = a + 3
    · subst h3; simp [widthBytes]
    · by_cases h2 : b = a + 2
      · subst h2; simp [widthBytes]
      · by_cases h1 : b = a + 1
        · subst h1; simp [widthBytes]
        · by_cases h0 : b = a
          · subst h0; simp [widthBytes]
          · rw [if_neg h3, if_neg h2, if_neg h1, if_neg h0, if_neg (by simp only [widthBytes]; omega)]

/-- What a little-endian write does, as a store sees it. -/
theorem writeLE_storesBytes {m : Memory} (hm : Memory.wf m = true) (a : Nat) (w : Width) (v : Word) :
    StoresBytes m (Memory.writeLE m a w v) a w v := by
  constructor
  · intro k hk
    rw [read_writeLE hm, if_pos (by omega), Nat.add_sub_cancel_left]
  · intro b hb
    rw [read_writeLE hm, if_neg (by omega)]

theorem byte_of_word (b0 b1 b2 b3 : Byte) :
    (wordOfBytes b0 b1 b2 b3).extractLsb' 0 8 = b0 ∧ (wordOfBytes b0 b1 b2 b3).extractLsb' 8 8 = b1 ∧
      (wordOfBytes b0 b1 b2 b3).extractLsb' 16 8 = b2 ∧ (wordOfBytes b0 b1 b2 b3).extractLsb' 24 8 = b3 := by
  refine ⟨?_, ?_, ?_, ?_⟩ <;>
    (apply BitVec.eq_of_getLsbD_eq; intro i hi
     simp only [wordOfBytes, BitVec.getLsbD_append, BitVec.getLsbD_extractLsb', hi, decide_true, Bool.true_and]) <;>
    interval_cases i <;> simp

/-- A word is put together again from its bytes (R62). -/
theorem word_of_its_bytes (v : Word) :
    wordOfBytes (v.extractLsb' 0 8) (v.extractLsb' 8 8) (v.extractLsb' 16 8) (v.extractLsb' 24 8) = v := by
  apply BitVec.eq_of_getLsbD_eq; intro i hi
  simp only [wordOfBytes, BitVec.getLsbD_append, BitVec.getLsbD_extractLsb']
  interval_cases i <;> simp

/-- What a little-endian read answers: its bytes, zero-extended (R62, R181). -/
theorem readLE_bytesAre (m : Memory) (a : Nat) (w : Width) : BytesAre m a w (Memory.readLE m a w) := by
  cases w
  · refine ⟨?_, ?_⟩
    · have := (Memory.read m a).isLt
      simp [Memory.readLE, widthBytes]; omega
    · intro k hk
      simp only [widthBytes] at hk
      obtain rfl : k = 0 := by omega
      apply BitVec.eq_of_getLsbD_eq; intro i hi
      simp [Memory.readLE, hi]; intro; omega
  · refine ⟨?_, ?_⟩
    · have := (Memory.read m (a + 1) ++ Memory.read m a).isLt
      simp only [Memory.readLE, widthBytes, BitVec.zeroExtend, BitVec.toNat_setWidth]; omega
    · intro k hk
      simp only [widthBytes] at hk
      apply BitVec.eq_of_getLsbD_eq; intro i hi
      simp only [Memory.readLE, BitVec.zeroExtend, BitVec.getLsbD_extractLsb', BitVec.getLsbD_setWidth,
        BitVec.getLsbD_append, hi, decide_true, Bool.true_and]
      interval_cases k <;> interval_cases i <;> simp
  · refine ⟨by simpa [widthBytes] using (Memory.readLE m a .word).isLt, ?_⟩
    intro k hk
    obtain ⟨h0, h1, h2, h3⟩ := byte_of_word (Memory.read m a) (Memory.read m (a + 1)) (Memory.read m (a + 2))
      (Memory.read m (a + 3))
    simp only [widthBytes] at hk
    interval_cases k <;> simp_all [Memory.readLE]

/-- The value an access's bytes make is unique. -/
theorem bytesAre_unique {m : Memory} {a : Nat} {w : Width} {v u : Word} (hv : BytesAre m a w v) (hu : BytesAre m a w u) :
    v = u := by
  apply BitVec.eq_of_getLsbD_eq
  intro i hi
  by_cases h : i < 8 * widthBytes w
  · have hk : i / 8 < widthBytes w := by omega
    have e := (hv.2 _ hk).trans (hu.2 _ hk).symm
    have e2 := congrArg (fun b => b.getLsbD (i % 8)) e
    simp only [BitVec.getLsbD_extractLsb'] at e2
    have : i % 8 < 8 := Nat.mod_lt _ (by omega)
    simpa [this, Nat.div_add_mod] using e2
  · have hp : 2 ^ (8 * widthBytes w) ≤ 2 ^ i := Nat.pow_le_pow_right (by omega) (by omega)
    rw [BitVec.getLsbD, BitVec.getLsbD, Nat.testBit_lt_two_pow (by have := hv.1; omega),
      Nat.testBit_lt_two_pow (by have := hu.1; omega)]

/-! ### SD images -/

theorem writeByte_bytes_wf (i : SdImage) (h : Memory.wf i.bytes = true) (a : Nat) (v : Byte) :
    Memory.wf (i.writeByte a v).bytes = true := by
  unfold SdImage.writeByte; split
  · exact write_wf h a v
  · exact h

@[simp] theorem writeByte_size (i : SdImage) (a : Nat) (v : Byte) : (i.writeByte a v).size = i.size := by
  unfold SdImage.writeByte; split <;> rfl

/-- An image byte after a byte write: a byte beyond the image is not written (R330, R331). -/
theorem readByte_writeByte (i : SdImage) (h : Memory.wf i.bytes = true) (a b : Nat) (v : Byte) :
    (i.writeByte a v).readByte b = if b = a ∧ a < i.size then v else i.readByte b := by
  unfold SdImage.readByte
  rw [writeByte_size]
  unfold SdImage.writeByte
  by_cases ha : a < i.size
  · simp only [ha, if_true, and_true, read_write h]
    by_cases hb : b = a
    · subst hb; simp [ha]
    · simp [hb]
  · simp [ha]

/-- An image keeps its canonical form and its length under a word write (R331). -/
theorem writeWord_wf (i : SdImage) (h : Memory.wf i.bytes = true) (off : Word) (v : Word) :
    Memory.wf (i.writeWord off v).bytes = true := by
  unfold SdImage.writeWord
  exact writeByte_bytes_wf _ (writeByte_bytes_wf _ (writeByte_bytes_wf _ (writeByte_bytes_wf _ h _ _) _ _) _ _) _ _

@[simp] theorem writeWord_size (i : SdImage) (off : Word) (v : Word) : (i.writeWord off v).size = i.size := by
  simp [SdImage.writeWord]

/-- The bytes of an image word (R330). -/
theorem readWord_bytes (m : SdImage) (off : Word) (k : Nat) (hk : k < 4) :
    (m.readWord off).extractLsb' (8 * k) 8 = m.readByte (off.toNat + k) := by
  unfold SdImage.readWord
  obtain ⟨h0, h1, h2, h3⟩ := byte_of_word (m.readByte off.toNat) (m.readByte (off.toNat + 1)) (m.readByte (off.toNat + 2))
    (m.readByte (off.toNat + 3))
  interval_cases k
  · exact h0
  · exact h1
  · exact h2
  · exact h3

/-- An image byte after a word write: the word's bytes, where the image has them (R330, R331). -/
theorem readByte_writeWord (m : SdImage) (h : Memory.wf m.bytes = true) (off v : Word) (b : Nat) :
    (m.writeWord off v).readByte b =
      if off.toNat ≤ b ∧ b < off.toNat + 4 ∧ b < m.size then v.extractLsb' (8 * (b - off.toNat)) 8 else m.readByte b := by
  unfold SdImage.writeWord
  generalize off.toNat = o
  have w1 := writeByte_bytes_wf m h o (v.extractLsb' 0 8)
  have w2 := writeByte_bytes_wf _ w1 (o + 1) (v.extractLsb' 8 8)
  have w3 := writeByte_bytes_wf _ w2 (o + 2) (v.extractLsb' 16 8)
  rw [readByte_writeByte _ w3, readByte_writeByte _ w2, readByte_writeByte _ w1, readByte_writeByte _ h]
  simp only [writeByte_size]
  by_cases hb : o ≤ b ∧ b < o + 4 ∧ b < m.size
  · rw [if_pos hb]
    obtain ⟨h1, h2, h3⟩ := hb
    obtain ⟨j, rfl⟩ : ∃ j, b = o + j := ⟨b - o, by omega⟩
    have hj : j < 4 := by omega
    interval_cases j
    · simp at h3 ⊢; simp [h3]
    · simp [h3]
    · simp [h3]
    · simp [h3]
  · rw [if_neg hb, if_neg (by omega), if_neg (by omega), if_neg (by omega), if_neg (by omega)]

end Sys2Proof.Machine
end

