-- ==== Sys2Proof/Laws/Boot.lean ====
section
/-! SUPPORT. The loader: loaded bytes are in canonical form and lie where the image puts them (R381, R331). -/

namespace Sys2Proof.Machine

/-- Loaded bytes are in canonical form. -/
theorem loadBytes_wf (takes : Nat → Bool) : ∀ (a : Nat) (l : List Byte), Memory.wf (loadBytes takes a l) = true
  | _, [] => rfl
  | a, b :: l => by
    unfold loadBytes; split
    · exact write_wf (loadBytes_wf takes (a + 1) l) a b
    · exact loadBytes_wf takes (a + 1) l

/-- Every byte after a load: the list's where the address takes it, and 0 elsewhere. -/
theorem read_loadBytes (takes : Nat → Bool) (x : Nat) : ∀ (a : Nat) (l : List Byte),
    Memory.read (loadBytes takes a l) x = if a ≤ x ∧ takes x = true then l.getD (x - a) 0#8 else 0#8
  | a, [] => by simp [loadBytes]
  | a, b :: l => by
    have ih := read_loadBytes takes x (a + 1) l
    rcases Nat.lt_trichotomy x a with h | rfl | h
    · unfold loadBytes; split <;> simp [read_write (loadBytes_wf ..), ih, show ¬ a ≤ x by omega, show x ≠ a by omega,
        show ¬ a + 1 ≤ x by omega]
    · unfold loadBytes; split <;> simp_all [read_write (loadBytes_wf ..)]
    · have hx : x - a = x - (a + 1) + 1 := by omega
      unfold loadBytes; split <;> simp [read_write (loadBytes_wf ..), ih, show x ≠ a by omega, show a ≤ x by omega,
        show a + 1 ≤ x by omega, hx]

/-- The word bytes of an image lie one after another, four a word. -/
theorem getD_wordBytes (image : List Word) (k j : Nat) (hj : j < 4) :
    (image.flatMap wordBytes).getD (4 * k + j) 0#8 = (image.getD k 0#32).extractLsb' (8 * j) 8 := by
  induction image generalizing k with
  | nil => simp
  | cons w l ih =>
    rcases k with _ | k
    · obtain rfl | rfl | rfl | rfl : j = 0 ∨ j = 1 ∨ j = 2 ∨ j = 3 := by omega
      all_goals rfl
    · rw [List.flatMap_cons, show 4 * (k + 1) + j = 4 * k + j + 4 by omega, List.getD_cons_succ, ← ih k]
      rfl

/-- What a byte of memory reads as at reset (R380, R381; log 29). -/
theorem read_bootMemory (image : List Word) (k j : Nat) (hj : j < 4) :
    Memory.read (bootMemory image) (4 * k + j) =
      if deviceAt (4 * k + j) = true then 0#8 else (image.getD k 0#32).extractLsb' (8 * j) 8 := by
  unfold bootMemory
  rw [read_loadBytes]
  simp only [Nat.zero_le, true_and, Nat.sub_zero, getD_wordBytes image k j hj]
  cases deviceAt (4 * k + j) <;> rfl

/-- The memory of a boot is in canonical form. -/
theorem bootMemory_wf (image : List Word) : Memory.wf (bootMemory image) = true := loadBytes_wf _ _ _

@[simp] theorem SdImage.load_size (raw : List Byte) : (SdImage.load raw).size = raw.length := rfl

theorem SdImage.load_wf (raw : List Byte) : Memory.wf (SdImage.load raw).bytes = true := loadBytes_wf _ _ _

/-- What an SD image's bytes are (R331). -/
theorem readByte_load (raw : List Byte) (b : Nat) : (SdImage.load raw).readByte b = raw.getD b 0#8 := by
  by_cases h : b < raw.length
  · simp [SdImage.readByte, SdImage.load, read_loadBytes, h]
  · simp [SdImage.readByte, SdImage.load, h]

/-- A boot answers the initial state on its images, where the boot image fits in RAM. -/
theorem boot_some {p : Params} {n : Nat} {image : List Word} {raw0 raw1 : List Byte} {sched : List (List HostInput)} {s : State}
    (h : State.boot p n image raw0 raw1 sched = some s) :
    4 * image.length ≤ p.ramSize ∧
      s = State.initial p n (bootMemory image) (SdImage.load raw0) (SdImage.load raw1) sched := by
  unfold State.boot at h
  split at h
  · cases h
  · exact ⟨by omega, (Option.some.inj h).symm⟩

end Sys2Proof.Machine
end

