-- ==== Sys2Proof/Laws/State.lean ====
section
/-! SUPPORT. One lemma per field per update of the state, all true by definition, so that no proof unfolds a record update. -/

namespace Sys2Proof.Machine

/-! ### withCore -/

@[simp] theorem withCore_params (s : State) (c : CoreState) : (s.withCore c).params = s.params := rfl
@[simp] theorem withCore_done (s : State) (c : CoreState) : (s.withCore c).done = s.done := rfl
@[simp] theorem withCore_todo (s : State) (c : CoreState) : (s.withCore c).todo = s.todo := rfl
@[simp] theorem withCore_mem (s : State) (c : CoreState) : (s.withCore c).mem = s.mem := rfl
@[simp] theorem withCore_dev (s : State) (c : CoreState) : (s.withCore c).dev = s.dev := rfl
@[simp] theorem withCore_hostSchedule (s : State) (c : CoreState) : (s.withCore c).hostSchedule = s.hostSchedule := rfl
@[simp] theorem withCore_core (s : State) (c : CoreState) : (s.withCore c).core = c := rfl

/-! ### setFlags -/

@[simp] theorem setFlags_params (s : State) (f : BitVec 4) : (s.setFlags f).params = s.params := rfl
@[simp] theorem setFlags_done (s : State) (f : BitVec 4) : (s.setFlags f).done = s.done := rfl
@[simp] theorem setFlags_todo (s : State) (f : BitVec 4) : (s.setFlags f).todo = s.todo := rfl
@[simp] theorem setFlags_mem (s : State) (f : BitVec 4) : (s.setFlags f).mem = s.mem := rfl
@[simp] theorem setFlags_dev (s : State) (f : BitVec 4) : (s.setFlags f).dev = s.dev := rfl
@[simp] theorem setFlags_hostSchedule (s : State) (f : BitVec 4) : (s.setFlags f).hostSchedule = s.hostSchedule := rfl
@[simp] theorem setFlags_core_gpr (s : State) (f : BitVec 4) : (s.setFlags f).core.gpr = s.core.gpr := rfl
@[simp] theorem setFlags_core_pc (s : State) (f : BitVec 4) : (s.setFlags f).core.pc = s.core.pc := rfl
@[simp] theorem setFlags_core_mode (s : State) (f : BitVec 4) : (s.setFlags f).core.mode = s.core.mode := rfl
@[simp] theorem setFlags_core_modePrev (s : State) (f : BitVec 4) : (s.setFlags f).core.modePrev = s.core.modePrev := rfl
@[simp] theorem setFlags_core_run (s : State) (f : BitVec 4) : (s.setFlags f).core.run = s.core.run := rfl
@[simp] theorem setFlags_core_trapLive (s : State) (f : BitVec 4) : (s.setFlags f).core.trapLive = s.core.trapLive := rfl
@[simp] theorem setFlags_core_pid (s : State) (f : BitVec 4) : (s.setFlags f).core.pid = s.core.pid := rfl
@[simp] theorem setFlags_core_imr (s : State) (f : BitVec 4) : (s.setFlags f).core.imr = s.core.imr := rfl
@[simp] theorem setFlags_core_isr (s : State) (f : BitVec 4) : (s.setFlags f).core.isr = s.core.isr := rfl
@[simp] theorem setFlags_core_epc (s : State) (f : BitVec 4) : (s.setFlags f).core.epc = s.core.epc := rfl
@[simp] theorem setFlags_core_efg (s : State) (f : BitVec 4) : (s.setFlags f).core.efg = s.core.efg := rfl
@[simp] theorem setFlags_core_ksp (s : State) (f : BitVec 4) : (s.setFlags f).core.ksp = s.core.ksp := rfl
@[simp] theorem setFlags_core_isp (s : State) (f : BitVec 4) : (s.setFlags f).core.isp = s.core.isp := rfl
@[simp] theorem setFlags_core_usp (s : State) (f : BitVec 4) : (s.setFlags f).core.usp = s.core.usp := rfl
@[simp] theorem setFlags_core_tlbAddr (s : State) (f : BitVec 4) : (s.setFlags f).core.tlbAddr = s.core.tlbAddr := rfl
@[simp] theorem setFlags_core_mbi (s : State) (f : BitVec 4) : (s.setFlags f).core.mbi = s.core.mbi := rfl
@[simp] theorem setFlags_core_mbo (s : State) (f : BitVec 4) : (s.setFlags f).core.mbo = s.core.mbo := rfl
@[simp] theorem setFlags_core_cdv (s : State) (f : BitVec 4) : (s.setFlags f).core.cdv = s.core.cdv := rfl
@[simp] theorem setFlags_core_cid (s : State) (f : BitVec 4) : (s.setFlags f).core.cid = s.core.cid := rfl
@[simp] theorem setFlags_core_flg (s : State) (f : BitVec 4) : (s.setFlags f).core.flg = f := rfl
@[simp] theorem setFlags_core_tlb (s : State) (f : BitVec 4) : (s.setFlags f).core.tlb = s.core.tlb := rfl
@[simp] theorem setFlags_core_tlbNext (s : State) (f : BitVec 4) : (s.setFlags f).core.tlbNext = s.core.tlbNext := rfl
@[simp] theorem setFlags_core_stuck (s : State) (f : BitVec 4) : (s.setFlags f).core.stuck = s.core.stuck := rfl
@[simp] theorem setFlags_core_written (s : State) (f : BitVec 4) : (s.setFlags f).core.written = s.core.written := rfl

/-! ### advance -/

@[simp] theorem advance_params (s : State) : (s.advance).params = s.params := rfl
@[simp] theorem advance_done (s : State) : (s.advance).done = s.done := rfl
@[simp] theorem advance_todo (s : State) : (s.advance).todo = s.todo := rfl
@[simp] theorem advance_mem (s : State) : (s.advance).mem = s.mem := rfl
@[simp] theorem advance_dev (s : State) : (s.advance).dev = s.dev := rfl
@[simp] theorem advance_hostSchedule (s : State) : (s.advance).hostSchedule = s.hostSchedule := rfl
@[simp] theorem advance_core_gpr (s : State) : (s.advance).core.gpr = s.core.gpr := rfl
@[simp] theorem advance_core_pc (s : State) : (s.advance).core.pc = s.core.pc + 4#32 := rfl
@[simp] theorem advance_core_mode (s : State) : (s.advance).core.mode = s.core.mode := rfl
@[simp] theorem advance_core_modePrev (s : State) : (s.advance).core.modePrev = s.core.modePrev := rfl
@[simp] theorem advance_core_run (s : State) : (s.advance).core.run = s.core.run := rfl
@[simp] theorem advance_core_trapLive (s : State) : (s.advance).core.trapLive = s.core.trapLive := rfl
@[simp] theorem advance_core_pid (s : State) : (s.advance).core.pid = s.core.pid := rfl
@[simp] theorem advance_core_imr (s : State) : (s.advance).core.imr = s.core.imr := rfl
@[simp] theorem advance_core_isr (s : State) : (s.advance).core.isr = s.core.isr := rfl
@[simp] theorem advance_core_epc (s : State) : (s.advance).core.epc = s.core.epc := rfl
@[simp] theorem advance_core_efg (s : State) : (s.advance).core.efg = s.core.efg := rfl
@[simp] theorem advance_core_ksp (s : State) : (s.advance).core.ksp = s.core.ksp := rfl
@[simp] theorem advance_core_isp (s : State) : (s.advance).core.isp = s.core.isp := rfl
@[simp] theorem advance_core_usp (s : State) : (s.advance).core.usp = s.core.usp := rfl
@[simp] theorem advance_core_tlbAddr (s : State) : (s.advance).core.tlbAddr = s.core.tlbAddr := rfl
@[simp] theorem advance_core_mbi (s : State) : (s.advance).core.mbi = s.core.mbi := rfl
@[simp] theorem advance_core_mbo (s : State) : (s.advance).core.mbo = s.core.mbo := rfl
@[simp] theorem advance_core_cdv (s : State) : (s.advance).core.cdv = s.core.cdv := rfl
@[simp] theorem advance_core_cid (s : State) : (s.advance).core.cid = s.core.cid := rfl
@[simp] theorem advance_core_flg (s : State) : (s.advance).core.flg = s.core.flg := rfl
@[simp] theorem advance_core_tlb (s : State) : (s.advance).core.tlb = s.core.tlb := rfl
@[simp] theorem advance_core_tlbNext (s : State) : (s.advance).core.tlbNext = s.core.tlbNext := rfl
@[simp] theorem advance_core_stuck (s : State) : (s.advance).core.stuck = s.core.stuck := rfl
@[simp] theorem advance_core_written (s : State) : (s.advance).core.written = s.core.written := rfl

/-! ### jump -/

@[simp] theorem jump_params (s : State) (a : Word) : (s.jump a).params = s.params := rfl
@[simp] theorem jump_done (s : State) (a : Word) : (s.jump a).done = s.done := rfl
@[simp] theorem jump_todo (s : State) (a : Word) : (s.jump a).todo = s.todo := rfl
@[simp] theorem jump_mem (s : State) (a : Word) : (s.jump a).mem = s.mem := rfl
@[simp] theorem jump_dev (s : State) (a : Word) : (s.jump a).dev = s.dev := rfl
@[simp] theorem jump_hostSchedule (s : State) (a : Word) : (s.jump a).hostSchedule = s.hostSchedule := rfl
@[simp] theorem jump_core_gpr (s : State) (a : Word) : (s.jump a).core.gpr = s.core.gpr := rfl
@[simp] theorem jump_core_pc (s : State) (a : Word) : (s.jump a).core.pc = alignPc a := rfl
@[simp] theorem jump_core_mode (s : State) (a : Word) : (s.jump a).core.mode = s.core.mode := rfl
@[simp] theorem jump_core_modePrev (s : State) (a : Word) : (s.jump a).core.modePrev = s.core.modePrev := rfl
@[simp] theorem jump_core_run (s : State) (a : Word) : (s.jump a).core.run = s.core.run := rfl
@[simp] theorem jump_core_trapLive (s : State) (a : Word) : (s.jump a).core.trapLive = s.core.trapLive := rfl
@[simp] theorem jump_core_pid (s : State) (a : Word) : (s.jump a).core.pid = s.core.pid := rfl
@[simp] theorem jump_core_imr (s : State) (a : Word) : (s.jump a).core.imr = s.core.imr := rfl
@[simp] theorem jump_core_isr (s : State) (a : Word) : (s.jump a).core.isr = s.core.isr := rfl
@[simp] theorem jump_core_epc (s : State) (a : Word) : (s.jump a).core.epc = s.core.epc := rfl
@[simp] theorem jump_core_efg (s : State) (a : Word) : (s.jump a).core.efg = s.core.efg := rfl
@[simp] theorem jump_core_ksp (s : State) (a : Word) : (s.jump a).core.ksp = s.core.ksp := rfl
@[simp] theorem jump_core_isp (s : State) (a : Word) : (s.jump a).core.isp = s.core.isp := rfl
@[simp] theorem jump_core_usp (s : State) (a : Word) : (s.jump a).core.usp = s.core.usp := rfl
@[simp] theorem jump_core_tlbAddr (s : State) (a : Word) : (s.jump a).core.tlbAddr = s.core.tlbAddr := rfl
@[simp] theorem jump_core_mbi (s : State) (a : Word) : (s.jump a).core.mbi = s.core.mbi := rfl
@[simp] theorem jump_core_mbo (s : State) (a : Word) : (s.jump a).core.mbo = s.core.mbo := rfl
@[simp] theorem jump_core_cdv (s : State) (a : Word) : (s.jump a).core.cdv = s.core.cdv := rfl
@[simp] theorem jump_core_cid (s : State) (a : Word) : (s.jump a).core.cid = s.core.cid := rfl
@[simp] theorem jump_core_flg (s : State) (a : Word) : (s.jump a).core.flg = s.core.flg := rfl
@[simp] theorem jump_core_tlb (s : State) (a : Word) : (s.jump a).core.tlb = s.core.tlb := rfl
@[simp] theorem jump_core_tlbNext (s : State) (a : Word) : (s.jump a).core.tlbNext = s.core.tlbNext := rfl
@[simp] theorem jump_core_stuck (s : State) (a : Word) : (s.jump a).core.stuck = s.core.stuck := rfl
@[simp] theorem jump_core_written (s : State) (a : Word) : (s.jump a).core.written = s.core.written := rfl

/-! ### setRun -/

@[simp] theorem setRun_params (s : State) (r : RunState) : (s.setRun r).params = s.params := rfl
@[simp] theorem setRun_done (s : State) (r : RunState) : (s.setRun r).done = s.done := rfl
@[simp] theorem setRun_todo (s : State) (r : RunState) : (s.setRun r).todo = s.todo := rfl
@[simp] theorem setRun_mem (s : State) (r : RunState) : (s.setRun r).mem = s.mem := rfl
@[simp] theorem setRun_dev (s : State) (r : RunState) : (s.setRun r).dev = s.dev := rfl
@[simp] theorem setRun_hostSchedule (s : State) (r : RunState) : (s.setRun r).hostSchedule = s.hostSchedule := rfl
@[simp] theorem setRun_core_gpr (s : State) (r : RunState) : (s.setRun r).core.gpr = s.core.gpr := rfl
@[simp] theorem setRun_core_pc (s : State) (r : RunState) : (s.setRun r).core.pc = s.core.pc := rfl
@[simp] theorem setRun_core_mode (s : State) (r : RunState) : (s.setRun r).core.mode = s.core.mode := rfl
@[simp] theorem setRun_core_modePrev (s : State) (r : RunState) : (s.setRun r).core.modePrev = s.core.modePrev := rfl
@[simp] theorem setRun_core_run (s : State) (r : RunState) : (s.setRun r).core.run = r := rfl
@[simp] theorem setRun_core_trapLive (s : State) (r : RunState) : (s.setRun r).core.trapLive = s.core.trapLive := rfl
@[simp] theorem setRun_core_pid (s : State) (r : RunState) : (s.setRun r).core.pid = s.core.pid := rfl
@[simp] theorem setRun_core_imr (s : State) (r : RunState) : (s.setRun r).core.imr = s.core.imr := rfl
@[simp] theorem setRun_core_isr (s : State) (r : RunState) : (s.setRun r).core.isr = s.core.isr := rfl
@[simp] theorem setRun_core_epc (s : State) (r : RunState) : (s.setRun r).core.epc = s.core.epc := rfl
@[simp] theorem setRun_core_efg (s : State) (r : RunState) : (s.setRun r).core.efg = s.core.efg := rfl
@[simp] theorem setRun_core_ksp (s : State) (r : RunState) : (s.setRun r).core.ksp = s.core.ksp := rfl
@[simp] theorem setRun_core_isp (s : State) (r : RunState) : (s.setRun r).core.isp = s.core.isp := rfl
@[simp] theorem setRun_core_usp (s : State) (r : RunState) : (s.setRun r).core.usp = s.core.usp := rfl
@[simp] theorem setRun_core_tlbAddr (s : State) (r : RunState) : (s.setRun r).core.tlbAddr = s.core.tlbAddr := rfl
@[simp] theorem setRun_core_mbi (s : State) (r : RunState) : (s.setRun r).core.mbi = s.core.mbi := rfl
@[simp] theorem setRun_core_mbo (s : State) (r : RunState) : (s.setRun r).core.mbo = s.core.mbo := rfl
@[simp] theorem setRun_core_cdv (s : State) (r : RunState) : (s.setRun r).core.cdv = s.core.cdv := rfl
@[simp] theorem setRun_core_cid (s : State) (r : RunState) : (s.setRun r).core.cid = s.core.cid := rfl
@[simp] theorem setRun_core_flg (s : State) (r : RunState) : (s.setRun r).core.flg = s.core.flg := rfl
@[simp] theorem setRun_core_tlb (s : State) (r : RunState) : (s.setRun r).core.tlb = s.core.tlb := rfl
@[simp] theorem setRun_core_tlbNext (s : State) (r : RunState) : (s.setRun r).core.tlbNext = s.core.tlbNext := rfl
@[simp] theorem setRun_core_stuck (s : State) (r : RunState) : (s.setRun r).core.stuck = s.core.stuck := rfl
@[simp] theorem setRun_core_written (s : State) (r : RunState) : (s.setRun r).core.written = s.core.written := rfl

/-! ### returnTo -/

@[simp] theorem returnTo_params (s : State) (m : Mode) (f : BitVec 4) : (returnTo s m f).params = s.params := rfl
@[simp] theorem returnTo_done (s : State) (m : Mode) (f : BitVec 4) : (returnTo s m f).done = s.done := rfl
@[simp] theorem returnTo_todo (s : State) (m : Mode) (f : BitVec 4) : (returnTo s m f).todo = s.todo := rfl
@[simp] theorem returnTo_mem (s : State) (m : Mode) (f : BitVec 4) : (returnTo s m f).mem = s.mem := rfl
@[simp] theorem returnTo_dev (s : State) (m : Mode) (f : BitVec 4) : (returnTo s m f).dev = s.dev := rfl
@[simp] theorem returnTo_hostSchedule (s : State) (m : Mode) (f : BitVec 4) : (returnTo s m f).hostSchedule = s.hostSchedule := rfl
@[simp] theorem returnTo_core_gpr (s : State) (m : Mode) (f : BitVec 4) : (returnTo s m f).core.gpr = s.core.gpr := rfl
@[simp] theorem returnTo_core_pc (s : State) (m : Mode) (f : BitVec 4) : (returnTo s m f).core.pc = alignPc s.core.epc := rfl
@[simp] theorem returnTo_core_mode (s : State) (m : Mode) (f : BitVec 4) : (returnTo s m f).core.mode = m := rfl
@[simp] theorem returnTo_core_modePrev (s : State) (m : Mode) (f : BitVec 4) : (returnTo s m f).core.modePrev = s.core.modePrev := rfl
@[simp] theorem returnTo_core_run (s : State) (m : Mode) (f : BitVec 4) : (returnTo s m f).core.run = s.core.run := rfl
@[simp] theorem returnTo_core_trapLive (s : State) (m : Mode) (f : BitVec 4) : (returnTo s m f).core.trapLive = false := rfl
@[simp] theorem returnTo_core_pid (s : State) (m : Mode) (f : BitVec 4) : (returnTo s m f).core.pid = s.core.pid := rfl
@[simp] theorem returnTo_core_imr (s : State) (m : Mode) (f : BitVec 4) : (returnTo s m f).core.imr = s.core.imr := rfl
@[simp] theorem returnTo_core_isr (s : State) (m : Mode) (f : BitVec 4) : (returnTo s m f).core.isr = s.core.isr := rfl
@[simp] theorem returnTo_core_epc (s : State) (m : Mode) (f : BitVec 4) : (returnTo s m f).core.epc = s.core.epc := rfl
@[simp] theorem returnTo_core_efg (s : State) (m : Mode) (f : BitVec 4) : (returnTo s m f).core.efg = s.core.efg := rfl
@[simp] theorem returnTo_core_ksp (s : State) (m : Mode) (f : BitVec 4) : (returnTo s m f).core.ksp = s.core.ksp := rfl
@[simp] theorem returnTo_core_isp (s : State) (m : Mode) (f : BitVec 4) : (returnTo s m f).core.isp = s.core.isp := rfl
@[simp] theorem returnTo_core_usp (s : State) (m : Mode) (f : BitVec 4) : (returnTo s m f).core.usp = s.core.usp := rfl
@[simp] theorem returnTo_core_tlbAddr (s : State) (m : Mode) (f : BitVec 4) : (returnTo s m f).core.tlbAddr = s.core.tlbAddr := rfl
@[simp] theorem returnTo_core_mbi (s : State) (m : Mode) (f : BitVec 4) : (returnTo s m f).core.mbi = s.core.mbi := rfl
@[simp] theorem returnTo_core_mbo (s : State) (m : Mode) (f : BitVec 4) : (returnTo s m f).core.mbo = s.core.mbo := rfl
@[simp] theorem returnTo_core_cdv (s : State) (m : Mode) (f : BitVec 4) : (returnTo s m f).core.cdv = s.core.cdv := rfl
@[simp] theorem returnTo_core_cid (s : State) (m : Mode) (f : BitVec 4) : (returnTo s m f).core.cid = s.core.cid := rfl
@[simp] theorem returnTo_core_flg (s : State) (m : Mode) (f : BitVec 4) : (returnTo s m f).core.flg = f := rfl
@[simp] theorem returnTo_core_tlb (s : State) (m : Mode) (f : BitVec 4) : (returnTo s m f).core.tlb = s.core.tlb := rfl
@[simp] theorem returnTo_core_tlbNext (s : State) (m : Mode) (f : BitVec 4) : (returnTo s m f).core.tlbNext = s.core.tlbNext := rfl
@[simp] theorem returnTo_core_stuck (s : State) (m : Mode) (f : BitVec 4) : (returnTo s m f).core.stuck = s.core.stuck := rfl
@[simp] theorem returnTo_core_written (s : State) (m : Mode) (f : BitVec 4) : (returnTo s m f).core.written = s.core.written := rfl

/-! ### trapEntry -/

@[simp] theorem trapEntry_params (s : State) (v : BitVec 8) (e : Word) (m : Mode) : (trapEntry s v e m).params = s.params := rfl
@[simp] theorem trapEntry_done (s : State) (v : BitVec 8) (e : Word) (m : Mode) : (trapEntry s v e m).done = s.done := rfl
@[simp] theorem trapEntry_todo (s : State) (v : BitVec 8) (e : Word) (m : Mode) : (trapEntry s v e m).todo = s.todo := rfl
@[simp] theorem trapEntry_mem (s : State) (v : BitVec 8) (e : Word) (m : Mode) : (trapEntry s v e m).mem = s.mem := rfl
@[simp] theorem trapEntry_dev (s : State) (v : BitVec 8) (e : Word) (m : Mode) : (trapEntry s v e m).dev = s.dev := rfl
@[simp] theorem trapEntry_hostSchedule (s : State) (v : BitVec 8) (e : Word) (m : Mode) : (trapEntry s v e m).hostSchedule = s.hostSchedule := rfl
@[simp] theorem trapEntry_core_gpr (s : State) (v : BitVec 8) (e : Word) (m : Mode) : (trapEntry s v e m).core.gpr = s.core.gpr := rfl
@[simp] theorem trapEntry_core_pc (s : State) (v : BitVec 8) (e : Word) (m : Mode) : (trapEntry s v e m).core.pc = alignPc (ivtEntry s v) := rfl
@[simp] theorem trapEntry_core_mode (s : State) (v : BitVec 8) (e : Word) (m : Mode) : (trapEntry s v e m).core.mode = m := rfl
@[simp] theorem trapEntry_core_modePrev (s : State) (v : BitVec 8) (e : Word) (m : Mode) : (trapEntry s v e m).core.modePrev = s.core.mode := rfl
@[simp] theorem trapEntry_core_run (s : State) (v : BitVec 8) (e : Word) (m : Mode) : (trapEntry s v e m).core.run = s.core.run := rfl
@[simp] theorem trapEntry_core_trapLive (s : State) (v : BitVec 8) (e : Word) (m : Mode) : (trapEntry s v e m).core.trapLive = true := rfl
@[simp] theorem trapEntry_core_pid (s : State) (v : BitVec 8) (e : Word) (m : Mode) : (trapEntry s v e m).core.pid = s.core.pid := rfl
@[simp] theorem trapEntry_core_imr (s : State) (v : BitVec 8) (e : Word) (m : Mode) : (trapEntry s v e m).core.imr = s.core.imr := rfl
@[simp] theorem trapEntry_core_isr (s : State) (v : BitVec 8) (e : Word) (m : Mode) : (trapEntry s v e m).core.isr = s.core.isr := rfl
@[simp] theorem trapEntry_core_epc (s : State) (v : BitVec 8) (e : Word) (m : Mode) : (trapEntry s v e m).core.epc = e := rfl
@[simp] theorem trapEntry_core_efg (s : State) (v : BitVec 8) (e : Word) (m : Mode) : (trapEntry s v e m).core.efg = s.core.flg := rfl
@[simp] theorem trapEntry_core_ksp (s : State) (v : BitVec 8) (e : Word) (m : Mode) : (trapEntry s v e m).core.ksp = s.core.ksp := rfl
@[simp] theorem trapEntry_core_isp (s : State) (v : BitVec 8) (e : Word) (m : Mode) : (trapEntry s v e m).core.isp = s.core.isp := rfl
@[simp] theorem trapEntry_core_usp (s : State) (v : BitVec 8) (e : Word) (m : Mode) : (trapEntry s v e m).core.usp = s.core.usp := rfl
@[simp] theorem trapEntry_core_tlbAddr (s : State) (v : BitVec 8) (e : Word) (m : Mode) : (trapEntry s v e m).core.tlbAddr = s.core.tlbAddr := rfl
@[simp] theorem trapEntry_core_mbi (s : State) (v : BitVec 8) (e : Word) (m : Mode) : (trapEntry s v e m).core.mbi = s.core.mbi := rfl
@[simp] theorem trapEntry_core_mbo (s : State) (v : BitVec 8) (e : Word) (m : Mode) : (trapEntry s v e m).core.mbo = s.core.mbo := rfl
@[simp] theorem trapEntry_core_cdv (s : State) (v : BitVec 8) (e : Word) (m : Mode) : (trapEntry s v e m).core.cdv = s.core.cdv := rfl
@[simp] theorem trapEntry_core_cid (s : State) (v : BitVec 8) (e : Word) (m : Mode) : (trapEntry s v e m).core.cid = s.core.cid := rfl
@[simp] theorem trapEntry_core_flg (s : State) (v : BitVec 8) (e : Word) (m : Mode) : (trapEntry s v e m).core.flg = s.core.flg := rfl
@[simp] theorem trapEntry_core_tlb (s : State) (v : BitVec 8) (e : Word) (m : Mode) : (trapEntry s v e m).core.tlb = s.core.tlb := rfl
@[simp] theorem trapEntry_core_tlbNext (s : State) (v : BitVec 8) (e : Word) (m : Mode) : (trapEntry s v e m).core.tlbNext = s.core.tlbNext := rfl
@[simp] theorem trapEntry_core_stuck (s : State) (v : BitVec 8) (e : Word) (m : Mode) :
    (trapEntry s v e m).core.stuck = s.core.stuck := rfl
@[simp] theorem trapEntry_core_written (s : State) (v : BitVec 8) (e : Word) (m : Mode) :
    (trapEntry s v e m).core.written = { s.core.written with epc := true, efg := true } := rfl

/-! ### stick -/

@[simp] theorem stick_params (s : State) : (s.stick).params = s.params := rfl
@[simp] theorem stick_done (s : State) : (s.stick).done = s.done := rfl
@[simp] theorem stick_todo (s : State) : (s.stick).todo = s.todo := rfl
@[simp] theorem stick_mem (s : State) : (s.stick).mem = s.mem := rfl
@[simp] theorem stick_dev (s : State) : (s.stick).dev = s.dev := rfl
@[simp] theorem stick_hostSchedule (s : State) : (s.stick).hostSchedule = s.hostSchedule := rfl
@[simp] theorem stick_core_gpr (s : State) : (s.stick).core.gpr = s.core.gpr := rfl
@[simp] theorem stick_core_pc (s : State) : (s.stick).core.pc = s.core.pc := rfl
@[simp] theorem stick_core_mode (s : State) : (s.stick).core.mode = s.core.mode := rfl
@[simp] theorem stick_core_modePrev (s : State) : (s.stick).core.modePrev = s.core.modePrev := rfl
@[simp] theorem stick_core_run (s : State) : (s.stick).core.run = s.core.run := rfl
@[simp] theorem stick_core_trapLive (s : State) : (s.stick).core.trapLive = s.core.trapLive := rfl
@[simp] theorem stick_core_pid (s : State) : (s.stick).core.pid = s.core.pid := rfl
@[simp] theorem stick_core_imr (s : State) : (s.stick).core.imr = s.core.imr := rfl
@[simp] theorem stick_core_isr (s : State) : (s.stick).core.isr = s.core.isr := rfl
@[simp] theorem stick_core_epc (s : State) : (s.stick).core.epc = s.core.epc := rfl
@[simp] theorem stick_core_efg (s : State) : (s.stick).core.efg = s.core.efg := rfl
@[simp] theorem stick_core_ksp (s : State) : (s.stick).core.ksp = s.core.ksp := rfl
@[simp] theorem stick_core_isp (s : State) : (s.stick).core.isp = s.core.isp := rfl
@[simp] theorem stick_core_usp (s : State) : (s.stick).core.usp = s.core.usp := rfl
@[simp] theorem stick_core_tlbAddr (s : State) : (s.stick).core.tlbAddr = s.core.tlbAddr := rfl
@[simp] theorem stick_core_mbi (s : State) : (s.stick).core.mbi = s.core.mbi := rfl
@[simp] theorem stick_core_mbo (s : State) : (s.stick).core.mbo = s.core.mbo := rfl
@[simp] theorem stick_core_cdv (s : State) : (s.stick).core.cdv = s.core.cdv := rfl
@[simp] theorem stick_core_cid (s : State) : (s.stick).core.cid = s.core.cid := rfl
@[simp] theorem stick_core_flg (s : State) : (s.stick).core.flg = s.core.flg := rfl
@[simp] theorem stick_core_tlb (s : State) : (s.stick).core.tlb = s.core.tlb := rfl
@[simp] theorem stick_core_tlbNext (s : State) : (s.stick).core.tlbNext = s.core.tlbNext := rfl
@[simp] theorem stick_core_stuck (s : State) : (s.stick).core.stuck = true := rfl
@[simp] theorem stick_core_written (s : State) : (s.stick).core.written = s.core.written := rfl

/-! ### setTlbAddr -/

@[simp] theorem setTlbAddr_params (s : State) (va : Word) : (s.setTlbAddr va).params = s.params := rfl
@[simp] theorem setTlbAddr_done (s : State) (va : Word) : (s.setTlbAddr va).done = s.done := rfl
@[simp] theorem setTlbAddr_todo (s : State) (va : Word) : (s.setTlbAddr va).todo = s.todo := rfl
@[simp] theorem setTlbAddr_mem (s : State) (va : Word) : (s.setTlbAddr va).mem = s.mem := rfl
@[simp] theorem setTlbAddr_dev (s : State) (va : Word) : (s.setTlbAddr va).dev = s.dev := rfl
@[simp] theorem setTlbAddr_hostSchedule (s : State) (va : Word) : (s.setTlbAddr va).hostSchedule = s.hostSchedule := rfl
@[simp] theorem setTlbAddr_core_gpr (s : State) (va : Word) : (s.setTlbAddr va).core.gpr = s.core.gpr := rfl
@[simp] theorem setTlbAddr_core_pc (s : State) (va : Word) : (s.setTlbAddr va).core.pc = s.core.pc := rfl
@[simp] theorem setTlbAddr_core_mode (s : State) (va : Word) : (s.setTlbAddr va).core.mode = s.core.mode := rfl
@[simp] theorem setTlbAddr_core_modePrev (s : State) (va : Word) : (s.setTlbAddr va).core.modePrev = s.core.modePrev := rfl
@[simp] theorem setTlbAddr_core_run (s : State) (va : Word) : (s.setTlbAddr va).core.run = s.core.run := rfl
@[simp] theorem setTlbAddr_core_trapLive (s : State) (va : Word) : (s.setTlbAddr va).core.trapLive = s.core.trapLive := rfl
@[simp] theorem setTlbAddr_core_pid (s : State) (va : Word) : (s.setTlbAddr va).core.pid = s.core.pid := rfl
@[simp] theorem setTlbAddr_core_imr (s : State) (va : Word) : (s.setTlbAddr va).core.imr = s.core.imr := rfl
@[simp] theorem setTlbAddr_core_isr (s : State) (va : Word) : (s.setTlbAddr va).core.isr = s.core.isr := rfl
@[simp] theorem setTlbAddr_core_epc (s : State) (va : Word) : (s.setTlbAddr va).core.epc = s.core.epc := rfl
@[simp] theorem setTlbAddr_core_efg (s : State) (va : Word) : (s.setTlbAddr va).core.efg = s.core.efg := rfl
@[simp] theorem setTlbAddr_core_ksp (s : State) (va : Word) : (s.setTlbAddr va).core.ksp = s.core.ksp := rfl
@[simp] theorem setTlbAddr_core_isp (s : State) (va : Word) : (s.setTlbAddr va).core.isp = s.core.isp := rfl
@[simp] theorem setTlbAddr_core_usp (s : State) (va : Word) : (s.setTlbAddr va).core.usp = s.core.usp := rfl
@[simp] theorem setTlbAddr_core_tlbAddr (s : State) (va : Word) : (s.setTlbAddr va).core.tlbAddr = va := rfl
@[simp] theorem setTlbAddr_core_mbi (s : State) (va : Word) : (s.setTlbAddr va).core.mbi = s.core.mbi := rfl
@[simp] theorem setTlbAddr_core_mbo (s : State) (va : Word) : (s.setTlbAddr va).core.mbo = s.core.mbo := rfl
@[simp] theorem setTlbAddr_core_cdv (s : State) (va : Word) : (s.setTlbAddr va).core.cdv = s.core.cdv := rfl
@[simp] theorem setTlbAddr_core_cid (s : State) (va : Word) : (s.setTlbAddr va).core.cid = s.core.cid := rfl
@[simp] theorem setTlbAddr_core_flg (s : State) (va : Word) : (s.setTlbAddr va).core.flg = s.core.flg := rfl
@[simp] theorem setTlbAddr_core_tlb (s : State) (va : Word) : (s.setTlbAddr va).core.tlb = s.core.tlb := rfl
@[simp] theorem setTlbAddr_core_tlbNext (s : State) (va : Word) : (s.setTlbAddr va).core.tlbNext = s.core.tlbNext := rfl
@[simp] theorem setTlbAddr_core_stuck (s : State) (va : Word) : (s.setTlbAddr va).core.stuck = s.core.stuck := rfl
@[simp] theorem setTlbAddr_core_written (s : State) (va : Word) : (s.setTlbAddr va).core.written =
    { s.core.written with tlbAddr := true } := rfl

/-! ### setReg: r0 discards, r31 is a stack pointer, r1..r30 are storage -/

@[simp] theorem core_setReg_pc (c : CoreState) (r : Reg) (v : Word) : (c.setReg r v).pc = c.pc := by
  unfold CoreState.setReg CoreState.writeTarget; split <;> rfl
@[simp] theorem core_setReg_mode (c : CoreState) (r : Reg) (v : Word) : (c.setReg r v).mode = c.mode := by
  unfold CoreState.setReg CoreState.writeTarget; split <;> rfl
@[simp] theorem core_setReg_modePrev (c : CoreState) (r : Reg) (v : Word) : (c.setReg r v).modePrev = c.modePrev := by
  unfold CoreState.setReg CoreState.writeTarget; split <;> rfl
@[simp] theorem core_setReg_run (c : CoreState) (r : Reg) (v : Word) : (c.setReg r v).run = c.run := by
  unfold CoreState.setReg CoreState.writeTarget; split <;> rfl
@[simp] theorem core_setReg_trapLive (c : CoreState) (r : Reg) (v : Word) : (c.setReg r v).trapLive = c.trapLive := by
  unfold CoreState.setReg CoreState.writeTarget; split <;> rfl
@[simp] theorem core_setReg_pid (c : CoreState) (r : Reg) (v : Word) : (c.setReg r v).pid = c.pid := by
  unfold CoreState.setReg CoreState.writeTarget; split <;> rfl
@[simp] theorem core_setReg_imr (c : CoreState) (r : Reg) (v : Word) : (c.setReg r v).imr = c.imr := by
  unfold CoreState.setReg CoreState.writeTarget; split <;> rfl
@[simp] theorem core_setReg_isr (c : CoreState) (r : Reg) (v : Word) : (c.setReg r v).isr = c.isr := by
  unfold CoreState.setReg CoreState.writeTarget; split <;> rfl
@[simp] theorem core_setReg_epc (c : CoreState) (r : Reg) (v : Word) : (c.setReg r v).epc = c.epc := by
  unfold CoreState.setReg CoreState.writeTarget; split <;> rfl
@[simp] theorem core_setReg_efg (c : CoreState) (r : Reg) (v : Word) : (c.setReg r v).efg = c.efg := by
  unfold CoreState.setReg CoreState.writeTarget; split <;> rfl
@[simp] theorem core_setReg_tlbAddr (c : CoreState) (r : Reg) (v : Word) : (c.setReg r v).tlbAddr = c.tlbAddr := by
  unfold CoreState.setReg CoreState.writeTarget; split <;> rfl
@[simp] theorem core_setReg_mbi (c : CoreState) (r : Reg) (v : Word) : (c.setReg r v).mbi = c.mbi := by
  unfold CoreState.setReg CoreState.writeTarget; split <;> rfl
@[simp] theorem core_setReg_mbo (c : CoreState) (r : Reg) (v : Word) : (c.setReg r v).mbo = c.mbo := by
  unfold CoreState.setReg CoreState.writeTarget; split <;> rfl
@[simp] theorem core_setReg_cdv (c : CoreState) (r : Reg) (v : Word) : (c.setReg r v).cdv = c.cdv := by
  unfold CoreState.setReg CoreState.writeTarget; split <;> rfl
@[simp] theorem core_setReg_cid (c : CoreState) (r : Reg) (v : Word) : (c.setReg r v).cid = c.cid := by
  unfold CoreState.setReg CoreState.writeTarget; split <;> rfl
@[simp] theorem core_setReg_flg (c : CoreState) (r : Reg) (v : Word) : (c.setReg r v).flg = c.flg := by
  unfold CoreState.setReg CoreState.writeTarget; split <;> rfl
@[simp] theorem core_setReg_tlb (c : CoreState) (r : Reg) (v : Word) : (c.setReg r v).tlb = c.tlb := by
  unfold CoreState.setReg CoreState.writeTarget; split <;> rfl
@[simp] theorem core_setReg_tlbNext (c : CoreState) (r : Reg) (v : Word) : (c.setReg r v).tlbNext = c.tlbNext := by
  unfold CoreState.setReg CoreState.writeTarget; split <;> rfl
@[simp] theorem core_setReg_stuck (c : CoreState) (r : Reg) (v : Word) : (c.setReg r v).stuck = c.stuck := by
  unfold CoreState.setReg CoreState.writeTarget; split <;> rfl

@[simp] theorem setReg_params (s : State) (r : Reg) (v : Word) : (s.setReg r v).params = s.params := rfl
@[simp] theorem setReg_done (s : State) (r : Reg) (v : Word) : (s.setReg r v).done = s.done := rfl
@[simp] theorem setReg_todo (s : State) (r : Reg) (v : Word) : (s.setReg r v).todo = s.todo := rfl
@[simp] theorem setReg_mem (s : State) (r : Reg) (v : Word) : (s.setReg r v).mem = s.mem := rfl
@[simp] theorem setReg_dev (s : State) (r : Reg) (v : Word) : (s.setReg r v).dev = s.dev := rfl
@[simp] theorem setReg_hostSchedule (s : State) (r : Reg) (v : Word) : (s.setReg r v).hostSchedule = s.hostSchedule := rfl
@[simp] theorem setReg_core (s : State) (r : Reg) (v : Word) : (s.setReg r v).core = s.core.setReg r v := rfl

/-! ### setSlot -/

@[simp] theorem setSlot_params (s : State) (i : SlotId) (d : SdSlot) : (s.setSlot i d).params = s.params := rfl
@[simp] theorem setSlot_done (s : State) (i : SlotId) (d : SdSlot) : (s.setSlot i d).done = s.done := rfl
@[simp] theorem setSlot_core (s : State) (i : SlotId) (d : SdSlot) : (s.setSlot i d).core = s.core := rfl
@[simp] theorem setSlot_todo (s : State) (i : SlotId) (d : SdSlot) : (s.setSlot i d).todo = s.todo := rfl
@[simp] theorem setSlot_mem (s : State) (i : SlotId) (d : SdSlot) : (s.setSlot i d).mem = s.mem := rfl
@[simp] theorem setSlot_hostSchedule (s : State) (i : SlotId) (d : SdSlot) : (s.setSlot i d).hostSchedule = s.hostSchedule := rfl
@[simp] theorem setSlot_dev (s : State) (i : SlotId) (d : SdSlot) : (s.setSlot i d).dev = s.dev.setSlot i d := rfl

@[simp] theorem slot_setSlot_same (d : Devices) (i : SlotId) (x : SdSlot) : (d.setSlot i x).slot i = x := by
  cases i <;> rfl

theorem slot_setSlot_other (d : Devices) (i j : SlotId) (x : SdSlot) (h : j ≠ i) :
    (d.setSlot i x).slot j = d.slot j := by
  cases i <;> cases j <;> first | rfl | exact absurd rfl h

/-! ### mapCores -/

@[simp] theorem mapCores_params (s : State) (f : CoreState → CoreState) : (s.mapCores f).params = s.params := rfl
@[simp] theorem mapCores_mem (s : State) (f : CoreState → CoreState) : (s.mapCores f).mem = s.mem := rfl
@[simp] theorem mapCores_dev (s : State) (f : CoreState → CoreState) : (s.mapCores f).dev = s.dev := rfl
@[simp] theorem mapCores_hostSchedule (s : State) (f : CoreState → CoreState) : (s.mapCores f).hostSchedule = s.hostSchedule := rfl
@[simp] theorem mapCores_core (s : State) (f : CoreState → CoreState) : (s.mapCores f).core = f s.core := rfl
@[simp] theorem mapCores_done (s : State) (f : CoreState → CoreState) : (s.mapCores f).done = s.done.map f := rfl
@[simp] theorem mapCores_todo (s : State) (f : CoreState → CoreState) : (s.mapCores f).todo = s.todo.map f := rfl
@[simp] theorem mapCores_cores (s : State) (f : CoreState → CoreState) : (s.mapCores f).cores = s.cores.map f := by
  simp [State.cores]

/-! ### modifyCore -/

@[simp] theorem modifyCore_params (s : State) (t : Nat) (f : CoreState → CoreState) :
    (s.modifyCore t f).params = s.params := by unfold State.modifyCore; split <;> (try split) <;> rfl
@[simp] theorem modifyCore_mem (s : State) (t : Nat) (f : CoreState → CoreState) :
    (s.modifyCore t f).mem = s.mem := by unfold State.modifyCore; split <;> (try split) <;> rfl
@[simp] theorem modifyCore_dev (s : State) (t : Nat) (f : CoreState → CoreState) :
    (s.modifyCore t f).dev = s.dev := by unfold State.modifyCore; split <;> (try split) <;> rfl
@[simp] theorem modifyCore_hostSchedule (s : State) (t : Nat) (f : CoreState → CoreState) :
    (s.modifyCore t f).hostSchedule = s.hostSchedule := by unfold State.modifyCore; split <;> (try split) <;> rfl

theorem modify_at_middle {α : Type} (f : α → α) (l : List α) (x : α) (r : List α) (t : Nat) :
    (l ++ x :: r).modify t f =
      if t < l.length then l.modify t f ++ x :: r
      else if t = l.length then l ++ f x :: r
      else l ++ x :: r.modify (t - l.length - 1) f := by
  induction l generalizing t with
  | nil => cases t <;> simp [List.modify_cons]
  | cons y l ih =>
    cases t with
    | zero => simp [List.modify_cons]
    | succ t =>
      simp only [List.cons_append, List.modify_succ_cons, ih, List.length_cons, Nat.add_lt_add_iff_right,
        Nat.add_right_cancel_iff, Nat.add_sub_add_right]
      split <;> (try split) <;> rfl

/-- modifyCore changes exactly the core of that index in cid order. -/
theorem modifyCore_cores (s : State) (t : Nat) (f : CoreState → CoreState) :
    (s.modifyCore t f).cores = s.cores.modify t f := by
  rw [State.cores, State.cores, modify_at_middle, State.modifyCore]
  split <;> (try split) <;> rfl

end Sys2Proof.Machine
end

