-- ==== Sys2Proof/Laws/Bus.lean ====
section
/-! SUPPORT. The physical bus: what a read and a write answer and what they leave alone (spec/20_memory.md R77 to R83). -/

namespace Sys2Proof.Machine

/-! ### What PhysRead leaves alone -/

@[simp] theorem physRead_params (s : State) (pa : Word) (w : Width) : (physRead s pa w).2.params = s.params := by
  unfold physRead; split <;> rfl
@[simp] theorem physRead_done (s : State) (pa : Word) (w : Width) : (physRead s pa w).2.done = s.done := by
  unfold physRead; split <;> rfl
@[simp] theorem physRead_core (s : State) (pa : Word) (w : Width) : (physRead s pa w).2.core = s.core := by
  unfold physRead; split <;> rfl
@[simp] theorem physRead_todo (s : State) (pa : Word) (w : Width) : (physRead s pa w).2.todo = s.todo := by
  unfold physRead; split <;> rfl
@[simp] theorem physRead_mem (s : State) (pa : Word) (w : Width) : (physRead s pa w).2.mem = s.mem := by
  unfold physRead; split <;> rfl
@[simp] theorem physRead_hostSchedule (s : State) (pa : Word) (w : Width) :
    (physRead s pa w).2.hostSchedule = s.hostSchedule := by
  unfold physRead; split <;> rfl

/-! ### What PhysWrite leaves alone -/

@[simp] theorem physWrite_params (s : State) (pa : Word) (w : Width) (v : Word) : (physWrite s pa w v).params = s.params := by
  unfold physWrite; split <;> rfl
@[simp] theorem physWrite_done (s : State) (pa : Word) (w : Width) (v : Word) : (physWrite s pa w v).done = s.done := by
  unfold physWrite; split <;> rfl
@[simp] theorem physWrite_core (s : State) (pa : Word) (w : Width) (v : Word) : (physWrite s pa w v).core = s.core := by
  unfold physWrite; split <;> rfl
@[simp] theorem physWrite_todo (s : State) (pa : Word) (w : Width) (v : Word) : (physWrite s pa w v).todo = s.todo := by
  unfold physWrite; split <;> rfl
@[simp] theorem physWrite_hostSchedule (s : State) (pa : Word) (w : Width) (v : Word) :
    (physWrite s pa w v).hostSchedule = s.hostSchedule := by
  unfold physWrite; split <;> rfl

/-! ### Where the devices lie -/

/-- The port window (R82). -/
theorem portWindow_has (a : Nat) : portWindow.has a = true ↔ 0x07FE5800 ≤ a ∧ a ≤ 0x07FE5B4F := by
  unfold Region.has; rw [Bool.and_eq_true, decide_eq_true_eq, decide_eq_true_eq]; rfl

/-- The four VGA regions (R81). -/
theorem storageRegions_has (a : Nat) : storageRegions.any (·.has a) = true ↔
    (0x07FBD000 ≤ a ∧ a ≤ 0x07FBFFFF) ∨ (0x07FC0000 ≤ a ∧ a ≤ 0x07FDFFFF) ∨ (0x07FE8000 ≤ a ∧ a ≤ 0x07FEFFFF) ∨
      (0x07FF0000 ≤ a ∧ a ≤ 0x07FFFFFF) := by
  simp [Region.has, storageRegions]

/-! ### What they answer -/

/-- A bus read, by the place it goes to. -/
theorem physRead_readsAs (s : State) (pa : Word) (w : Width) :
    ReadsAs s pa w (physRead s pa w).1 (physRead s pa w).2.dev := by
  unfold physRead
  refine ⟨fun h => ?_, fun h => ?_, fun h => ?_⟩ <;> rw [h]
  · exact ⟨readLE_bytesAre _ _ _, rfl⟩
  · exact ⟨rfl, rfl⟩
  · exact ⟨rfl, rfl⟩

/-- A bus write, by the place it goes to. -/
theorem physWrite_writesAs (s : State) (hm : Memory.wf s.mem = true) (pa : Word) (w : Width) (v : Word) :
    WritesAs s pa w v (physWrite s pa w v).mem (physWrite s pa w v).dev := by
  unfold physWrite
  refine ⟨fun h => ?_, fun h => ?_, fun h => ?_⟩ <;> rw [h]
  · exact ⟨writeLE_storesBytes hm _ _ _, rfl⟩
  · exact ⟨fun _ => rfl, rfl⟩
  · exact ⟨fun _ => rfl, rfl⟩

/-- A bus write keeps memory's canonical form. -/
theorem physWrite_mem_wf (s : State) (hm : Memory.wf s.mem = true) (pa : Word) (w : Width) (v : Word) :
    Memory.wf (physWrite s pa w v).mem = true := by
  unfold physWrite; split
  · exact writeLE_wf hm _ _ _
  · exact hm
  · exact hm

/-! ### The width masks of R83 -/

/-- The two ways of cutting a value to the narrower of an access and its port. -/
theorem maskToPort_eq (w p : Width) (v : Word) : maskToPort w p v = cutTo w p v := by
  unfold maskToPort cutTo
  apply BitVec.eq_of_toNat_eq
  have h8 : ∀ n : Nat, n &&& 0xFF = n % 2 ^ 8 := fun n => Nat.and_two_pow_sub_one_eq_mod n 8
  have h16 : ∀ n : Nat, n &&& 0xFFFF = n % 2 ^ 16 := fun n => Nat.and_two_pow_sub_one_eq_mod n 16
  have h32 : ∀ n : Nat, n &&& 0xFFFFFFFF = n % 2 ^ 32 := fun n => Nat.and_two_pow_sub_one_eq_mod n 32
  cases w <;> cases p <;> simp [widthMask, widthBytes, BitVec.toNat_and, h8, h16, h32] <;> omega

/-! ### What a port access does to the SD slots -/

/-- A port read changes no SD slot. -/
theorem portRead_slot (d : Devices) (pa : Word) (w : Width) (i : SlotId) : (portRead d pa w).2.slot i = d.slot i := by
  unfold portRead; split
  · next row _ => cases h : row.port <;> cases i <;> simp only [Devices.readPort] <;> rfl
  · rfl

/-- A port write leaves a slot as it is, writes one of its three plain registers, or is a command to it (R328, R329). -/
theorem writePort_slot (d : Devices) (p : Port) (u : Word) (i : SlotId) :
    (d.writePort p u).slot i = d.slot i ∨
      (d.writePort p u).slot i = { d.slot i with memAddr := u } ∨
      (d.writePort p u).slot i = { d.slot i with sdBlock := u } ∨
      (d.writePort p u).slot i = { d.slot i with len := u } ∨
      (d.writePort p u).slot i = (d.slot i).command u := by
  cases p with
  | sdMemAddr j | sdBlock j | sdLen j | sdCtrl j =>
    simp only [Devices.writePort]
    by_cases h : i = j
    · subst h; simp
    · rw [slot_setSlot_other _ _ _ _ h]; exact .inl rfl
  | _ => cases i <;> exact .inl rfl

theorem portWrite_slot (d : Devices) (pa : Word) (w : Width) (v : Word) (i : SlotId) :
    (portWrite d pa w v).slot i = d.slot i ∨
      ∃ u, (portWrite d pa w v).slot i = { d.slot i with memAddr := u } ∨
        (portWrite d pa w v).slot i = { d.slot i with sdBlock := u } ∨
        (portWrite d pa w v).slot i = { d.slot i with len := u } ∨
        (portWrite d pa w v).slot i = (d.slot i).command u := by
  unfold portWrite; split
  · next row _ =>
    rcases writePort_slot d row.port (maskToPort w row.width v) i with h | h
    · exact .inl h
    · exact .inr ⟨_, h⟩
  · exact .inl rfl

/-- A bus write does to a slot what a port write does. -/
theorem physWrite_slot (s : State) (pa : Word) (w : Width) (v : Word) (i : SlotId) :
    (physWrite s pa w v).dev.slot i = s.dev.slot i ∨ (physWrite s pa w v).dev.slot i = (portWrite s.dev pa w v).slot i := by
  unfold physWrite; split <;> first | exact .inl rfl | exact .inr rfl

theorem physRead_slot (s : State) (pa : Word) (w : Width) (i : SlotId) :
    (physRead s pa w).2.dev.slot i = s.dev.slot i := by
  unfold physRead; split
  · rfl
  · exact portRead_slot _ _ _ _
  · rfl

/-! ### Slots stay well kept -/

/-- Dropping the low two bits leaves none. -/
theorem and_fffffffc_aligned (x : Word) : x &&& 0xFFFFFFFC#32 &&& 3#32 = 0#32 := by
  rw [BitVec.and_assoc]; simp

/-- Multiples of 512 are multiples of 4. -/
theorem mul_512_aligned (x : Word) : (x * 512#32) &&& 3#32 = 0#32 := by
  apply BitVec.eq_of_toNat_eq
  rw [BitVec.toNat_and, show (3#32).toNat = 2 ^ 2 - 1 by rfl, Nat.and_two_pow_sub_one_eq_mod, BitVec.toNat_mul]
  simp; omega

/-- Adding 4 keeps a multiple of 4 one. -/
theorem add_4_aligned (x : Word) (h : x &&& 3#32 = 0#32) : (x + 4#32) &&& 3#32 = 0#32 := by
  have h' := congrArg BitVec.toNat h
  apply BitVec.eq_of_toNat_eq
  rw [BitVec.toNat_and, show (3#32).toNat = 2 ^ 2 - 1 by rfl, Nat.and_two_pow_sub_one_eq_mod] at h' ⊢
  rw [BitVec.toNat_add]
  simp at h' ⊢; omega

/-- Subtracting 4 keeps a multiple of 4 one. -/
theorem sub_4_aligned (x : Word) (h : x &&& 3#32 = 0#32) : (x - 4#32) &&& 3#32 = 0#32 := by
  have h' := congrArg BitVec.toNat h
  apply BitVec.eq_of_toNat_eq
  rw [BitVec.toNat_and, show (3#32).toNat = 2 ^ 2 - 1 by rfl, Nat.and_two_pow_sub_one_eq_mod] at h' ⊢
  rw [BitVec.toNat_sub]
  simp at h' ⊢; omega

theorem command_wellKept (d : SdSlot) (h : d.wellKept) (v : Word) : (d.command v).wellKept := by
  obtain ⟨h1, h2, h3, h4, h5⟩ := h
  unfold SdSlot.command
  by_cases hb : d.busy = true
  · rw [if_pos hb]; exact ⟨h1, h2, h3, h4, h5⟩
  rw [if_neg hb]
  by_cases hv : v = 0x1#32 ∨ v = 0x3#32
  · rw [if_pos hv]
    refine ⟨h1, and_fffffffc_aligned _, mul_512_aligned _, and_fffffffc_aligned _, fun _ => ?_⟩
    show (if v = 0x1#32 then SdKind.read else SdKind.write) ≠ .none
    split <;> simp
  rw [if_neg hv]
  by_cases h8 : v = 0x8#32
  · rw [if_pos h8]; exact ⟨h1, h2, h3, h4, fun _ => by simp⟩
  · rw [if_neg h8]; exact ⟨h1, h2, h3, h4, h5⟩

theorem portWrite_wellKept (d : Devices) (pa : Word) (w : Width) (v : Word) (i : SlotId) (h : (d.slot i).wellKept) :
    ((portWrite d pa w v).slot i).wellKept := by
  rcases portWrite_slot d pa w v i with e | ⟨u, e | e | e | e⟩ <;> rw [e]
  · exact h
  · exact h
  · exact h
  · exact h
  · exact command_wellKept _ h u

theorem physWrite_wellKept (s : State) (pa : Word) (w : Width) (v : Word) (i : SlotId) (h : (s.dev.slot i).wellKept) :
    ((physWrite s pa w v).dev.slot i).wellKept := by
  rcases physWrite_slot s pa w v i with e | e <;> rw [e]
  · exact h
  · exact portWrite_wellKept _ _ _ _ _ h

/-- A command never changes an image (R331). -/
@[simp] theorem command_image (d : SdSlot) (v : Word) : (d.command v).image = d.image := by
  unfold SdSlot.command; split
  · rfl
  · split
    · rfl
    · split <;> rfl

theorem portWrite_image (d : Devices) (pa : Word) (w : Width) (v : Word) (i : SlotId) :
    ((portWrite d pa w v).slot i).image = (d.slot i).image := by
  rcases portWrite_slot d pa w v i with e | ⟨u, e | e | e | e⟩ <;> rw [e]
  exact command_image _ _

/-- A bus write never changes an image (R331). -/
theorem physWrite_image (s : State) (pa : Word) (w : Width) (v : Word) (i : SlotId) :
    ((physWrite s pa w v).dev.slot i).image = (s.dev.slot i).image := by
  rcases physWrite_slot s pa w v i with e | e <;> rw [e]
  exact portWrite_image _ _ _ _ _

end Sys2Proof.Machine
end

