-- ==== Sys2Proof/Laws/Encoding.lean ====
section
/-! SUPPORT. The fields of an assembled word, format by format (spec/30_encoding.md R111), and the bytes of a word. -/

namespace Sys2Proof

/-! ### Bytes -/

/-- Four bytes and the word they hold (spec/20_memory.md R62). -/
theorem decodeBytes_bytesOfWord (w : Word) (rest : List Byte) :
    decodeBytes (bytesOfWord w ++ rest) =
      match decode w with
      | .ok i => .ok (i, rest)
      | .error e => .error e := by
  have : wordOfBytes (w.extractLsb' 0 8) (w.extractLsb' 8 8) (w.extractLsb' 16 8) (w.extractLsb' 24 8) = w := by
    apply BitVec.eq_of_getLsbD_eq; intro i hi
    simp only [wordOfBytes, BitVec.getLsbD_append, BitVec.getLsbD_extractLsb']
    interval_cases i <;> simp
  cases h : decode w <;> simp [bytesOfWord, decodeBytes, this, h]

/-! ### Bits of an append -/

/-- The field of an append that lies in its low part. -/
theorem extract_append_low {n m : Nat} (x : BitVec n) (y : BitVec m) (start len : Nat) (h : start + len ≤ m) :
    (x ++ y).extractLsb' start len = y.extractLsb' start len := by
  apply BitVec.eq_of_getLsbD_eq; intro i hi
  simp only [BitVec.getLsbD_extractLsb', hi, decide_true, Bool.true_and, BitVec.getLsbD_append]
  rw [if_pos (by omega)]

/-- The field of an append that lies in its high part. -/
theorem extract_append_high {n m : Nat} (x : BitVec n) (y : BitVec m) (start len : Nat) (h : m ≤ start) :
    (x ++ y).extractLsb' start len = x.extractLsb' (start - m) len := by
  apply BitVec.eq_of_getLsbD_eq; intro i hi
  simp only [BitVec.getLsbD_extractLsb', hi, decide_true, Bool.true_and, BitVec.getLsbD_append]
  rw [if_neg (by omega)]
  congr 1; omega

/-- The whole of a value as a field. -/
theorem extract_whole {n : Nat} (x : BitVec n) : x.extractLsb' 0 n = x := by
  apply BitVec.eq_of_getLsbD_eq; intro i hi
  simp [hi]

/-! ### The major opcode and the fields of each format -/

section
variable (op : BitVec 6) (a b c : BitVec 5)

theorem opField_encodeR3 : opField (encodeR3 op a b c) = op := by
  unfold opField encodeR3
  rw [extract_append_high _ _ _ _ (by omega), extract_append_high _ _ _ _ (by omega),
    extract_append_high _ _ _ _ (by omega), extract_append_high _ _ _ _ (by omega)]
  exact extract_whole op

theorem aField_encodeR3 : aField (encodeR3 op a b c) = a := by
  unfold aField encodeR3
  rw [extract_append_high _ _ _ _ (by omega), extract_append_high _ _ _ _ (by omega),
    extract_append_high _ _ _ _ (by omega), extract_append_low _ _ _ _ (by omega)]
  exact extract_whole a

theorem bField_encodeR3 : bField (encodeR3 op a b c) = b := by
  unfold bField encodeR3
  rw [extract_append_high _ _ _ _ (by omega), extract_append_high _ _ _ _ (by omega),
    extract_append_low _ _ _ _ (by omega)]
  exact extract_whole b

theorem cField_encodeR3 : cField (encodeR3 op a b c) = c := by
  unfold cField encodeR3
  rw [extract_append_high _ _ _ _ (by omega), extract_append_low _ _ _ _ (by omega)]
  exact extract_whole c

theorem imm11Field_encodeR3 : imm11Field (encodeR3 op a b c) = 0#11 := by
  unfold imm11Field encodeR3
  rw [extract_append_low _ _ _ _ (by omega)]
  exact extract_whole _

theorem opField_encodeF (d : BitVec 11) : opField (encodeF op a b c d) = op := by
  unfold opField encodeF
  rw [extract_append_high _ _ _ _ (by omega), extract_append_high _ _ _ _ (by omega),
    extract_append_high _ _ _ _ (by omega), extract_append_high _ _ _ _ (by omega)]
  exact extract_whole op

theorem aField_encodeF (d : BitVec 11) : aField (encodeF op a b c d) = a := by
  unfold aField encodeF
  rw [extract_append_high _ _ _ _ (by omega), extract_append_high _ _ _ _ (by omega),
    extract_append_high _ _ _ _ (by omega), extract_append_low _ _ _ _ (by omega)]
  exact extract_whole a

theorem bField_encodeF (d : BitVec 11) : bField (encodeF op a b c d) = b := by
  unfold bField encodeF
  rw [extract_append_high _ _ _ _ (by omega), extract_append_high _ _ _ _ (by omega),
    extract_append_low _ _ _ _ (by omega)]
  exact extract_whole b

theorem cField_encodeF (d : BitVec 11) : cField (encodeF op a b c d) = c := by
  unfold cField encodeF
  rw [extract_append_high _ _ _ _ (by omega), extract_append_low _ _ _ _ (by omega)]
  exact extract_whole c

theorem imm11Field_encodeF (d : BitVec 11) : imm11Field (encodeF op a b c d) = d := by
  unfold imm11Field encodeF
  rw [extract_append_low _ _ _ _ (by omega)]
  exact extract_whole d

theorem opField_encodeI16 (d : BitVec 16) : opField (encodeI16 op a b d) = op := by
  unfold opField encodeI16
  rw [extract_append_high _ _ _ _ (by omega), extract_append_high _ _ _ _ (by omega),
    extract_append_high _ _ _ _ (by omega)]
  exact extract_whole op

theorem aField_encodeI16 (d : BitVec 16) : aField (encodeI16 op a b d) = a := by
  unfold aField encodeI16
  rw [extract_append_high _ _ _ _ (by omega), extract_append_high _ _ _ _ (by omega),
    extract_append_low _ _ _ _ (by omega)]
  exact extract_whole a

theorem bField_encodeI16 (d : BitVec 16) : bField (encodeI16 op a b d) = b := by
  unfold bField encodeI16
  rw [extract_append_high _ _ _ _ (by omega), extract_append_low _ _ _ _ (by omega)]
  exact extract_whole b

theorem imm16Field_encodeI16 (d : BitVec 16) : imm16Field (encodeI16 op a b d) = d := by
  unfold imm16Field encodeI16
  rw [extract_append_low _ _ _ _ (by omega)]
  exact extract_whole d

theorem opField_encodeR2 : opField (encodeR2 op a b) = op := opField_encodeI16 op a b 0#16

theorem aField_encodeR2 : aField (encodeR2 op a b) = a := aField_encodeI16 op a b 0#16

theorem bField_encodeR2 : bField (encodeR2 op a b) = b := bField_encodeI16 op a b 0#16

theorem imm16Field_encodeR2 : imm16Field (encodeR2 op a b) = 0#16 := imm16Field_encodeI16 op a b 0#16

theorem opField_encodeI21 (d : BitVec 21) : opField (encodeI21 op a d) = op := by
  unfold opField encodeI21
  rw [extract_append_high _ _ _ _ (by omega), extract_append_high _ _ _ _ (by omega)]
  exact extract_whole op

theorem aField_encodeI21 (d : BitVec 21) : aField (encodeI21 op a d) = a := by
  unfold aField encodeI21
  rw [extract_append_high _ _ _ _ (by omega), extract_append_low _ _ _ _ (by omega)]
  exact extract_whole a

theorem imm21Field_encodeI21 (d : BitVec 21) : imm21Field (encodeI21 op a d) = d := by
  unfold imm21Field encodeI21
  rw [extract_append_low _ _ _ _ (by omega)]
  exact extract_whole d

theorem opField_encodeR1 : opField (encodeR1 op a) = op := opField_encodeI21 op a 0#21

theorem aField_encodeR1 : aField (encodeR1 op a) = a := aField_encodeI21 op a 0#21

theorem imm21Field_encodeR1 : imm21Field (encodeR1 op a) = 0#21 := imm21Field_encodeI21 op a 0#21

theorem opField_encodeJ (d : BitVec 26) : opField (encodeJ op d) = op := by
  unfold opField encodeJ
  rw [extract_append_high _ _ _ _ (by omega)]
  exact extract_whole op

theorem imm26Field_encodeJ (d : BitVec 26) : imm26Field (encodeJ op d) = d := by
  unfold imm26Field encodeJ
  rw [extract_append_low _ _ _ _ (by omega)]
  exact extract_whole d

theorem opField_encodeN : opField (encodeN op) = op := opField_encodeJ op 0#26

theorem imm26Field_encodeN : imm26Field (encodeN op) = 0#26 := imm26Field_encodeJ op 0#26

end

theorem opField_encodeMovi (v : BitVec 2) (a : BitVec 5) (d : BitVec 16) : opField (encodeMovi v a d) = 0x0B#6 := by
  unfold opField encodeMovi
  rw [extract_append_high _ _ _ _ (by omega), extract_append_high _ _ _ _ (by omega),
    extract_append_high _ _ _ _ (by omega), extract_append_high _ _ _ _ (by omega)]
  exact extract_whole _

theorem aField_encodeMovi (v : BitVec 2) (a : BitVec 5) (d : BitVec 16) : aField (encodeMovi v a d) = a := by
  unfold aField encodeMovi
  rw [extract_append_high _ _ _ _ (by omega), extract_append_high _ _ _ _ (by omega),
    extract_append_high _ _ _ _ (by omega), extract_append_low _ _ _ _ (by omega)]
  exact extract_whole a

theorem moviZeroField_encodeMovi (v : BitVec 2) (a : BitVec 5) (d : BitVec 16) :
    moviZeroField (encodeMovi v a d) = 0#3 := by
  unfold moviZeroField encodeMovi
  rw [extract_append_high _ _ _ _ (by omega), extract_append_high _ _ _ _ (by omega),
    extract_append_low _ _ _ _ (by omega)]
  exact extract_whole _

theorem moviVariantField_encodeMovi (v : BitVec 2) (a : BitVec 5) (d : BitVec 16) :
    moviVariantField (encodeMovi v a d) = v := by
  unfold moviVariantField encodeMovi
  rw [extract_append_high _ _ _ _ (by omega), extract_append_low _ _ _ _ (by omega)]
  exact extract_whole v

theorem imm16Field_encodeMovi (v : BitVec 2) (a : BitVec 5) (d : BitVec 16) : imm16Field (encodeMovi v a d) = d := by
  unfold imm16Field encodeMovi
  rw [extract_append_low _ _ _ _ (by omega)]
  exact extract_whole d

theorem opField_encodeSys (d : BitVec 8) : opField (encodeSys d) = 0x38#6 := by
  unfold opField encodeSys
  rw [extract_append_high _ _ _ _ (by omega), extract_append_high _ _ _ _ (by omega)]
  exact extract_whole _

theorem sysZeroField_encodeSys (d : BitVec 8) : sysZeroField (encodeSys d) = 0#18 := by
  unfold sysZeroField encodeSys
  rw [extract_append_high _ _ _ _ (by omega), extract_append_low _ _ _ _ (by omega)]
  exact extract_whole _

theorem imm8Field_encodeSys (d : BitVec 8) : imm8Field (encodeSys d) = d := by
  unfold imm8Field encodeSys
  rw [extract_append_low _ _ _ _ (by omega)]
  exact extract_whole d

theorem opField_encodeMode (k : BitVec 1) : opField (encodeMode k) = 0x3F#6 := by
  unfold opField encodeMode
  rw [extract_append_high _ _ _ _ (by omega), extract_append_high _ _ _ _ (by omega)]
  exact extract_whole _

theorem modeZeroField_encodeMode (k : BitVec 1) : modeZeroField (encodeMode k) = 0#25 := by
  unfold modeZeroField encodeMode
  rw [extract_append_high _ _ _ _ (by omega), extract_append_low _ _ _ _ (by omega)]
  exact extract_whole _

theorem modeKField_encodeMode (k : BitVec 1) : modeKField (encodeMode k) = k := by
  unfold modeKField encodeMode
  rw [extract_append_low _ _ _ _ (by omega)]
  exact extract_whole k

/-! ### A word is put together again from its fields -/

/-- Adjacent fields of a word make one field. -/
theorem extract_append_extract {k : Nat} (w : BitVec k) (s m n : Nat) :
    w.extractLsb' (s + m) n ++ w.extractLsb' s m = w.extractLsb' s (n + m) := by
  apply BitVec.eq_of_getLsbD_eq; intro i hi
  simp only [BitVec.getLsbD_append, BitVec.getLsbD_extractLsb', hi, decide_true, Bool.true_and]
  by_cases h : i < m
  · simp [h]
  · rw [if_neg h]
    simp only [show i - m < n by omega, decide_true, Bool.true_and]
    congr 1; omega

theorem encodeF_fields (w : Word) : encodeF (opField w) (aField w) (bField w) (cField w) (imm11Field w) = w := by
  unfold encodeF opField aField bField cField imm11Field
  rw [extract_append_extract w 21 5 6, extract_append_extract w 16 5 11, extract_append_extract w 11 5 16,
    extract_append_extract w 0 11 21]
  exact extract_whole w
theorem encodeR3_fields (w : Word) (h : imm11Field w = 0#11) : encodeR3 (opField w) (aField w) (bField w) (cField w) = w := by
  have := encodeF_fields w
  rwa [h] at this
theorem encodeI16_fields (w : Word) : encodeI16 (opField w) (aField w) (bField w) (imm16Field w) = w := by
  unfold encodeI16 opField aField bField imm16Field
  rw [extract_append_extract w 21 5 6, extract_append_extract w 16 5 11, extract_append_extract w 0 16 16]
  exact extract_whole w
theorem encodeR2_fields (w : Word) (h : imm16Field w = 0#16) : encodeR2 (opField w) (aField w) (bField w) = w := by
  have := encodeI16_fields w
  rwa [h] at this
theorem encodeI21_fields (w : Word) : encodeI21 (opField w) (aField w) (imm21Field w) = w := by
  unfold encodeI21 opField aField imm21Field
  rw [extract_append_extract w 21 5 6, extract_append_extract w 0 21 11]
  exact extract_whole w
theorem encodeR1_fields (w : Word) (h : imm21Field w = 0#21) : encodeR1 (opField w) (aField w) = w := by
  have := encodeI21_fields w
  rwa [h] at this
theorem encodeJ_fields (w : Word) : encodeJ (opField w) (imm26Field w) = w := by
  unfold encodeJ opField imm26Field
  rw [extract_append_extract w 0 26 6]
  exact extract_whole w
theorem encodeN_fields (w : Word) (h : imm26Field w = 0#26) : encodeN (opField w) = w := by
  have := encodeJ_fields w
  rwa [h] at this
theorem encodeSys_fields (w : Word) (ho : opField w = 0x38#6) (h : sysZeroField w = 0#18) : encodeSys (imm8Field w) = w := by
  unfold encodeSys
  rw [← ho, ← h]
  unfold opField imm8Field sysZeroField
  rw [extract_append_extract w 8 18 6, extract_append_extract w 0 8 24]
  exact extract_whole w
theorem encodeMode_fields (w : Word) (ho : opField w = 0x3F#6) (h : modeZeroField w = 0#25) : encodeMode (modeKField w) = w := by
  unfold encodeMode
  rw [← ho, ← h]
  unfold opField modeKField modeZeroField
  rw [extract_append_extract w 1 25 6, extract_append_extract w 0 1 31]
  exact extract_whole w
theorem encodeMovi_fields (w : Word) (ho : opField w = 0x0B#6) (h : moviZeroField w = 0#3) :
    encodeMovi (moviVariantField w) (aField w) (imm16Field w) = w := by
  unfold encodeMovi
  rw [← ho, ← h]
  unfold opField moviVariantField moviZeroField aField imm16Field
  rw [extract_append_extract w 21 5 6, extract_append_extract w 18 3 11, extract_append_extract w 16 2 14,
    extract_append_extract w 0 16 16]
  exact extract_whole w

/-! ### Immediates: a field and the value assembled from it -/

/-- An immediate that its field holds is assembled from the field again. -/
theorem sext_setWidth {n : Nat} {v : Word} (h : fitsSigned n v = true) : sext (v.setWidth n) = v := eq_of_beq h

theorem zext_setWidth {n : Nat} {v : Word} (h : fitsUnsigned n v = true) : zext (v.setWidth n) = v := eq_of_beq h

/-- The field of an immediate is the one it was assembled from. -/
theorem setWidth_sext {n : Nat} (h : n ≤ 32) (x : BitVec n) : (sext x).setWidth n = x := by
  apply BitVec.eq_of_getLsbD_eq; intro i hi
  rw [BitVec.getLsbD_setWidth, sext, BitVec.getLsbD_signExtend]
  simp [hi, show i < 32 by omega]

theorem setWidth_zext {n : Nat} (h : n ≤ 32) (x : BitVec n) : (zext x).setWidth n = x := by
  apply BitVec.eq_of_getLsbD_eq; intro i hi
  simp [zext, hi, show i < 32 by omega]

/-- An assembled immediate is one that its field holds. -/
theorem fitsSigned_sext {n : Nat} (h : n ≤ 32) (x : BitVec n) : fitsSigned n (sext x) = true := by
  unfold fitsSigned; rw [setWidth_sext h]; exact beq_self_eq_true _

theorem fitsUnsigned_zext {n : Nat} (h : n ≤ 32) (x : BitVec n) : fitsUnsigned n (zext x) = true := by
  unfold fitsUnsigned; rw [setWidth_zext h]; exact beq_self_eq_true _

/-! ### What a format's decoder answers -/

theorem decodeIfZero_ok {n : Nat} {z : BitVec n} {i j : Instr} (h : decodeIfZero z i = .ok j) : z = 0#n ∧ j = i := by
  unfold decodeIfZero at h; split at h
  · next hz => cases h; exact ⟨hz, rfl⟩
  · cases h

theorem checkCr_ok {k : CrIndex} {d : Decoded} {i : Instr} (h : checkCr k d = .ok i) : d = .ok i ∧ crIndexOk k = true := by
  unfold checkCr at h; split at h
  · split at h
    · next hk => cases h; exact ⟨rfl, hk⟩
    · cases h
  · cases h

theorem decodeMovi_ok {w : Word} {i : Instr} (h : decodeMovi w = .ok i) :
    moviZeroField w = 0#3 ∧
      ((moviVariantField w = 0#2 ∧ i = .movi (aField w) (sext (imm16Field w))) ∨
        (moviVariantField w = 1#2 ∧ i = .moviU (aField w) (zext (imm16Field w))) ∨
        (moviVariantField w = 2#2 ∧ i = .moviH (aField w) (imm16Field w))) := by
  unfold decodeMovi at h
  split at h
  · cases h
  · next hz =>
    refine ⟨by simpa using hz, ?_⟩
    split at h
    · next hv => cases h; exact .inl ⟨hv, rfl⟩
    · split at h
      · next hv => cases h; exact .inr (.inl ⟨hv, rfl⟩)
      · split at h
        · next hv => cases h; exact .inr (.inr ⟨hv, rfl⟩)
        · cases h

end Sys2Proof
end

