-- ==== Sys2Proof/Laws/Engines.lean ====
section
/-! SUPPORT. What the DMA step, the sample and the host's input change, and what they leave alone (spec/60_exceptions.md R330, R341,
R352). -/

namespace Sys2Proof.Machine

/-! ### The DMA step touches no core and no parameter -/

/-- A quantum from SD to RAM. -/
theorem dmaQuantum_read (s : State) (i : SlotId) (h : (s.dev.slot i).kind = .read) :
    dmaQuantum s i =
      (physWrite s (s.dev.slot i).cur .word ((s.dev.slot i).image.readWord (s.dev.slot i).off)).setSlot i
        ((physWrite s (s.dev.slot i).cur .word
          ((s.dev.slot i).image.readWord (s.dev.slot i).off)).dev.slot i).stepCursors := by
  unfold dmaQuantum; rw [if_pos h]

/-- A quantum from RAM to SD. -/
theorem dmaQuantum_write (s : State) (i : SlotId) (h : (s.dev.slot i).kind ≠ .read) :
    dmaQuantum s i =
      (physRead s (s.dev.slot i).cur .word).2.setSlot i
        { s.dev.slot i with
          image := (s.dev.slot i).image.writeWord (s.dev.slot i).off
            (physRead s (s.dev.slot i).cur .word).1 }.stepCursors := by
  unfold dmaQuantum; rw [if_neg h]; simp only [physRead_slot]

/-- One slot's part of the DMA step, in every case. -/
theorem dmaSlot_cases (q : Bool) (s : State) (i : SlotId) :
    dmaSlot q s i = s ∨ dmaSlot q s i = s.setSlot i { s.dev.slot i with busy := false } ∨
      ((s.dev.slot i).kind = .read ∧
        dmaSlot q s i =
          (physWrite s (s.dev.slot i).cur .word ((s.dev.slot i).image.readWord (s.dev.slot i).off)).setSlot i
            ((physWrite s (s.dev.slot i).cur .word
              ((s.dev.slot i).image.readWord (s.dev.slot i).off)).dev.slot i).stepCursors) ∨
      dmaSlot q s i =
        (physRead s (s.dev.slot i).cur .word).2.setSlot i
          { s.dev.slot i with
            image := (s.dev.slot i).image.writeWord (s.dev.slot i).off
              (physRead s (s.dev.slot i).cur .word).1 }.stepCursors := by
  unfold dmaSlot
  dsimp only
  split
  · exact .inl rfl
  · split
    · exact .inr (.inl rfl)
    · split
      · exact .inl rfl
      · split
        · exact .inr (.inl rfl)
        · by_cases hd : (s.dev.slot i).kind = .read
          · exact .inr (.inr (.inl ⟨hd, dmaQuantum_read s i hd⟩))
          · exact .inr (.inr (.inr (dmaQuantum_write s i hd)))

@[simp] theorem dmaSlot_params (q : Bool) (s : State) (i : SlotId) : (dmaSlot q s i).params = s.params := by
  rcases dmaSlot_cases q s i with h | h | ⟨_, h⟩ | h <;> rw [h] <;> simp
@[simp] theorem dmaSlot_done (q : Bool) (s : State) (i : SlotId) : (dmaSlot q s i).done = s.done := by
  rcases dmaSlot_cases q s i with h | h | ⟨_, h⟩ | h <;> rw [h] <;> simp
@[simp] theorem dmaSlot_core (q : Bool) (s : State) (i : SlotId) : (dmaSlot q s i).core = s.core := by
  rcases dmaSlot_cases q s i with h | h | ⟨_, h⟩ | h <;> rw [h] <;> simp
@[simp] theorem dmaSlot_todo (q : Bool) (s : State) (i : SlotId) : (dmaSlot q s i).todo = s.todo := by
  rcases dmaSlot_cases q s i with h | h | ⟨_, h⟩ | h <;> rw [h] <;> simp
@[simp] theorem dmaSlot_hostSchedule (q : Bool) (s : State) (i : SlotId) :
    (dmaSlot q s i).hostSchedule = s.hostSchedule := by
  rcases dmaSlot_cases q s i with h | h | ⟨_, h⟩ | h <;> rw [h] <;> simp

@[simp] theorem dmaStep_params (s : State) : (dmaStep s).params = s.params := by simp [dmaStep, dmaCountStep]
@[simp] theorem dmaStep_done (s : State) : (dmaStep s).done = s.done := by simp [dmaStep, dmaCountStep]
@[simp] theorem dmaStep_core (s : State) : (dmaStep s).core = s.core := by simp [dmaStep, dmaCountStep]
@[simp] theorem dmaStep_todo (s : State) : (dmaStep s).todo = s.todo := by simp [dmaStep, dmaCountStep]
@[simp] theorem dmaStep_hostSchedule (s : State) : (dmaStep s).hostSchedule = s.hostSchedule := by
  simp [dmaStep, dmaCountStep]

/-! ### The DMA step keeps memory, the slots and the images -/

theorem dmaSlot_mem_wf (q : Bool) (s : State) (i : SlotId) (h : Memory.wf s.mem = true) :
    Memory.wf (dmaSlot q s i).mem = true := by
  rcases dmaSlot_cases q s i with e | e | ⟨_, e⟩ | e <;> rw [e]
  · exact h
  · exact h
  · exact physWrite_mem_wf s h _ _ _
  · simpa using h

/-- Advancing the cursors keeps a slot well kept, where it is doing something. -/
theorem stepCursors_wellKept (d : SdSlot) (h : d.wellKept) (hk : d.kind ≠ .none) : d.stepCursors.wellKept := by
  obtain ⟨h1, h2, h3, h4, _⟩ := h
  exact ⟨h1, add_4_aligned _ h2, add_4_aligned _ h3, sub_4_aligned _ h4, fun _ => hk⟩

/-- A bus write never makes a slot that does something idle. -/
theorem physWrite_kind (s : State) (pa : Word) (w : Width) (v : Word) (i : SlotId) (h : (s.dev.slot i).kind ≠ .none) :
    ((physWrite s pa w v).dev.slot i).kind ≠ .none := by
  rcases physWrite_slot s pa w v i with e | e
  · rw [e]; exact h
  · rw [e]
    rcases portWrite_slot s.dev pa w v i with e | ⟨u, e | e | e | e⟩ <;> rw [e]
    · exact h
    · exact h
    · exact h
    · exact h
    · unfold SdSlot.command
      split
      · exact h
      · split
        · show (if u = 0x1#32 then SdKind.read else SdKind.write) ≠ .none
          split <;> simp
        · split
          · simp
          · exact h

theorem dmaSlot_wellKept (q : Bool) (s : State) (i j : SlotId) (hi : (s.dev.slot i).wellKept)
    (hj : (s.dev.slot j).wellKept) : ((dmaSlot q s i).dev.slot j).wellKept := by
  by_cases hb : (s.dev.slot i).busy = true
  · have hn := hi.2.2.2.2 hb
    rcases dmaSlot_cases q s i with e | e | ⟨_, e⟩ | e <;> rw [e]
    · exact hj
    · by_cases hij : j = i
      · subst hij
        rw [setSlot_dev, slot_setSlot_same]
        obtain ⟨h1, h2, h3, h4, _⟩ := hi
        exact ⟨h1, h2, h3, h4, fun h => by cases h⟩
      · rw [setSlot_dev, slot_setSlot_other _ _ _ _ hij]; exact hj
    · by_cases hij : j = i
      · subst hij
        rw [setSlot_dev, slot_setSlot_same]
        exact stepCursors_wellKept _ (physWrite_wellKept s _ _ _ _ hi) (physWrite_kind s _ _ _ _ hn)
      · rw [setSlot_dev, slot_setSlot_other _ _ _ _ hij]; exact physWrite_wellKept s _ _ _ _ hj
    · by_cases hij : j = i
      · subst hij
        rw [setSlot_dev, slot_setSlot_same]
        refine stepCursors_wellKept _ ?_ hn
        obtain ⟨h1, h2, h3, h4, h5⟩ := hi
        exact ⟨writeWord_wf _ h1 _ _, h2, h3, h4, h5⟩
      · rw [setSlot_dev, slot_setSlot_other _ _ _ _ hij, physRead_slot]; exact hj
  · have : dmaSlot q s i = s := by unfold dmaSlot; simp [hb]
    rw [this]; exact hj

theorem dmaSlot_image_size (q : Bool) (s : State) (i j : SlotId) :
    ((dmaSlot q s i).dev.slot j).image.size = (s.dev.slot j).image.size := by
  rcases dmaSlot_cases q s i with e | e | ⟨_, e⟩ | e <;> rw [e]
  · by_cases hij : j = i
    · subst hij; rw [setSlot_dev, slot_setSlot_same]
    · rw [setSlot_dev, slot_setSlot_other _ _ _ _ hij]
  · by_cases hij : j = i
    · subst hij; rw [setSlot_dev, slot_setSlot_same, SdSlot.stepCursors, physWrite_image]
    · rw [setSlot_dev, slot_setSlot_other _ _ _ _ hij, physWrite_image]
  · by_cases hij : j = i
    · subst hij; rw [setSlot_dev, slot_setSlot_same, SdSlot.stepCursors, writeWord_size]
    · rw [setSlot_dev, slot_setSlot_other _ _ _ _ hij, physRead_slot]

theorem dmaCountStep_slot (s : State) (i : SlotId) : (dmaCountStep s).dev.slot i = s.dev.slot i := by cases i <;> rfl

/-- The DMA step keeps memory's canonical form. -/
theorem dmaStep_mem_wf (s : State) (h : Memory.wf s.mem = true) : Memory.wf (dmaStep s).mem = true :=
  dmaSlot_mem_wf _ _ _ (dmaSlot_mem_wf _ _ _ h)

/-- The DMA step keeps both slots well kept. -/
theorem dmaStep_wellKept (s : State) (h0 : (s.dev.slot .sd0).wellKept) (h1 : (s.dev.slot .sd1).wellKept) (i : SlotId) :
    ((dmaStep s).dev.slot i).wellKept := by
  rw [← dmaCountStep_slot] at h0 h1
  unfold dmaStep
  refine dmaSlot_wellKept _ _ _ _ (dmaSlot_wellKept _ _ _ _ h0 h1) ?_
  cases i
  · exact dmaSlot_wellKept _ _ _ _ h0 h0
  · exact dmaSlot_wellKept _ _ _ _ h0 h1

/-- An image never grows (R331). -/
theorem dmaStep_image_size (s : State) (i : SlotId) : ((dmaStep s).dev.slot i).image.size = (s.dev.slot i).image.size := by
  unfold dmaStep; rw [dmaSlot_image_size, dmaSlot_image_size, dmaCountStep_slot]

/-! ### The sample -/

/-- What the sample does to a core: isr bits are set. -/
def withLines (bits : BitVec 16) (c : CoreState) : CoreState := { c with isr := c.isr ||| bits }

theorem withLines_withLines (a b : BitVec 16) (c : CoreState) : withLines b (withLines a c) = withLines (a ||| b) c := by
  simp [withLines, BitVec.or_assoc]

theorem withLines_zero (c : CoreState) : withLines 0#16 c = c := by simp [withLines]

/-- The isr bits that a sample sets. -/
def sampleLines (s : State) : BitVec 16 :=
  (if pitDue s.dev then pitBit else 0#16) |||
    (if s.params.vgaFramePasses ≠ 0 ∧ s.params.vgaFramePasses ≤ s.dev.vgaPasses + 1 then vgaBit else 0#16) |||
    (if inputWaiting s then keyboardBit else 0#16)

/-- The devices after a sample. -/
def sampleDevices (s : State) : Devices :=
  { s.dev with
    pitCount := if pitDue s.dev then 0 else s.dev.pitCount + 1
    vgaFrame := if s.params.vgaFramePasses ≠ 0 ∧ s.params.vgaFramePasses ≤ s.dev.vgaPasses + 1 then s.dev.vgaFrame + 1#16
      else s.dev.vgaFrame
    vgaPasses := if s.params.vgaFramePasses = 0 then s.dev.vgaPasses
      else if s.params.vgaFramePasses ≤ s.dev.vgaPasses + 1 then 0 else s.dev.vgaPasses + 1 }

theorem mapCores_withLines_zero (s : State) : s.mapCores (withLines 0#16) = s := by
  simp [State.mapCores, show withLines 0#16 = id from funext withLines_zero]

theorem raiseLines_eq (s : State) (b : BitVec 16) : raiseLines s b = s.mapCores (withLines b) := rfl

theorem mapCores_raiseLines (s : State) (a b : BitVec 16) :
    (s.mapCores (withLines a)).mapCores (withLines b) = s.mapCores (withLines (a ||| b)) := by
  simp [State.mapCores, ← withLines_withLines]

/-- What the PIT's sample does (R320). -/
theorem samplePit_eq (s : State) :
    samplePit s =
      { s.mapCores (withLines (if pitDue s.dev then pitBit else 0#16)) with
        dev := { s.dev with pitCount := if pitDue s.dev then 0 else s.dev.pitCount + 1 } } := by
  unfold samplePit
  cases h : pitDue s.dev
  · simp only [Bool.false_eq_true, if_false, mapCores_withLines_zero]
  · rfl

/-- What the VGA's sample does (R327). -/
theorem sampleVga_eq (s : State) :
    sampleVga s =
      { s.mapCores (withLines
          (if s.params.vgaFramePasses ≠ 0 ∧ s.params.vgaFramePasses ≤ s.dev.vgaPasses + 1 then vgaBit else 0#16)) with
        dev := { s.dev with
          vgaFrame := if s.params.vgaFramePasses ≠ 0 ∧ s.params.vgaFramePasses ≤ s.dev.vgaPasses + 1
            then s.dev.vgaFrame + 1#16 else s.dev.vgaFrame
          vgaPasses := if s.params.vgaFramePasses = 0 then s.dev.vgaPasses
            else if s.params.vgaFramePasses ≤ s.dev.vgaPasses + 1 then 0 else s.dev.vgaPasses + 1 } } := by
  unfold sampleVga
  by_cases h0 : s.params.vgaFramePasses = 0
  · simp only [h0, ne_eq, not_true, false_and, if_false, if_true, mapCores_withLines_zero]
  · by_cases hv : s.params.vgaFramePasses ≤ s.dev.vgaPasses + 1
    · simp only [h0, hv, ne_eq, not_false_eq_true, and_self, if_true, if_false]; rfl
    · simp only [h0, hv, ne_eq, and_false, if_false, mapCores_withLines_zero]

/-- What the keyboard line's sample does (R325). -/
theorem sampleKeyboard_eq (s : State) :
    sampleKeyboard s = s.mapCores (withLines (if inputWaiting s then keyboardBit else 0#16)) := by
  unfold sampleKeyboard
  cases h : inputWaiting s
  · simp only [Bool.false_eq_true, if_false, mapCores_withLines_zero]
  · rfl

/-- Everything a sample does. -/
theorem sample_eq (s : State) :
    sample s = { s.mapCores (withLines (sampleLines s)) with dev := sampleDevices s } := by
  unfold sample
  rw [sampleKeyboard_eq, sampleVga_eq, samplePit_eq]
  rw [sampleLines, ← mapCores_raiseLines, ← mapCores_raiseLines]
  rfl

@[simp] theorem sample_params (s : State) : (sample s).params = s.params := by rw [sample_eq]; rfl
@[simp] theorem sample_mem (s : State) : (sample s).mem = s.mem := by rw [sample_eq]; rfl
@[simp] theorem sample_hostSchedule (s : State) : (sample s).hostSchedule = s.hostSchedule := by rw [sample_eq]; rfl
@[simp] theorem sample_done (s : State) : (sample s).done = s.done.map (withLines (sampleLines s)) := by
  rw [sample_eq]; rfl
@[simp] theorem sample_core (s : State) : (sample s).core = withLines (sampleLines s) s.core := by rw [sample_eq]; rfl
@[simp] theorem sample_todo (s : State) : (sample s).todo = s.todo.map (withLines (sampleLines s)) := by
  rw [sample_eq]; rfl
theorem sample_slot (s : State) (i : SlotId) : (sample s).dev.slot i = s.dev.slot i := by rw [sample_eq]; cases i <;> rfl
theorem sample_cores (s : State) : (sample s).cores = s.cores.map (withLines (sampleLines s)) := by
  simp [State.cores]

/-! ### The host's input -/

@[simp] theorem receive_slot (u : Bool) (d : Devices) (x : HostInput) (i : SlotId) :
    (d.receive u x).slot i = d.slot i := by
  cases x <;> cases u <;> cases i <;> rfl

theorem receiveAll_slot (u : Bool) (l : List HostInput) (d : Devices) (i : SlotId) :
    (l.foldl (Devices.receive u) d).slot i = d.slot i := by
  induction l generalizing d with
  | nil => rfl
  | cons x l ih => rw [List.foldl_cons, ih, receive_slot]

@[simp] theorem beginVisit_params (s : State) : (beginVisit s).params = s.params := by
  unfold beginVisit; split <;> rfl
@[simp] theorem beginVisit_done (s : State) : (beginVisit s).done = s.done := by unfold beginVisit; split <;> rfl
@[simp] theorem beginVisit_core (s : State) : (beginVisit s).core = s.core := by unfold beginVisit; split <;> rfl
@[simp] theorem beginVisit_todo (s : State) : (beginVisit s).todo = s.todo := by unfold beginVisit; split <;> rfl
@[simp] theorem beginVisit_mem (s : State) : (beginVisit s).mem = s.mem := by unfold beginVisit; split <;> rfl
theorem beginVisit_slot (s : State) (i : SlotId) : (beginVisit s).dev.slot i = s.dev.slot i := by
  unfold beginVisit; split
  · exact receiveAll_slot _ _ _ _
  · rfl
theorem beginVisit_cores (s : State) : (beginVisit s).cores = s.cores := by simp [State.cores]

end Sys2Proof.Machine
end

