-- ==== Sys2Proof/Laws/Mmu.lean ====
section
/-! SUPPORT. What a TLB search, a translation, an insertion and a clearing can answer (spec/20_memory.md R67 to R75,
spec/43_system.md R247 to R249). -/

namespace Sys2Proof.Machine

/-! ### Searching -/

/-- What the search for the lowest slot answers when it finds one. -/
theorem lowestSlot_some {t : Tlb} {p : TlbEntry → Bool} {k : Fin 16} (h : lowestSlot t p = some k) :
    p t[k] = true ∧ ∀ j, j < k → p t[j] = false := by
  unfold lowestSlot at h
  rw [List.find?_eq_some_iff_getElem] at h
  obtain ⟨hp, i, hi, hik, hlow⟩ := h
  refine ⟨hp, fun j hj => ?_⟩
  simp only [List.getElem_finRange] at hik
  have hij : j.val < i := by
    have := congrArg Fin.val hik
    simp at this
    have := Fin.lt_def.mp hj
    omega
  have := hlow j.val hij
  simpa using this

/-- What it means that the search finds none. -/
theorem lowestSlot_none {t : Tlb} {p : TlbEntry → Bool} (h : lowestSlot t p = none) (k : Fin 16) : p t[k] = false := by
  unfold lowestSlot at h
  rw [List.find?_eq_none] at h
  simpa using h k (List.mem_finRange k)

/-- The search answers the slot that satisfies `p` with none below it. -/
theorem lowestSlot_eq_some {t : Tlb} {p : TlbEntry → Bool} {k : Fin 16} (hk : p t[k] = true)
    (hlow : ∀ j, j < k → p t[j] = false) : lowestSlot t p = some k := by
  cases h : lowestSlot t p with
  | none => have := lowestSlot_none h k; simp_all
  | some j =>
    obtain ⟨hj, hjlow⟩ := lowestSlot_some h
    rcases lt_trichotomy j k with hlt | heq | hgt
    · have := hlow j hlt; simp_all
    · rw [heq]
    · have := hjlow k hgt; simp_all

theorem lowestSlot_eq_none {t : Tlb} {p : TlbEntry → Bool} (h : ∀ k : Fin 16, p t[k] = false) : lowestSlot t p = none := by
  cases hs : lowestSlot t p with
  | none => rfl
  | some j => have := (lowestSlot_some hs).1; simp_all

/-! ### Translation -/

/-- Translation is off exactly when no entry is valid and pid is 0 (R67). -/
theorem translationEnabled_eq_false (c : CoreState) :
    translationEnabled c = false ↔ (∀ k : Fin 16, (c.tlb[k]).valid = false) ∧ c.pid = 0#8 := by
  unfold translationEnabled
  constructor
  · intro h
    rw [Bool.or_eq_false_iff] at h
    refine ⟨fun k => ?_, by simpa using h.2⟩
    exact lowestSlot_none (p := (·.valid)) (by simpa using h.1) k
  · intro ⟨h, hp⟩
    rw [lowestSlot_eq_none (p := (·.valid)) h, hp]; rfl

/-- Everything that translation can answer (R71). -/
theorem translateVa_cases (c : CoreState) (va : Word) (i : Intent) :
    (translationEnabled c = false ∧ translateVa c va i = some va) ∨
      (translationEnabled c = true ∧ tlbMatch c va = none ∧ translateVa c va i = none) ∨
      ∃ k, translationEnabled c = true ∧ tlbMatch c va = some k ∧
        ((accessAllowed c.mode c.tlb[k] i = true ∧ translateVa c va i = some (c.tlb[k].ppn ++ offsetOf va)) ∨
          (accessAllowed c.mode c.tlb[k] i = false ∧ translateVa c va i = none)) := by
  unfold translateVa
  cases he : translationEnabled c
  · exact .inl ⟨rfl, by simp⟩
  · cases hm : tlbMatch c va with
    | none => exact .inr (.inl ⟨rfl, rfl, by simp⟩)
    | some k =>
      refine .inr (.inr ⟨k, rfl, rfl, ?_⟩)
      cases ha : accessAllowed c.mode c.tlb[k] i
      · exact .inr ⟨rfl, by simp only [ha]; simp⟩
      · exact .inl ⟨rfl, by simp only [ha]; simp⟩

/-- Translation reads the mode, the pid and the TLB, nothing else. -/
theorem translateVa_congr (c d : CoreState) (hm : d.mode = c.mode) (hp : d.pid = c.pid) (ht : d.tlb = c.tlb) (va : Word)
    (i : Intent) : translateVa d va i = translateVa c va i := by
  unfold translateVa translationEnabled tlbMatch; rw [hm, hp, ht]

/-! ### Writing entries -/

@[simp] theorem putEntry_getElem (t : Tlb) (k j : Fin 16) (e : TlbEntry) :
    (putEntry t k e)[j.val] = if j = k then e else t[j.val] := by
  unfold putEntry
  rw [Vector.getElem_set]
  by_cases h : j = k
  · subst h; simp
  · simp [h, Fin.val_inj, Ne.symm h]

theorem putEntry_get (t : Tlb) (k j : Fin 16) (e : TlbEntry) : (putEntry t k e)[j] = if j = k then e else t[j] :=
  putEntry_getElem t k j e

@[simp] theorem invalidateWhere_getElem (t : Tlb) (p : TlbEntry → Bool) (j : Fin 16) :
    (invalidateWhere t p)[j.val] = if p t[j.val] then { t[j.val] with valid := false } else t[j.val] := by
  unfold invalidateWhere
  simp

theorem invalidateWhere_get (t : Tlb) (p : TlbEntry → Bool) (j : Fin 16) :
    (invalidateWhere t p)[j] = if p t[j] then { t[j] with valid := false } else t[j] :=
  invalidateWhere_getElem t p j

/-- Everything that an insertion can do (R247): in place of a conflicting entry, into the lowest free slot, or over the
replacement pointer's slot. -/
theorem tlbInsert_cases (c : CoreState) (new : TlbEntry) :
    (∃ k, lowestSlot c.tlb (conflicts new) = some k ∧
        tlbInsert c new = { c with tlb := putEntry (invalidateWhere c.tlb (conflicts new)) k new }) ∨
      (lowestSlot c.tlb (conflicts new) = none ∧ ∃ k, lowestSlot c.tlb (fun e => !e.valid) = some k ∧
        tlbInsert c new = { c with tlb := putEntry c.tlb k new }) ∨
      (lowestSlot c.tlb (conflicts new) = none ∧ lowestSlot c.tlb (fun e => !e.valid) = none ∧
        tlbInsert c new = { c with tlb := putEntry c.tlb c.tlbNext new, tlbNext := c.tlbNext + 1 }) := by
  unfold tlbInsert
  cases h1 : lowestSlot c.tlb (conflicts new) with
  | some k => exact .inl ⟨k, rfl, rfl⟩
  | none =>
    cases h2 : lowestSlot c.tlb (fun e => !e.valid) with
    | some k => exact .inr (.inl ⟨rfl, k, rfl, rfl⟩)
    | none => exact .inr (.inr ⟨rfl, rfl, rfl⟩)

/-- An insertion writes the TLB and tlb_next only. -/
theorem tlbInsert_frame (c : CoreState) (new : TlbEntry) :
    tlbInsert c new = { c with tlb := (tlbInsert c new).tlb, tlbNext := (tlbInsert c new).tlbNext } := by
  rcases tlbInsert_cases c new with ⟨k, _, h⟩ | ⟨_, k, _, h⟩ | ⟨_, _, h⟩ <;> rw [h]

/-! ### The searches in the rules' own words -/

/-- R69's match. -/
theorem matches_iff (pid : BitVec 8) (va : Word) (e : TlbEntry) : entryMatches pid va e = true ↔ EntryHits pid va e := by
  simp [entryMatches, EntryHits, TlbEntry.isGlobal, vpnOf, and_assoc]

/-- R247's set C. -/
theorem conflicts_iff (n e : TlbEntry) : conflicts n e = true ↔ EntryConflicts n e := by
  simp [conflicts, EntryConflicts, TlbEntry.isGlobal, and_assoc, or_assoc]

/-- R70's permission. -/
theorem allowed_iff (m : Mode) (e : TlbEntry) (i : Intent) : accessAllowed m e i = true ↔ PermissionHolds m e i := by
  cases i <;> cases m <;>
    simp [accessAllowed, PermissionHolds, intentAllowed, TlbEntry.readable, TlbEntry.writable, TlbEntry.executable,
      TlbEntry.userAccessible]

/-- The lookup answers the match (R69). -/
theorem tlbMatch_eq (c : CoreState) (va : Word) (k : Fin 16) (h : IsMatch c va k) : tlbMatch c va = some k := by
  apply lowestSlot_eq_some
  · exact (matches_iff _ _ _).2 h.1
  · intro j hj; have := h.2 j hj; rw [← matches_iff] at this; simpa using this

/-- The lookup answers nothing where no entry matches (R69). -/
theorem tlbMatch_none (c : CoreState) (va : Word) (h : ∀ k : Fin 16, ¬ EntryHits c.pid va c.tlb[k]) : tlbMatch c va = none := by
  apply lowestSlot_eq_none
  intro k; have := h k; rw [← matches_iff] at this; simpa using this

end Sys2Proof.Machine
end

