-- ==== Sys2Proof/Laws/Registers.lean ====
section
/-! SUPPORT. Reading a register or a control register after each write: the resolver (spec/10_state.md R20 to R23) and the control
registers (R34 to R44). -/

namespace Sys2Proof.Machine

/-! ### The resolver -/

theorem resolve_zero (m : Mode) : resolve m 0#5 = .zero := by simp [resolve]

theorem resolve_sp (m : Mode) : resolve m spReg = stackTarget m := by simp [resolve, spReg]

theorem resolve_gpr (m : Mode) (r : Reg) (h0 : r ≠ 0#5) (h31 : r ≠ spReg) :
    resolve m r = .gpr (Fin.ofNat 30 (r.toNat - 1)) := by
  simp only [spReg] at h31; simp [resolve, h0, h31]

theorem reg_slot_injective : ∀ q r : Reg, q ≠ 0#5 → q ≠ 31#5 → r ≠ 0#5 → r ≠ 31#5 →
    Fin.ofNat 30 (q.toNat - 1) = Fin.ofNat 30 (r.toNat - 1) → q = r := by
  intro q r hq0 hq31 hr0 hr31 h
  have hq : q.toNat ≠ 0 := fun e => hq0 (BitVec.eq_of_toNat_eq (by simpa using e))
  have hr : r.toNat ≠ 0 := fun e => hr0 (BitVec.eq_of_toNat_eq (by simpa using e))
  have hq' : q.toNat ≠ 31 := fun e => hq31 (BitVec.eq_of_toNat_eq (by simpa using e))
  have hr' : r.toNat ≠ 31 := fun e => hr31 (BitVec.eq_of_toNat_eq (by simpa using e))
  have h1 := q.isLt
  have h2 := r.isLt
  have h3 := congrArg Fin.val h
  simp only [Fin.val_ofNat] at h3
  apply BitVec.eq_of_toNat_eq
  omega

/-- Different register numbers name different places, but for r0, which names none. -/
theorem resolve_injective (m : Mode) (q r : Reg) (h : resolve m q = resolve m r) : q = r := by
  by_cases hq0 : q = 0#5 <;> by_cases hr0 : r = 0#5 <;> by_cases hq31 : q = 31#5 <;> by_cases hr31 : r = 31#5 <;>
    simp_all [resolve, stackTarget]
  all_goals first
    | (cases m <;> simp_all)
    | exact reg_slot_injective q r hq0 hq31 hr0 hr31 (Fin.ext (by simpa [Fin.ofNat] using congrArg Fin.val h))

theorem readTarget_writeTarget (c : CoreState) (t u : RegTarget) (v : Word) :
    (c.writeTarget t v).readTarget u = if u = t ∧ t ≠ .zero then v else c.readTarget u := by
  cases t <;> cases u <;> simp [CoreState.writeTarget, CoreState.readTarget]
  case gpr.gpr k l =>
    by_cases h : l = k
    · subst h; simp
    · simp [h, Fin.val_inj, Ne.symm h]

/-- Reading r0 answers 0 (R20). -/
@[simp] theorem reg_zero (c : CoreState) : c.reg 0#5 = 0#32 := by simp [CoreState.reg, resolve_zero, CoreState.readTarget]

/-- A register after a write to a register. -/
theorem reg_setReg (c : CoreState) (r q : Reg) (v : Word) :
    (c.setReg r v).reg q = if q = r ∧ r ≠ 0#5 then v else c.reg q := by
  have hm : (c.setReg r v).mode = c.mode := core_setReg_mode c r v
  unfold CoreState.reg
  rw [hm, CoreState.setReg, readTarget_writeTarget]
  by_cases h : q = r
  · subst h
    by_cases h0 : q = 0#5
    · subst h0; simp [resolve_zero, CoreState.readTarget]
    · have : resolve c.mode q ≠ .zero := fun e => h0 (resolve_injective c.mode q 0#5 (by rw [e, resolve_zero]))
      simp [h0, this]
  · have : resolve c.mode q ≠ resolve c.mode r := fun e => h (resolve_injective _ _ _ e)
    simp [h, this]

/-- What the destination holds: the value, or 0 where it is r0. -/
@[simp] theorem reg_setReg_same (c : CoreState) (r : Reg) (v : Word) :
    (c.setReg r v).reg r = if r = 0#5 then 0#32 else v := by
  rw [reg_setReg]; by_cases h : r = 0#5
  · subst h; simp
  · simp [h]

theorem reg_setReg_other (c : CoreState) (r q : Reg) (v : Word) (h : q ≠ r) : (c.setReg r v).reg q = c.reg q := by
  rw [reg_setReg]; simp [h]

/-- A register read depends on the mode, the storage and the stack pointers only. -/
theorem reg_congr (c d : CoreState) (hm : d.mode = c.mode) (hg : d.gpr = c.gpr) (hu : d.usp = c.usp) (hk : d.ksp = c.ksp)
    (hi : d.isp = c.isp) (r : Reg) : d.reg r = c.reg r := by
  unfold CoreState.reg; rw [hm]
  cases resolve c.mode r <;> simp [CoreState.readTarget, *]

@[simp] theorem setFlags_reg (s : State) (f : BitVec 4) (r : Reg) : (s.setFlags f).core.reg r = s.core.reg r :=
  reg_congr _ _ rfl rfl rfl rfl rfl r
@[simp] theorem advance_reg (s : State) (r : Reg) : s.advance.core.reg r = s.core.reg r :=
  reg_congr _ _ rfl rfl rfl rfl rfl r
@[simp] theorem jump_reg (s : State) (a : Word) (r : Reg) : (s.jump a).core.reg r = s.core.reg r :=
  reg_congr _ _ rfl rfl rfl rfl rfl r
@[simp] theorem setRun_reg (s : State) (x : RunState) (r : Reg) : (s.setRun x).core.reg r = s.core.reg r :=
  reg_congr _ _ rfl rfl rfl rfl rfl r

/-! ### Control registers -/

/-- A general-register write reaches a control register only through r31 (R21, R22). -/
theorem readCr_setReg (c : CoreState) (r : Reg) (v : Word) (q : CReg) :
    (c.setReg r v).readCr q = if r = spReg ∧ q = stackCReg c.mode then v else c.readCr q := by
  by_cases h0 : r = 0#5
  · subst h0
    have e : c.setReg 0#5 v = c := by simp [CoreState.setReg, resolve_zero, CoreState.writeTarget]
    simp [e, spReg]
  by_cases h31 : r = spReg
  · subst h31
    cases hm : c.mode <;> cases q <;>
      simp [CoreState.setReg, resolve_sp, hm, stackTarget, CoreState.writeTarget, CoreState.readCr, stackCReg]
  · simp only [CoreState.setReg, resolve_gpr c.mode r h0 h31, CoreState.writeTarget, h31, false_and, if_false]
    cases q <;> rfl

/-- The stack pointer behind r31 is the control register of the mode (R21). -/
theorem reg_sp (c : CoreState) : c.reg spReg = c.readCr (stackCReg c.mode) := by
  cases hm : c.mode <;> simp [CoreState.reg, resolve_sp, hm, stackTarget, CoreState.readTarget, stackCReg, CoreState.readCr]

/-- Two cores whose control registers are the same fields read the same. -/
theorem readCr_congr (c d : CoreState) (h1 : d.pid = c.pid) (h2 : d.imr = c.imr) (h3 : d.isr = c.isr) (h4 : d.epc = c.epc)
    (h5 : d.efg = c.efg) (h6 : d.ksp = c.ksp) (h7 : d.isp = c.isp) (h8 : d.usp = c.usp) (h9 : d.tlbAddr = c.tlbAddr)
    (h10 : d.mbi = c.mbi) (h11 : d.mbo = c.mbo) (h12 : d.cdv = c.cdv) (h13 : d.cid = c.cid) (h14 : d.flg = c.flg)
    (q : CReg) : d.readCr q = c.readCr q := by
  cases q <;> simp [CoreState.readCr, *]

@[simp] theorem advance_readCr (s : State) (q : CReg) : s.advance.core.readCr q = s.core.readCr q := by cases q <;> rfl
@[simp] theorem jump_readCr (s : State) (a : Word) (q : CReg) : (s.jump a).core.readCr q = s.core.readCr q := by
  cases q <;> rfl
@[simp] theorem setRun_readCr (s : State) (x : RunState) (q : CReg) : (s.setRun x).core.readCr q = s.core.readCr q := by
  cases q <;> rfl

/-- The flags write reaches the control register flg only. -/
theorem setFlags_readCr (s : State) (f : BitVec 4) (q : CReg) (h : q ≠ .flg) :
    (s.setFlags f).core.readCr q = s.core.readCr q := by
  cases q <;> first | rfl | exact absurd rfl h

/-- Trap entry reaches the control registers epc and efg only (R292, R293). -/
theorem trapEntry_readCr (s : State) (v : BitVec 8) (e : Word) (m : Mode) (q : CReg) (h1 : q ≠ .epc) (h2 : q ≠ .efg) :
    (trapEntry s v e m).core.readCr q = s.core.readCr q := by
  cases q <;> first | rfl | exact absurd rfl h1 | exact absurd rfl h2

/-- A return from a trap reaches the control register flg only (R294). -/
theorem returnTo_readCr (s : State) (m : Mode) (f : BitVec 4) (q : CReg) (h : q ≠ .flg) :
    (returnTo s m f).core.readCr q = s.core.readCr q := by
  cases q <;> first | rfl | exact absurd rfl h

/-- The value a control register holds after a write: the bits it keeps, the others 0; cid keeps its own (R34, R241). -/
def keptBits (c : CoreState) (r : CReg) (v : Word) : Word :=
  match r with
  | .pid => v &&& 0xFF#32
  | .imr => v &&& imrMask
  | .isr => v &&& 0xFFFF#32
  | .efg | .flg => v &&& 0xF#32
  | .cid => c.cid
  | .epc | .ksp | .isp | .usp | .tlb | .mbi | .mbo | .cdv => v

theorem low_bits_kept (v : Word) (n : Nat) :
    (v.extractLsb' 0 n).setWidth 32 = v &&& BitVec.ofNat 32 (2 ^ n - 1) := by
  apply BitVec.eq_of_getLsbD_eq
  intro i hi
  simp only [BitVec.getLsbD_setWidth, BitVec.getLsbD_extractLsb', BitVec.getLsbD_and, BitVec.getLsbD_ofNat,
    Nat.testBit_two_pow_sub_one, hi, decide_true, Bool.true_and, Nat.zero_add, Bool.and_comm]

/-- A control register after a write to a control register. -/
theorem readCr_writeCr (c : CoreState) (r q : CReg) (v : Word) :
    (c.writeCr r v).readCr q = if q = r then keptBits c r v else c.readCr q := by
  by_cases h : q = r
  · subst h
    have h8 := low_bits_kept v 8
    have h16 := low_bits_kept v 16
    have h4 := low_bits_kept v 4
    cases q <;> simp_all [CoreState.writeCr, CoreState.readCr, keptBits]
  · cases r <;> cases q <;> first | rfl | exact absurd rfl h

/-- A general register after a write to a control register: only the stack pointer of the mode is reached. -/
theorem reg_writeCr (c : CoreState) (k : CReg) (v : Word) (r : Reg) :
    (c.writeCr k v).reg r = if r = spReg ∧ k = stackCReg c.mode then v else c.reg r := by
  have hm : (c.writeCr k v).mode = c.mode := by cases k <;> rfl
  by_cases h31 : r = spReg
  · subst h31
    rw [reg_sp, hm, readCr_writeCr, reg_sp]
    cases hmode : c.mode <;> cases k <;> simp [stackCReg, keptBits]
  · simp only [h31, false_and, if_false]
    by_cases h0 : r = 0#5
    · subst h0; simp
    · unfold CoreState.reg
      rw [hm, resolve_gpr _ _ h0 h31]
      cases k <;> rfl

/-! ### Registers written since reset (R380) -/

theorem targetWritten_writeTarget (c : CoreState) (t u : RegTarget) (v : Word) :
    (c.writeTarget t v).targetWritten u = if u = t then true else c.targetWritten u := by
  cases t <;> cases u <;> simp [CoreState.writeTarget, CoreState.targetWritten]
  case gpr.gpr k l =>
    by_cases h : l = k
    · subst h; simp
    · simp [h, Fin.val_inj, Ne.symm h]

/-- r0 needs no write. -/
@[simp] theorem regWritten_zero (c : CoreState) : c.regWritten 0#5 = true := by
  simp [CoreState.regWritten, resolve_zero, CoreState.targetWritten]

/-- A write to a register marks that register. -/
theorem regWritten_setReg (c : CoreState) (r q : Reg) (v : Word) :
    (c.setReg r v).regWritten q = if q = r then true else c.regWritten q := by
  have hm : (c.setReg r v).mode = c.mode := core_setReg_mode c r v
  unfold CoreState.regWritten
  rw [hm, CoreState.setReg, targetWritten_writeTarget]
  by_cases h : q = r
  · subst h; simp
  · have : resolve c.mode q ≠ resolve c.mode r := fun e => h (resolve_injective _ _ _ e)
    simp [h, this]

@[simp] theorem regWritten_setReg_same (c : CoreState) (r : Reg) (v : Word) : (c.setReg r v).regWritten r = true := by
  simp [regWritten_setReg]

/-- A mark depends on the mode and the marks only. -/
theorem regWritten_congr (c d : CoreState) (hm : d.mode = c.mode) (hw : d.written = c.written) (r : Reg) :
    d.regWritten r = c.regWritten r := by
  unfold CoreState.regWritten; rw [hm]
  cases resolve c.mode r <;> simp [CoreState.targetWritten, hw]

theorem crWritten_congr (c d : CoreState) (hw : d.written = c.written) (q : CReg) : d.crWritten q = c.crWritten q := by
  cases q <;> simp [CoreState.crWritten, hw]

@[simp] theorem setFlags_regWritten (s : State) (f : BitVec 4) (r : Reg) :
    (s.setFlags f).core.regWritten r = s.core.regWritten r := regWritten_congr _ _ rfl rfl r
@[simp] theorem advance_regWritten (s : State) (r : Reg) : s.advance.core.regWritten r = s.core.regWritten r :=
  regWritten_congr _ _ rfl rfl r
@[simp] theorem jump_regWritten (s : State) (a : Word) (r : Reg) : (s.jump a).core.regWritten r = s.core.regWritten r :=
  regWritten_congr _ _ rfl rfl r
@[simp] theorem setFlags_crWritten (s : State) (f : BitVec 4) (q : CReg) :
    (s.setFlags f).core.crWritten q = s.core.crWritten q := crWritten_congr _ _ rfl q
@[simp] theorem advance_crWritten (s : State) (q : CReg) : s.advance.core.crWritten q = s.core.crWritten q :=
  crWritten_congr _ _ rfl q
@[simp] theorem jump_crWritten (s : State) (a : Word) (q : CReg) : (s.jump a).core.crWritten q = s.core.crWritten q :=
  crWritten_congr _ _ rfl q

/-- A general-register write marks a control register only through r31 (R21, R22). -/
theorem crWritten_setReg (c : CoreState) (r : Reg) (v : Word) (q : CReg) :
    (c.setReg r v).crWritten q = if r = spReg ∧ q = stackCReg c.mode then true else c.crWritten q := by
  by_cases h0 : r = 0#5
  · subst h0
    have e : c.setReg 0#5 v = c := by simp [CoreState.setReg, resolve_zero, CoreState.writeTarget]
    simp [e, spReg]
  by_cases h31 : r = spReg
  · subst h31
    cases hm : c.mode <;> cases q <;>
      simp [CoreState.setReg, resolve_sp, hm, stackTarget, CoreState.writeTarget, CoreState.crWritten, stackCReg]
  · simp only [CoreState.setReg, resolve_gpr c.mode r h0 h31, CoreState.writeTarget, h31, false_and, if_false]
    cases q <;> rfl

/-- The mark behind r31 is that of the mode's stack pointer (R21). -/
theorem regWritten_sp (c : CoreState) : c.regWritten spReg = c.crWritten (stackCReg c.mode) := by
  cases hm : c.mode <;>
    simp [CoreState.regWritten, resolve_sp, hm, stackTarget, CoreState.targetWritten, stackCReg, CoreState.crWritten]

/-- A write to a control register marks that register. -/
theorem crWritten_writeCr (c : CoreState) (r q : CReg) (v : Word) :
    (c.writeCr r v).crWritten q = if q = r then true else c.crWritten q := by
  cases r <;> cases q <;> rfl

/-- The marks of the general registers after a write to a control register. -/
theorem regWritten_writeCr (c : CoreState) (k : CReg) (v : Word) (r : Reg) :
    (c.writeCr k v).regWritten r = if r = spReg ∧ k = stackCReg c.mode then true else c.regWritten r := by
  have hm : (c.writeCr k v).mode = c.mode := by cases k <;> rfl
  by_cases h31 : r = spReg
  · subst h31
    rw [regWritten_sp, hm, crWritten_writeCr, regWritten_sp]
    cases hmode : c.mode <;> cases k <;> simp [stackCReg]
  · simp only [h31, false_and, if_false]
    by_cases h0 : r = 0#5
    · subst h0; simp
    · unfold CoreState.regWritten
      rw [hm, resolve_gpr _ _ h0 h31]
      cases k <;> rfl

/-- Trap entry marks epc and efg only (R292). -/
theorem trapEntry_crWritten (s : State) (v : BitVec 8) (e : Word) (m : Mode) (q : CReg) :
    (trapEntry s v e m).core.crWritten q = if q = .epc ∨ q = .efg then true else s.core.crWritten q := by
  cases q <;> rfl

/-! ### An unwritten register holds its reset value -/

theorem unwritten_writeTarget (c : CoreState) (h : c.unwrittenHoldReset) (t : RegTarget) (v : Word) :
    (c.writeTarget t v).unwrittenHoldReset := by
  obtain ⟨h1, h2⟩ := h
  refine ⟨fun x hx => ?_, fun q hq => ?_⟩
  · rw [targetWritten_writeTarget] at hx
    rw [readTarget_writeTarget]
    split at hx
    · cases hx
    · next hne => rw [if_neg (fun e => hne e.1)]; exact h1 x hx
  · have := h2 q
    cases t <;> cases q <;>
      simp_all [CoreState.writeTarget, CoreState.crWritten, CoreState.readCr]

theorem unwritten_setReg (c : CoreState) (h : c.unwrittenHoldReset) (r : Reg) (v : Word) :
    (c.setReg r v).unwrittenHoldReset := unwritten_writeTarget c h _ v

theorem unwritten_writeCr (c : CoreState) (h : c.unwrittenHoldReset) (k : CReg) (v : Word) :
    (c.writeCr k v).unwrittenHoldReset := by
  obtain ⟨h1, h2⟩ := h
  refine ⟨fun x hx => ?_, fun q hq => ?_⟩
  · have := h1 x
    cases k <;> cases x <;> simp_all [CoreState.writeCr, CoreState.targetWritten, CoreState.readTarget]
  · rw [crWritten_writeCr] at hq
    rw [readCr_writeCr]
    split at hq
    · cases hq
    · next hne => rw [if_neg hne]; exact h2 q hq

theorem unwritten_trapEntry (s : State) (h : s.core.unwrittenHoldReset) (v : BitVec 8) (e : Word) (m : Mode) :
    (trapEntry s v e m).core.unwrittenHoldReset := by
  obtain ⟨h1, h2⟩ := h
  refine ⟨fun x hx => h1 x hx, fun q hq => ?_⟩
  have := h2 q
  cases q <;> simp_all [CoreState.crWritten, CoreState.readCr]

theorem unwritten_setTlbAddr (s : State) (h : s.core.unwrittenHoldReset) (va : Word) :
    (s.setTlbAddr va).core.unwrittenHoldReset := by
  obtain ⟨h1, h2⟩ := h
  refine ⟨fun x hx => h1 x hx, fun q hq => ?_⟩
  have := h2 q
  cases q <;> simp_all [CoreState.crWritten, CoreState.readCr]

theorem unwritten_receiveIpi (c : CoreState) (h : c.unwrittenHoldReset) (p : Word) :
    (receiveIpi p c).unwrittenHoldReset := by
  obtain ⟨h1, h2⟩ := h
  refine ⟨fun x hx => h1 x hx, fun q hq => ?_⟩
  have := h2 q
  cases q <;> simp_all [CoreState.crWritten, CoreState.readCr, receiveIpi]

/-- Changing none of the registers it is about, nor their marks. -/
theorem unwritten_congr {c d : CoreState} (h : c.unwrittenHoldReset) (hg : d.gpr = c.gpr) (hw : d.written = c.written)
    (h1 : d.epc = c.epc) (h2 : d.efg = c.efg) (h3 : d.ksp = c.ksp) (h4 : d.isp = c.isp) (h5 : d.usp = c.usp)
    (h6 : d.tlbAddr = c.tlbAddr) (h7 : d.mbi = c.mbi) (h8 : d.mbo = c.mbo) (h9 : d.cdv = c.cdv) :
    d.unwrittenHoldReset := by
  refine ⟨fun x hx => ?_, fun q hq => ?_⟩
  · have := h.1 x
    cases x <;> simp_all [CoreState.targetWritten, CoreState.readTarget]
  · have := h.2 q
    cases q <;> simp_all [CoreState.crWritten, CoreState.readCr]

end Sys2Proof.Machine
end

