-- ==== Sys2Proof/Laws/Ops.lean ====
section
/-! SUPPORT. The shared operations, each with everything it can answer: traps (spec/60_exceptions.md R292), the privilege check
(R282), translated accesses (spec/20_memory.md R71), and the frames of register writes. -/

namespace Sys2Proof.Machine

/-! ### Traps -/

/-- Trap entry enters the trap, or the core is STUCK (R292, R297). -/
theorem enterTrap_cases (s : State) (v : BitVec 8) (e : Word) (m : Mode) :
    enterTrap s v e m = .next (trapEntry s v e m) ∨
      (enterTrap s v e m = .next s.stick ∧ s.params.nestedTrapFatal = true ∧ s.core.trapLive = true ∧
        m ≠ .interrupt) := by
  unfold enterTrap
  split
  · next h => exact .inr ⟨rfl, by simpa [and_assoc] using h⟩
  · exact .inl rfl

/-- Trap entry where nothing is STUCK. -/
theorem enterTrap_enters {s : State} (h : TrapsEnter s) (v : BitVec 8) (e : Word) (m : Mode) :
    enterTrap s v e m = .next (trapEntry s v e m) := by
  rcases enterTrap_cases s v e m with h' | ⟨_, h1, h2, _⟩
  · exact h'
  · rcases h with h | h <;> simp_all

/-- An interrupt is never STUCK (R297). -/
theorem enterTrap_interrupt (s : State) (v : BitVec 8) (e : Word) :
    enterTrap s v e .interrupt = .next (trapEntry s v e .interrupt) := by
  rcases enterTrap_cases s v e .interrupt with h | ⟨_, _, _, h⟩
  · exact h
  · exact absurd rfl h

/-- Trap entry where an exception or sys is STUCK (R297). -/
theorem enterTrap_sticks {s : State} (h : ¬ TrapsEnter s) (v : BitVec 8) (e : Word) {m : Mode} (hm : m ≠ .interrupt) :
    enterTrap s v e m = .next s.stick := by
  unfold TrapsEnter at h
  unfold enterTrap
  rw [if_pos]
  simp_all

/-- The next states of trap entry: the trap, or the STUCK core. -/
theorem enterTrap_next {s t : State} {v : BitVec 8} {e : Word} {m : Mode} (h : enterTrap s v e m = .next t) :
    t = trapEntry s v e m ∨ (t = s.stick ∧ ¬ TrapsEnter s) := by
  rcases enterTrap_cases s v e m with h' | ⟨h', h1, h2, _⟩ <;> rw [h'] at h <;> cases h
  · exact .inl rfl
  · exact .inr ⟨rfl, by simp [TrapsEnter, h1, h2]⟩

/-- Trap entry always answers a next state. -/
theorem enterTrap_goes (s : State) (v : BitVec 8) (e : Word) (m : Mode) : ∃ t, enterTrap s v e m = .next t := by
  rcases enterTrap_cases s v e m with h | ⟨h, _⟩ <;> exact ⟨_, h⟩

theorem stick_eq (s : State) : s.stick = stuckState s := rfl
theorem setTlbAddr_eq (s : State) (va : Word) : s.setTlbAddr va = tlbAddressState s va := rfl

/-- What trap entry writes (R292). -/
theorem trapEntry_taken (s : State) (v : BitVec 8) (e : Word) (m : Mode) : TrapTaken s (trapEntry s v e m) v e m :=
  ⟨rfl, rfl, rfl, rfl, rfl, rfl⟩

/-- What trap entry leaves alone (R293). -/
theorem trapEntry_frame (s : State) (v : BitVec 8) (e : Word) (m : Mode) : TrapFrame s (trapEntry s v e m) [] := by
  refine ⟨⟨rfl, rfl, rfl, rfl, rfl, fun _ => rfl⟩, rfl, rfl, rfl, rfl, rfl, rfl, fun q hq => ?_, fun q hq => ?_⟩
  · simp only [List.mem_cons, not_or] at hq
    exact ⟨trapEntry_readCr s v e m q hq.1 hq.2.1, by simp [trapEntry_crWritten, hq]⟩
  · cases q <;> first | rfl | simp at hq

/-- The faulting virtual address is in `tlb` before a miss's trap is entered (R75). -/
theorem miss_frame (s : State) (va : Word) (v : BitVec 8) (e : Word) (m : Mode) :
    TrapFrame s (trapEntry (s.setTlbAddr va) v e m) [.tlb] := by
  refine ⟨⟨rfl, rfl, rfl, rfl, rfl, fun _ => rfl⟩, rfl, rfl, rfl, rfl, rfl, rfl, fun q hq => ?_, fun q hq => ?_⟩ <;>
    cases q <;> first | exact ⟨rfl, rfl⟩ | rfl | simp at hq

/-- The vector of a miss follows the mode (R75). -/
def missVector (m : Mode) : BitVec 8 := if m = .user then 0x82#8 else 0x83#8

/-- The state in which a miss leaves the core (R75, R292). -/
def missEntry (s : State) (va : Word) : State :=
  trapEntry (s.setTlbAddr va) (missVector s.core.mode) s.core.pc .kernel

theorem raiseMiss_eq (s : State) (va : Word) :
    raiseMiss s va = enterTrap (s.setTlbAddr va) (missVector s.core.mode) s.core.pc .kernel := by
  unfold raiseMiss raise missVector
  by_cases h : s.core.mode = .user <;> simp [h, Exception.vector]

theorem raiseMiss_enters {s : State} (h : TrapsEnter s) (va : Word) : raiseMiss s va = .next (missEntry s va) := by
  rw [raiseMiss_eq]; exact enterTrap_enters (by exact h) _ _ _

theorem raiseMiss_sticks {s : State} (h : ¬ TrapsEnter s) (va : Word) : raiseMiss s va = .next (s.setTlbAddr va).stick := by
  rw [raiseMiss_eq]; exact enterTrap_sticks (by exact h) _ _ (by simp)

/-- The next states of a miss (R71, R75, R297). -/
theorem raiseMiss_next {s t : State} {va : Word} (h : raiseMiss s va = .next t) :
    t = missEntry s va ∨ (t = (s.setTlbAddr va).stick ∧ ¬ TrapsEnter s) := by
  rw [raiseMiss_eq] at h; exact enterTrap_next h

/-! ### The privilege check -/

theorem privileged_user {s : State} (h : s.core.mode = .user) (r : Result) : privileged s r = raise s .priv := by
  simp [privileged, h]

theorem privileged_other {s : State} (h : s.core.mode ≠ .user) (r : Result) : privileged s r = r := by
  simp [privileged, h]

/-- An exception's next states: its entry at the pc, or the STUCK core. -/
def RaisesIn (s t : State) (v : BitVec 8) : Prop :=
  t = trapEntry s v s.core.pc .kernel ∨ (t = s.stick ∧ ¬ TrapsEnter s)

/-- The next states of a privileged instruction: its effect, or EXC_PRIV's (R282). -/
theorem privileged_next {s t : State} {r : Result} (h : privileged s r = .next t) :
    (s.core.mode = .user ∧ RaisesIn s t 0x81#8) ∨ (s.core.mode ≠ .user ∧ r = .next t) := by
  by_cases hm : s.core.mode = .user
  · rw [privileged_user hm] at h; exact .inl ⟨hm, enterTrap_next h⟩
  · rw [privileged_other hm] at h; exact .inr ⟨hm, h⟩

/-- A crmv whose index names a register, where it is not taken away by the privilege check. -/
theorem withCReg_some {s : State} {k : CrIndex} {r : CReg} (hk : CReg.ofIndex k = some r) (f : CReg → Result) :
    withCReg s k f = privileged s (f r) := by
  simp [withCReg, hk]

theorem withCReg_none {s : State} {k : CrIndex} (hk : CReg.ofIndex k = none) (f : CReg → Result) :
    withCReg s k f = raise s .instr := by
  simp [withCReg, hk]

/-- The next states of a crmv (R117, R241, R242). -/
theorem withCReg_next {s t : State} {k : CrIndex} {f : CReg → Result} (h : withCReg s k f = .next t) :
    (CReg.ofIndex k = none ∧ RaisesIn s t 0x80#8) ∨
      ∃ r, CReg.ofIndex k = some r ∧
        ((s.core.mode = .user ∧ RaisesIn s t 0x81#8) ∨ (s.core.mode ≠ .user ∧ f r = .next t)) := by
  cases hk : CReg.ofIndex k with
  | none => rw [withCReg_none hk] at h; exact .inl ⟨rfl, enterTrap_next h⟩
  | some r => rw [withCReg_some hk] at h; exact .inr ⟨r, rfl, privileged_next h⟩

/-! ### Translated accesses -/

/-- An access that translates goes on at its physical address (R71). -/
theorem withAccess_at {s : State} {ea : Word} {w : Width} {i : Intent} {pa : Word} (h : AccessAt s ea w i pa)
    (k : Word → Result) : withAccess s ea w i k = k pa := by
  obtain ⟨va, h1, h2⟩ := h
  simp [withAccess, h1, h2]

/-- An access that misses traps before it does anything (R71, R182). -/
theorem withAccess_miss {s : State} {ea : Word} {w : Width} {i : Intent} {va : Word} (h : AccessMisses s ea w i va)
    (k : Word → Result) : withAccess s ea w i k = raiseMiss s va := by
  simp [withAccess, h.1, h.2]

/-- An access refused for its alignment (R65). -/
theorem withAccess_refused {s : State} {ea : Word} {w : Width} {i : Intent} (h : alignAddr s.params.misalign ea w = none)
    (k : Word → Result) : withAccess s ea w i k = .next s.stick := by
  simp [withAccess, h]

/-- Everything a translated access can answer. -/
theorem withAccess_cases (s : State) (ea : Word) (w : Width) (i : Intent) (k : Word → Result) :
    (alignAddr s.params.misalign ea w = none ∧ withAccess s ea w i k = .next s.stick) ∨
      (∃ va, AccessMisses s ea w i va ∧ withAccess s ea w i k = raiseMiss s va) ∨
      ∃ pa, AccessAt s ea w i pa ∧ withAccess s ea w i k = k pa := by
  cases h1 : alignAddr s.params.misalign ea w with
  | none => exact .inl ⟨rfl, withAccess_refused h1 k⟩
  | some va =>
    cases h2 : translateVa s.core va i with
    | none => exact .inr (.inl ⟨va, ⟨h1, h2⟩, withAccess_miss ⟨h1, h2⟩ k⟩)
    | some pa => exact .inr (.inr ⟨pa, ⟨va, h1, h2⟩, withAccess_at ⟨va, h1, h2⟩ k⟩)

/-- The next states of a translated access: the core STUCK at its alignment, a miss's, or the continuation's. -/
theorem withAccess_next {s t : State} {ea : Word} {w : Width} {i : Intent} {k : Word → Result}
    (h : withAccess s ea w i k = .next t) :
    (t = s.stick ∧ alignAddr s.params.misalign ea w = none) ∨
      (∃ va, AccessMisses s ea w i va ∧ (t = missEntry s va ∨ (t = (s.setTlbAddr va).stick ∧ ¬ TrapsEnter s))) ∨
      ∃ pa, AccessAt s ea w i pa ∧ k pa = .next t := by
  rcases withAccess_cases s ea w i k with ⟨ha, e⟩ | ⟨va, hm, e⟩ | ⟨pa, ha, e⟩ <;> rw [e] at h
  · cases h; exact .inl ⟨rfl, ha⟩
  · exact .inr (.inl ⟨va, hm, raiseMiss_next h⟩)
  · exact .inr (.inr ⟨pa, ha, h⟩)

/-- Only REFUSE refuses an alignment (R65). -/
theorem alignAddr_none {m : Misalign} {ea : Word} {w : Width} (h : alignAddr m ea w = none) : m = .refuse := by
  cases m
  · cases h
  · rfl

/-- One address only. -/
theorem accessAt_unique {s : State} {ea : Word} {w : Width} {i : Intent} {pa pb : Word} (ha : AccessAt s ea w i pa)
    (hb : AccessAt s ea w i pb) : pa = pb := by
  obtain ⟨va, h1, h2⟩ := ha
  obtain ⟨vb, g1, g2⟩ := hb
  rw [h1] at g1; cases g1; rw [h2] at g2; cases g2; rfl

/-! ### Frames of register writes -/

theorem sameOutside_refl (s : State) : SameOutside s s := ⟨rfl, rfl, rfl, rfl, rfl, fun _ => rfl⟩

/-- Writing one general register and moving the pc. -/
theorem setReg_advance_frame (s : State) (r : Reg) (v : Word) : Frame s ((s.setReg r v).advance) [r] [] := by
  refine ⟨⟨rfl, rfl, rfl, rfl, rfl, fun _ => rfl⟩, ?_, ?_, ?_⟩
  · exact ⟨by simp, by simp, by simp, by simp, by simp, by simp, by simp⟩
  · intro q hq
    simp only [List.mem_singleton] at hq
    rw [advance_reg, advance_regWritten, setReg_core, reg_setReg_other _ _ _ _ hq, regWritten_setReg, if_neg hq]
    exact ⟨rfl, rfl⟩
  · intro q _ hq
    have : ¬ (r = spReg ∧ q = stackCReg s.core.mode) := by rintro ⟨rfl, hq'⟩; exact hq ⟨by simp, hq'⟩
    rw [advance_readCr, advance_crWritten, setReg_core, readCr_setReg, crWritten_setReg, if_neg this, if_neg this]
    exact ⟨rfl, rfl⟩

/-- Writing one general register and the flags, and moving the pc. -/
theorem setReg_setFlags_advance_frame (s : State) (r : Reg) (v : Word) (f : BitVec 4) :
    Frame s (((s.setReg r v).setFlags f).advance) [r] [.flg] := by
  refine ⟨⟨rfl, rfl, rfl, rfl, rfl, fun _ => rfl⟩, ?_, ?_, ?_⟩
  · exact ⟨by simp, by simp, by simp, by simp, by simp, by simp, by simp⟩
  · intro q hq
    simp only [List.mem_singleton] at hq
    rw [advance_reg, advance_regWritten, setFlags_reg, setFlags_regWritten, setReg_core, reg_setReg_other _ _ _ _ hq,
      regWritten_setReg, if_neg hq]
    exact ⟨rfl, rfl⟩
  · intro q hf hq
    have : ¬ (r = spReg ∧ q = stackCReg s.core.mode) := by rintro ⟨rfl, hq'⟩; exact hq ⟨by simp, hq'⟩
    rw [advance_readCr, advance_crWritten, setFlags_readCr _ _ _ (by simpa using hf), setFlags_crWritten, setReg_core,
      readCr_setReg, crWritten_setReg, if_neg this, if_neg this]
    exact ⟨rfl, rfl⟩

/-- Moving the pc only. -/
theorem jump_frame (s : State) (a : Word) : Frame s (s.jump a) [] [] :=
  ⟨⟨rfl, rfl, rfl, rfl, rfl, fun _ => rfl⟩, ⟨rfl, rfl, rfl, rfl, rfl, rfl, rfl⟩,
    fun r _ => ⟨jump_reg s a r, jump_regWritten s a r⟩, fun q _ _ => ⟨jump_readCr s a q, jump_crWritten s a q⟩⟩

theorem advance_frame (s : State) : Frame s s.advance [] [] :=
  ⟨⟨rfl, rfl, rfl, rfl, rfl, fun _ => rfl⟩, ⟨rfl, rfl, rfl, rfl, rfl, rfl, rfl⟩,
    fun r _ => ⟨advance_reg s r, advance_regWritten s r⟩, fun q _ _ => ⟨advance_readCr s q, advance_crWritten s q⟩⟩

/-! ### The shared operations as the claims say them -/

/-- The four flags of a packed register (R31). -/
theorem packFlags_bits (z n c v : Bool) :
    (packFlags z n c v).getLsbD 0 = z ∧ (packFlags z n c v).getLsbD 1 = n ∧ (packFlags z n c v).getLsbD 2 = c ∧
      (packFlags z n c v).getLsbD 3 = v := by
  cases z <;> cases n <;> cases c <;> cases v <;> decide

/-- An arithmetic instruction is one write of a result and the flags. -/
theorem writeAlu_computes (s : State) (i : Instr) (rD : Reg) (r : Word) (c v : Bool)
    (h : exec i s = writeAlu s rD (aluOut r c v)) : Computes s i rD r c v := by
  refine ⟨_, h, ⟨by simp [State.reg]; rfl, by simp⟩, packFlags_bits _ _ _ _, ?_, setReg_setFlags_advance_frame _ _ _ _⟩
  simp

/-- A move is one write of a register. -/
theorem writeMove_moves (s : State) (i : Instr) (rD : Reg) (v : Word) (h : exec i s = writeMove s rD v) :
    MovesValue s i rD v := by
  refine ⟨_, h, ?_, by simp, setReg_advance_frame _ _ _⟩
  exact ⟨by unfold State.reg; simp, by simp⟩

/-- A jump goes to its target. -/
theorem jump_goes (s : State) (i : Instr) (x : Word) (h : exec i s = .next (s.jump x)) :
    GoesTo s i (x &&& 0xFFFFFFFC#32) :=
  ⟨_, h, rfl, jump_frame _ _⟩

/-- An instruction that only goes on. -/
theorem advance_goes (s : State) (i : Instr) (h : exec i s = .next s.advance) : GoesTo s i (s.core.pc + 4#32) :=
  ⟨_, h, rfl, advance_frame _⟩

/-- A branch goes to its target or on (R212). -/
theorem branchIf_branches (s : State) (i : Instr) (b : Bool) (P : Prop) (disp : Word)
    (h : exec i s = branchIf s b disp) (hb : P ↔ b = true) : BranchesIf s i P disp := by
  constructor
  · intro hp; have := hb.1 hp; subst this; exact jump_goes s i _ h
  · intro hp
    have : b = false := by simpa using fun e => hp (hb.2 e)
    subst this; exact advance_goes s i h

/-- A load reads its address (R181). -/
theorem loadTo_loads (s : State) (i : Instr) (rD : Reg) (w : Width) (ea : Word) (h : exec i s = loadTo s rD w ea) :
    LoadsFrom s i rD w ea := by
  intro pa ha
  unfold loadTo at h
  rw [withAccess_at ha] at h
  refine ⟨_, _, h, physRead_readsAs s pa w, ?_, ?_, ?_, ?_, ?_, ?_⟩
  · simp [HoldsResult, State.reg]
  · simp
  · simp [SameBeyondBus]
  · simp [SameHidden]
  · have := (setReg_advance_frame (physRead s pa w).2 rD (physRead s pa w).1).2.2
    simpa using this
  · simp

/-- A store writes its address (R181). -/
theorem storeFrom_stores (s : State) (hm : Memory.wf s.mem = true) (i : Instr) (v : Word) (w : Width) (ea : Word)
    (h : exec i s = storeFrom s v w ea) : StoresTo s i v w ea := by
  intro pa ha
  unfold storeFrom at h
  rw [withAccess_at ha] at h
  refine ⟨_, h, ?_, ?_, ?_⟩
  · simpa using physWrite_writesAs s hm pa w v
  · simp [State.advance]
  · simp [SameBeyondBus]

/-- A push stores below the stack pointer and moves it (R229, R231). -/
theorem pushWord_pushes (s : State) (hm : Memory.wf s.mem = true) (i : Instr) (v : Word) (k : State → State) (tgt : Word)
    (h : exec i s = pushWord s v k)
    (hk : ∀ t : State, t.core.pc = s.core.pc → Frame t (k t) [] [] ∧ (k t).mem = t.mem ∧ (k t).core.pc = tgt) :
    PushesTo s i v tgt := by
  intro pa ha
  unfold pushWord at h
  rw [withAccess_at ha] at h
  obtain ⟨⟨⟨f1, f2, f3, f4, f5, _⟩, fh, fr, fc⟩, hmem, hpc⟩ :=
    hk ((physWrite s pa .word v).setReg spReg (s.reg spReg - 4#32)) (by simp)
  have g := physWrite_writesAs s hm pa .word v
  refine ⟨_, h, ?_, ?_, hpc, ?_, ?_, ?_, ?_⟩
  · rw [hmem, f4]; simpa using g
  · have := (fr spReg (by simp)).1
    unfold State.reg at this ⊢; rw [this]; simp [spReg]
  · exact ⟨by simp [f1], by simp [f2], by simp [f3], by simp [f5]⟩
  · obtain ⟨a1, a2, a3, a4, a5, a6, a7⟩ := fh
    exact ⟨by simp [a1], by simp [a2], by simp [a3], by simp [a4], by simp [a5], by simp [a6], by simp [a7]⟩
  · intro r hr
    have hr' : r ≠ spReg := by simpa using hr
    rw [(fr r (by simp)).1, (fr r (by simp)).2]
    simp only [setReg_core, physWrite_core, regWritten_setReg, if_neg hr', reg_setReg_other _ _ _ _ hr', and_self]
  · intro q _ hq
    have : q ≠ stackCReg s.core.mode := fun e => hq ⟨by simp, e⟩
    rw [(fc q (by simp) (by simp)).1, (fc q (by simp) (by simp)).2]
    simp only [setReg_core, physWrite_core, readCr_setReg, crWritten_setReg, this, and_false, if_false, and_self]

/-- The IVT slot's address (R289). -/
theorem ivtAddress_eq (v : BitVec 8) : ivtAddress v = v.zeroExtend 32 * 4#32 := by
  have := v.isLt
  apply BitVec.eq_of_toNat_eq
  simp [ivtAddress, zext, Nat.shiftLeft_eq]

/-- IVT slots do not depend on the core (R289). -/
theorem ivtEntry_withCore (s : State) (c : CoreState) (v : BitVec 8) : ivtEntry (s.withCore c) v = ivtEntry s v := by
  unfold ivtEntry physRead; rw [withCore_params]; split <;> rfl

/-- What a miss's entry writes (R75, R292). -/
theorem missEntry_taken (s : State) (va : Word) :
    TrapTaken s (missEntry s va) (missVector s.core.mode) s.core.pc .kernel := by
  refine ⟨rfl, rfl, rfl, rfl, rfl, ?_⟩
  unfold missEntry
  show alignPc (ivtEntry _ _) = _
  unfold State.setTlbAddr
  rw [ivtEntry_withCore]; rfl

end Sys2Proof.Machine
end

