-- ==== Sys2Proof/Laws/PerInstr.lean ====
section
/-! SUPPORT. The family RowWord: the word of an instruction is covered by the row of spec/opcode_table.json that has its mnemonic
(spec/30_encoding.md R115). One lemma per constructor. -/

namespace Sys2Proof.Laws

open Sys2Proof

/-! ### The masks of the formats -/

/-- A field kept whole. -/
theorem and_ones (op : BitVec 6) : op &&& 0x3F#6 = op := BitVec.and_allOnes

theorem mask_R3 (op : BitVec 6) (a b c : BitVec 5) : encodeR3 op a b c &&& 0xFC0007FF#32 = encodeR3 op 0#5 0#5 0#5 := by
  rw [show (0xFC0007FF#32 : Word) = encodeF 0x3F#6 0#5 0#5 0#5 0x7FF#11 from by decide]
  unfold encodeR3 encodeF
  rw [BitVec.and_append, BitVec.and_append, BitVec.and_append, BitVec.and_append]
  simp [and_ones]

theorem mask_R2 (op : BitVec 6) (a b : BitVec 5) : encodeR2 op a b &&& 0xFC00FFFF#32 = encodeR2 op 0#5 0#5 := by
  rw [show (0xFC00FFFF#32 : Word) = encodeI16 0x3F#6 0#5 0#5 0xFFFF#16 from by decide]
  unfold encodeR2 encodeI16
  rw [BitVec.and_append, BitVec.and_append, BitVec.and_append]
  simp [and_ones]

theorem mask_R1 (op : BitVec 6) (a : BitVec 5) : encodeR1 op a &&& 0xFC1FFFFF#32 = encodeR1 op 0#5 := by
  rw [show (0xFC1FFFFF#32 : Word) = encodeI21 0x3F#6 0#5 0x1FFFFF#21 from by decide]
  unfold encodeR1 encodeI21
  rw [BitVec.and_append, BitVec.and_append]
  simp [and_ones]

theorem mask_I16 (op : BitVec 6) (a b : BitVec 5) (d : BitVec 16) :
    encodeI16 op a b d &&& 0xFC000000#32 = encodeI16 op 0#5 0#5 0#16 := by
  rw [show (0xFC000000#32 : Word) = encodeI16 0x3F#6 0#5 0#5 0#16 from by decide]
  unfold encodeI16
  rw [BitVec.and_append, BitVec.and_append, BitVec.and_append]
  simp [and_ones]

theorem mask_Movi (v : BitVec 2) (a : BitVec 5) (d : BitVec 16) :
    encodeMovi v a d &&& 0xFC1F0000#32 = encodeMovi v 0#5 0#16 := by
  rw [show (0xFC1F0000#32 : Word) = (0x3F#6 ++ 0#5 ++ 0x7#3 ++ 0x3#2 ++ 0#16 : BitVec (6 + 5 + 3 + 2 + 16)) from by decide]
  unfold encodeMovi
  rw [BitVec.and_append, BitVec.and_append, BitVec.and_append, BitVec.and_append]
  simp [show v &&& 3#2 = v from BitVec.and_allOnes]

theorem mask_I21 (op : BitVec 6) (a : BitVec 5) (d : BitVec 21) :
    encodeI21 op a d &&& 0xFC000000#32 = encodeI21 op 0#5 0#21 := by
  rw [show (0xFC000000#32 : Word) = encodeI21 0x3F#6 0#5 0#21 from by decide]
  unfold encodeI21
  rw [BitVec.and_append, BitVec.and_append]
  simp [and_ones]

theorem mask_F (op : BitVec 6) (a b c : BitVec 5) (d : BitVec 11) :
    encodeF op a b c d &&& 0xFC000000#32 = encodeF op 0#5 0#5 0#5 0#11 := by
  rw [show (0xFC000000#32 : Word) = encodeF 0x3F#6 0#5 0#5 0#5 0#11 from by decide]
  unfold encodeF
  rw [BitVec.and_append, BitVec.and_append, BitVec.and_append, BitVec.and_append]
  simp [and_ones]

theorem mask_J (op : BitVec 6) (d : BitVec 26) : encodeJ op d &&& 0xFC000000#32 = encodeJ op 0#26 := by
  rw [show (0xFC000000#32 : Word) = encodeJ 0x3F#6 0#26 from by decide]
  unfold encodeJ
  rw [BitVec.and_append]
  simp [and_ones]

theorem mask_Sys (d : BitVec 8) : encodeSys d &&& 0xFFFFFF00#32 = encodeSys 0#8 := by
  rw [show (0xFFFFFF00#32 : Word) = (0x3F#6 ++ 0x3FFFF#18 ++ 0#8 : BitVec (6 + 18 + 8)) from by decide]
  unfold encodeSys
  rw [BitVec.and_append, BitVec.and_append]
  simp [and_ones]

/-! ### The family -/

/-- The row of the opcode table with the instruction's mnemonic covers its word. -/
def RowWord.Statement (i : Instr) : Prop :=
  ∃ row ∈ opcodeTable, row.mnemonic = i.mnemonic ∧ encode i &&& row.mask = row.pattern

/-- A row found by its place in the table. -/
theorem rowWord_of (i : Instr) (k : Nat) (row : OpcodeRow) (hk : opcodeTable[k]? = some row)
    (hm : row.mnemonic = i.mnemonic) (he : encode i &&& row.mask = row.pattern) : RowWord.Statement i :=
  ⟨row, List.mem_of_getElem? hk, hm, he⟩

theorem RowWord.add (rD rA rB : Reg) : RowWord.Statement (.add rD rA rB) :=
  rowWord_of (.add rD rA rB) 0 _ rfl rfl ((mask_R3 _ _ _ _).trans (by decide))

theorem RowWord.sub (rD rA rB : Reg) : RowWord.Statement (.sub rD rA rB) :=
  rowWord_of (.sub rD rA rB) 1 _ rfl rfl ((mask_R3 _ _ _ _).trans (by decide))

theorem RowWord.and (rD rA rB : Reg) : RowWord.Statement (.and rD rA rB) :=
  rowWord_of (.and rD rA rB) 2 _ rfl rfl ((mask_R3 _ _ _ _).trans (by decide))

theorem RowWord.or (rD rA rB : Reg) : RowWord.Statement (.or rD rA rB) :=
  rowWord_of (.or rD rA rB) 3 _ rfl rfl ((mask_R3 _ _ _ _).trans (by decide))

theorem RowWord.xor (rD rA rB : Reg) : RowWord.Statement (.xor rD rA rB) :=
  rowWord_of (.xor rD rA rB) 4 _ rfl rfl ((mask_R3 _ _ _ _).trans (by decide))

theorem RowWord.lsl (rD rA rB : Reg) : RowWord.Statement (.lsl rD rA rB) :=
  rowWord_of (.lsl rD rA rB) 5 _ rfl rfl ((mask_R3 _ _ _ _).trans (by decide))

theorem RowWord.lsr (rD rA rB : Reg) : RowWord.Statement (.lsr rD rA rB) :=
  rowWord_of (.lsr rD rA rB) 6 _ rfl rfl ((mask_R3 _ _ _ _).trans (by decide))

theorem RowWord.rotr (rD rA rB : Reg) : RowWord.Statement (.rotr rD rA rB) :=
  rowWord_of (.rotr rD rA rB) 7 _ rfl rfl ((mask_R3 _ _ _ _).trans (by decide))

theorem RowWord.cmp (rA rB : Reg) : RowWord.Statement (.cmp rA rB) :=
  rowWord_of (.cmp rA rB) 8 _ rfl rfl ((mask_R2 _ _ _).trans (by decide))

theorem RowWord.mov (rD rA : Reg) : RowWord.Statement (.mov rD rA) :=
  rowWord_of (.mov rD rA) 9 _ rfl rfl ((mask_R2 _ _ _).trans (by decide))

theorem RowWord.movi (rD : Reg) (imm : Word) : RowWord.Statement (.movi rD imm) :=
  rowWord_of (.movi rD imm) 10 _ rfl rfl ((mask_Movi _ _ _).trans (by decide))

theorem RowWord.moviU (rD : Reg) (imm : Word) : RowWord.Statement (.moviU rD imm) :=
  rowWord_of (.moviU rD imm) 11 _ rfl rfl ((mask_Movi _ _ _).trans (by decide))

theorem RowWord.moviH (rD : Reg) (imm16 : BitVec 16) : RowWord.Statement (.moviH rD imm16) :=
  rowWord_of (.moviH rD imm16) 12 _ rfl rfl ((mask_Movi _ _ _).trans (by decide))

theorem RowWord.adpc (rD : Reg) (disp : Word) : RowWord.Statement (.adpc rD disp) :=
  rowWord_of (.adpc rD disp) 13 _ rfl rfl ((mask_I21 _ _ _).trans (by decide))

theorem RowWord.crmvW (crD : CrIndex) (rS : Reg) : RowWord.Statement (.crmvW crD rS) :=
  rowWord_of (.crmvW crD rS) 14 _ rfl rfl ((mask_R2 _ _ _).trans (by decide))

theorem RowWord.crmvR (rD : Reg) (crS : CrIndex) : RowWord.Statement (.crmvR rD crS) :=
  rowWord_of (.crmvR rD crS) 15 _ rfl rfl ((mask_R2 _ _ _).trans (by decide))

theorem RowWord.lw (rD : Reg) (disp : Word) : RowWord.Statement (.lw rD disp) :=
  rowWord_of (.lw rD disp) 16 _ rfl rfl ((mask_I21 _ _ _).trans (by decide))

theorem RowWord.sw (rS : Reg) (disp : Word) : RowWord.Statement (.sw rS disp) :=
  rowWord_of (.sw rS disp) 17 _ rfl rfl ((mask_I21 _ _ _).trans (by decide))

theorem RowWord.lwa (rD rA : Reg) (disp : Word) : RowWord.Statement (.lwa rD rA disp) :=
  rowWord_of (.lwa rD rA disp) 18 _ rfl rfl ((mask_I16 _ _ _ _).trans (by decide))

theorem RowWord.swa (rS rA : Reg) (disp : Word) : RowWord.Statement (.swa rS rA disp) :=
  rowWord_of (.swa rS rA disp) 19 _ rfl rfl ((mask_I16 _ _ _ _).trans (by decide))

theorem RowWord.lda (rD rA : Reg) (disp : Word) : RowWord.Statement (.lda rD rA disp) :=
  rowWord_of (.lda rD rA disp) 20 _ rfl rfl ((mask_I16 _ _ _ _).trans (by decide))

theorem RowWord.sda (rS rA : Reg) (disp : Word) : RowWord.Statement (.sda rS rA disp) :=
  rowWord_of (.sda rS rA disp) 21 _ rfl rfl ((mask_I16 _ _ _ _).trans (by decide))

theorem RowWord.lba (rD rA : Reg) (disp : Word) : RowWord.Statement (.lba rD rA disp) :=
  rowWord_of (.lba rD rA disp) 22 _ rfl rfl ((mask_I16 _ _ _ _).trans (by decide))

theorem RowWord.sba (rS rA : Reg) (disp : Word) : RowWord.Statement (.sba rS rA disp) :=
  rowWord_of (.sba rS rA disp) 23 _ rfl rfl ((mask_I16 _ _ _ _).trans (by decide))

theorem RowWord.fada (rD rA rV : Reg) (disp : Word) : RowWord.Statement (.fada rD rA rV disp) :=
  rowWord_of (.fada rD rA rV disp) 24 _ rfl rfl ((mask_F _ _ _ _ _).trans (by decide))

theorem RowWord.push (rS : Reg) : RowWord.Statement (.push rS) :=
  rowWord_of (.push rS) 25 _ rfl rfl ((mask_R1 _ _).trans (by decide))

theorem RowWord.pop (rD : Reg) : RowWord.Statement (.pop rD) :=
  rowWord_of (.pop rD) 26 _ rfl rfl ((mask_R1 _ _).trans (by decide))

theorem RowWord.br (disp : Word) : RowWord.Statement (.br disp) :=
  rowWord_of (.br disp) 27 _ rfl rfl ((mask_J _ _).trans (by decide))

theorem RowWord.bz (disp : Word) : RowWord.Statement (.bz disp) :=
  rowWord_of (.bz disp) 28 _ rfl rfl ((mask_J _ _).trans (by decide))

theorem RowWord.bnz (disp : Word) : RowWord.Statement (.bnz disp) :=
  rowWord_of (.bnz disp) 29 _ rfl rfl ((mask_J _ _).trans (by decide))

theorem RowWord.bs (disp : Word) : RowWord.Statement (.bs disp) :=
  rowWord_of (.bs disp) 30 _ rfl rfl ((mask_J _ _).trans (by decide))

theorem RowWord.bns (disp : Word) : RowWord.Statement (.bns disp) :=
  rowWord_of (.bns disp) 31 _ rfl rfl ((mask_J _ _).trans (by decide))

theorem RowWord.bc (disp : Word) : RowWord.Statement (.bc disp) :=
  rowWord_of (.bc disp) 32 _ rfl rfl ((mask_J _ _).trans (by decide))

theorem RowWord.bnc (disp : Word) : RowWord.Statement (.bnc disp) :=
  rowWord_of (.bnc disp) 33 _ rfl rfl ((mask_J _ _).trans (by decide))

theorem RowWord.bo (disp : Word) : RowWord.Statement (.bo disp) :=
  rowWord_of (.bo disp) 34 _ rfl rfl ((mask_J _ _).trans (by decide))

theorem RowWord.bno (disp : Word) : RowWord.Statement (.bno disp) :=
  rowWord_of (.bno disp) 35 _ rfl rfl ((mask_J _ _).trans (by decide))

theorem RowWord.bl (disp : Word) : RowWord.Statement (.bl disp) :=
  rowWord_of (.bl disp) 36 _ rfl rfl ((mask_J _ _).trans (by decide))

theorem RowWord.bge (disp : Word) : RowWord.Statement (.bge disp) :=
  rowWord_of (.bge disp) 37 _ rfl rfl ((mask_J _ _).trans (by decide))

theorem RowWord.ble (disp : Word) : RowWord.Statement (.ble disp) :=
  rowWord_of (.ble disp) 38 _ rfl rfl ((mask_J _ _).trans (by decide))

theorem RowWord.bb (disp : Word) : RowWord.Statement (.bb disp) :=
  rowWord_of (.bb disp) 39 _ rfl rfl ((mask_J _ _).trans (by decide))

theorem RowWord.bae (disp : Word) : RowWord.Statement (.bae disp) :=
  rowWord_of (.bae disp) 40 _ rfl rfl ((mask_J _ _).trans (by decide))

theorem RowWord.bbe (disp : Word) : RowWord.Statement (.bbe disp) :=
  rowWord_of (.bbe disp) 41 _ rfl rfl ((mask_J _ _).trans (by decide))

theorem RowWord.jmp (imm : Word) : RowWord.Statement (.jmp imm) :=
  rowWord_of (.jmp imm) 42 _ rfl rfl ((mask_J _ _).trans (by decide))

theorem RowWord.call (disp : Word) : RowWord.Statement (.call disp) :=
  rowWord_of (.call disp) 43 _ rfl rfl ((mask_J _ _).trans (by decide))

theorem RowWord.ret : RowWord.Statement (.ret) :=
  rowWord_of .ret 44 _ rfl rfl (by decide)

theorem RowWord.nop : RowWord.Statement (.nop) :=
  rowWord_of .nop 45 _ rfl rfl (by decide)

theorem RowWord.ipi (rD rT : Reg) : RowWord.Statement (.ipi rD rT) :=
  rowWord_of (.ipi rD rT) 46 _ rfl rfl ((mask_R2 _ _ _).trans (by decide))

theorem RowWord.sys (imm8 : BitVec 8) : RowWord.Statement (.sys imm8) :=
  rowWord_of (.sys imm8) 47 _ rfl rfl ((mask_Sys _).trans (by decide))

theorem RowWord.rfe : RowWord.Statement (.rfe) :=
  rowWord_of .rfe 48 _ rfl rfl (by decide)

theorem RowWord.rfi : RowWord.Statement (.rfi) :=
  rowWord_of .rfi 49 _ rfl rfl (by decide)

theorem RowWord.rft : RowWord.Statement (.rft) :=
  rowWord_of .rft 50 _ rfl rfl (by decide)

theorem RowWord.tlbw (rE rV : Reg) : RowWord.Statement (.tlbw rE rV) :=
  rowWord_of (.tlbw rE rV) 51 _ rfl rfl ((mask_R2 _ _ _).trans (by decide))

theorem RowWord.tlbr (rD rV : Reg) : RowWord.Statement (.tlbr rD rV) :=
  rowWord_of (.tlbr rD rV) 52 _ rfl rfl ((mask_R2 _ _ _).trans (by decide))

theorem RowWord.tlbc : RowWord.Statement (.tlbc) :=
  rowWord_of .tlbc 53 _ rfl rfl (by decide)

theorem RowWord.modeHalt : RowWord.Statement (.modeHalt) :=
  rowWord_of .modeHalt 54 _ rfl rfl (by decide)

theorem RowWord.modeSleep : RowWord.Statement (.modeSleep) :=
  rowWord_of .modeSleep 55 _ rfl rfl (by decide)

end Sys2Proof.Laws
end

