-- ==== Sys2Proof/Laws/Step.lean ====
section
/-! SUPPORT. What a core's tick, a visit and a step can do (spec/60_exceptions.md R287, R340). -/

namespace Sys2Proof.Machine

/-! ### The end of a visit -/

/-- The next core's turn. -/
theorem endVisit_next (s : State) (c : CoreState) (cs : List CoreState) (h : s.todo = c :: cs) :
    endVisit s = { s with done := s.done ++ [s.core], core := c, todo := cs } := by
  unfold endVisit; rw [h]

/-- The end of a pass: the sample, then the first core's turn. -/
theorem endVisit_last (s : State) (h : s.todo = []) : endVisit s = rewind (sample s) := by unfold endVisit; rw [h]

theorem rewind_cores (s : State) : (rewind s).cores = s.cores := by
  unfold rewind; split
  · rfl
  · next c cs h => simp [State.cores, h]

@[simp] theorem rewind_params (s : State) : (rewind s).params = s.params := by unfold rewind; split <;> rfl
@[simp] theorem rewind_mem (s : State) : (rewind s).mem = s.mem := by unfold rewind; split <;> rfl
@[simp] theorem rewind_dev (s : State) : (rewind s).dev = s.dev := by unfold rewind; split <;> rfl
@[simp] theorem rewind_hostSchedule (s : State) : (rewind s).hostSchedule = s.hostSchedule := by unfold rewind; split <;> rfl
theorem rewind_done (s : State) : (rewind s).done = [] := by
  unfold rewind; split
  · assumption
  · rfl

@[simp] theorem endVisit_params (s : State) : (endVisit s).params = s.params := by
  unfold endVisit; split <;> simp
@[simp] theorem endVisit_mem (s : State) : (endVisit s).mem = s.mem := by unfold endVisit; split <;> simp
theorem endVisit_slot (s : State) (i : SlotId) : (endVisit s).dev.slot i = s.dev.slot i := by
  unfold endVisit; split
  · rfl
  · rw [rewind_dev, sample_slot]

/-- The cores after a visit: none changes but by the sample's isr bits. -/
theorem endVisit_cores (s : State) : ∃ bits, (endVisit s).cores = s.cores.map (withLines bits) := by
  unfold endVisit; split
  · next c cs h => exact ⟨0#16, by simp [State.cores, h, show withLines 0#16 = id from funext withLines_zero]⟩
  · exact ⟨_, by rw [rewind_cores, sample_cores]⟩

theorem nCores_eq (s : State) : s.nCores = s.cores.length := by simp [State.nCores, State.cores]; omega

/-! ### The tick -/

/-- Everything the tick of a core that is not halted can do (R287, R288). -/
theorem coreTick_cases (L : Encoding) (s : State) :
    (∃ v, deliverable s.core = some v ∧
        coreTick L s = .next (trapEntry (s.setRun .running) v s.core.pc .interrupt)) ∨
      (deliverable s.core = none ∧ s.core.run = .sleeping ∧ coreTick L s = .next s) ∨
      (deliverable s.core = none ∧ s.core.run ≠ .sleeping ∧
        ((translateVa s.core s.core.pc .fetch = none ∧ coreTick L s = raiseMiss s s.core.pc) ∨
          ∃ pa, translateVa s.core s.core.pc .fetch = some pa ∧
            coreTick L s = runWord L (physRead s pa .word).1 (physRead s pa .word).2)) := by
  unfold coreTick
  cases hd : deliverable s.core with
  | some v => exact .inl ⟨v, rfl, enterTrap_interrupt _ _ _⟩
  | none =>
    by_cases hr : s.core.run = .sleeping
    · exact .inr (.inl ⟨rfl, hr, by simp [hr]⟩)
    · refine .inr (.inr ⟨rfl, hr, ?_⟩)
      simp only [hr, if_false]
      unfold fetchAndRun
      cases ht : translateVa s.core s.core.pc .fetch with
      | none => exact .inl ⟨rfl, rfl⟩
      | some pa => exact .inr ⟨pa, rfl, rfl⟩

/-- The two ways of saying that an instruction reads no unwritten register. -/
theorem readable_iff (s : State) (i : Instr) : readable s i = true ↔ Readable s i := by
  simp [readable, Readable]

/-- What an instruction reads depends on the parameters, the current core and the number of cores only. -/
theorem sources_congr {s t : State} (hp : t.params = s.params) (hc : t.core = s.core) (hn : t.nCores = s.nCores) (i : Instr) :
    sources t i = sources s i := by
  have hr : ∀ r, t.reg r = s.reg r := fun r => by unfold State.reg; rw [hc]
  have ha : ∀ ea w n, accessTranslates t ea w n = accessTranslates s ea w n := fun ea w n => by
    unfold accessTranslates; rw [hp, hc]
  have hf : ∀ rA rV imm, fadaSources t rA rV imm = fadaSources s rA rV imm := fun rA rV imm => by
    unfold fadaSources baseAddress; rw [hr, ha]
  cases i <;> simp only [sources, privilegedSources, ipiSources, hf, hr, hc, hn]

theorem readable_congr {s t : State} (hp : t.params = s.params) (hc : t.core = s.core) (hn : t.nCores = s.nCores)
    (i : Instr) : Readable t i ↔ Readable s i := by
  unfold Readable; rw [hp, hc, sources_congr hp hc hn]

/-- A fetched word runs, is a model fault (R380), or is illegal (R281). -/
theorem runWord_ok {L : Encoding} {w : Word} {s : State} {i : Instr} (h : L w = .ok i) (hr : Readable s i) :
    runWord L w s = exec i s := by
  simp [runWord, h, (readable_iff s i).2 hr]

theorem runWord_unreadable {L : Encoding} {w : Word} {s : State} {i : Instr} (h : L w = .ok i) (hr : ¬ Readable s i) :
    runWord L w s = .fault .unwrittenRegister := by
  rw [← readable_iff] at hr
  simp [runWord, h, hr]

theorem runWord_error {L : Encoding} {w : Word} {s : State} {e : IllegalWord} (h : L w = .error e) :
    runWord L w s = raise s .instr := by
  simp [runWord, h]

/-! ### The step -/

/-- A state with a core that is not halted is not over. -/
theorem runOver_false {s : State} (h : s.core.run ≠ .halted) : s.runOver = false := by
  unfold State.runOver
  rw [Bool.and_eq_false_iff]; right
  unfold State.allHalted
  rw [List.all_eq_false]
  exact ⟨s.core, by simp [State.cores], by simpa using h⟩

/-- A step that is not of a run that is over is a visit. -/
theorem machineStep_visit (L : Encoding) {s : State} (h : s.runOver = false) :
    machineStep L s = visit L (beginVisit s) := by
  simp [machineStep, h]

/-- What follows a core's tick (R340). -/
theorem afterCoreTick_eq (t : State) :
    afterCoreTick t = if t.core.stuck = true then endVisit t else endVisit (dmaStep t) := by
  unfold afterCoreTick; split <;> rfl

theorem visit_ticks (L : Encoding) {s : State} (h : s.core.run ≠ .halted) (hk : s.core.stuck = false) :
    visit L s = afterTick (coreTick L s) := by
  cases hc : coreTick L s <;> simp [visit, afterTick, h, hk, hc, afterCoreTick_eq]

/-- A halted core's visit, and a STUCK core's (R297, R340). -/
theorem visit_inert (L : Encoding) {s : State} (h : s.core.run = .halted ∨ s.core.stuck = true) :
    visit L s = .next (endVisit s) := by
  unfold visit; rw [if_pos h]

/-- The step of a core that is neither halted nor STUCK is its tick, the DMA step and the end of the visit. -/
theorem machineStep_ticks (L : Encoding) {s : State} (h : s.core.run ≠ .halted) (hk : s.core.stuck = false) :
    machineStep L s = afterTick (coreTick L (beginVisit s)) := by
  rw [machineStep_visit L (runOver_false h), visit_ticks L (by simpa using h) (by simpa using hk)]

/-- Everything a step that answers a next state did (R340). -/
theorem machineStep_cases {L : Encoding} {s t : State} (h : machineStep L s = .next t) :
    (s.runOver = true ∧ t = s) ∨
      (s.runOver = false ∧ (s.core.run = .halted ∨ s.core.stuck = true) ∧ t = endVisit (beginVisit s)) ∨
      (s.core.run ≠ .halted ∧ s.core.stuck = false ∧ ∃ u, coreTick L (beginVisit s) = .next u ∧
        ((u.core.stuck = true ∧ t = endVisit u) ∨ (u.core.stuck = false ∧ t = endVisit (dmaStep u)))) := by
  cases ho : s.runOver
  · by_cases hh : s.core.run = .halted ∨ s.core.stuck = true
    · rw [machineStep_visit L ho, visit_inert L (by simpa using hh)] at h
      injection h with h; exact .inr (.inl ⟨rfl, hh, h.symm⟩)
    · simp only [not_or, Bool.not_eq_true] at hh
      rw [machineStep_ticks L hh.1 hh.2] at h
      cases hc : coreTick L (beginVisit s) with
      | next u =>
        rw [hc] at h; injection h with h
        refine .inr (.inr ⟨hh.1, hh.2, u, rfl, ?_⟩)
        split at h
        · next hu => exact .inl ⟨hu, h.symm⟩
        · next hu => exact .inr ⟨by simpa using hu, h.symm⟩
      | fault f => rw [hc] at h; cases h
      | refused r => rw [hc] at h; cases h
  · simp only [machineStep, ho, if_true] at h
    injection h with h; exact .inl ⟨rfl, h.symm⟩

/-! ### What an instruction can do -/

/-- The next states an instruction can answer, said once for every instruction, by the registers, memory and hidden state they
touch. -/
inductive Does (s : State) : Instr → State → Prop
  /-- A result and the flags. -/
  | alu (i : Instr) (r : Reg) (v : Word) (f : BitVec 4) (hi : IsAlu i) (hr : r ∈ destinations i)
      (hd : dataAccess s i = none) : Does s i (((s.setReg r v).setFlags f).advance)
  /-- The flags only. -/
  | flags (i : Instr) (f : BitVec 4) (hi : IsAlu i) (hd : dataAccess s i = none) : Does s i ((s.setFlags f).advance)
  /-- A register only. -/
  | move (i : Instr) (r : Reg) (v : Word) (hr : r ∈ destinations i) (hd : dataAccess s i = none) :
      Does s i ((s.setReg r v).advance)
  /-- The pc only. -/
  | goes (i : Instr) (a : Word) (hd : dataAccess s i = none) : Does s i (s.jump a)
  | goesOn (i : Instr) (hd : dataAccess s i = none) : Does s i s.advance
  /-- A load: of a register, or of one and the stack pointer, or of the pc and the stack pointer. -/
  | load (i : Instr) (pa : Word) (w : Width) (r : Reg) (v : Word) (hr : r ∈ destinations i) (hd : dataAccess s i ≠ none) :
      Does s i (((physRead s pa w).2.setReg r v).advance)
  | pop (i : Instr) (pa u : Word) (r : Reg) (v : Word) (hs : spReg ∈ destinations i) (hr : r ∈ destinations i)
      (hd : dataAccess s i ≠ none) : Does s i ((((physRead s pa .word).2.setReg spReg u).setReg r v).advance)
  | popPc (i : Instr) (pa u a : Word) (hs : spReg ∈ destinations i) (hd : dataAccess s i ≠ none) :
      Does s i (((physRead s pa .word).2.setReg spReg u).jump a)
  /-- A store, alone or with the stack pointer and perhaps the pc. -/
  | store (i : Instr) (pa : Word) (w : Width) (v : Word) (hd : dataAccess s i ≠ none) :
      Does s i (physWrite s pa w v).advance
  | push (i : Instr) (pa v u : Word) (hs : spReg ∈ destinations i) (hd : dataAccess s i ≠ none) :
      Does s i (((physWrite s pa .word v).setReg spReg u).advance)
  | pushPc (i : Instr) (pa v u a : Word) (hs : spReg ∈ destinations i) (hd : dataAccess s i ≠ none) :
      Does s i (((physWrite s pa .word v).setReg spReg u).jump a)
  /-- A read and a write of one address, and a register. -/
  | update (i : Instr) (pa v : Word) (r : Reg) (u : Word) (hr : r ∈ destinations i) (hd : dataAccess s i ≠ none) :
      Does s i (((physWrite (physRead s pa .word).2 pa .word v).setReg r u).advance)
  /-- A control register. -/
  | control (k : CrIndex) (rS : Reg) (q : CReg) (hq : CReg.ofIndex k = some q) (hm : s.core.mode ≠ .user) :
      Does s (.crmvW k rS) ((s.withCore (s.core.writeCr q (s.reg rS))).advance)
  | rfe (hm : s.core.mode ≠ .user) : Does s .rfe (returnTo s .user s.core.flg)
  | rfi (hm : s.core.mode ≠ .user) : Does s .rfi (returnTo s s.core.modePrev s.core.efg)
  | rft (hm : s.core.mode ≠ .user) : Does s .rft (returnTo s .kernel s.core.efg)
  /-- The TLB. -/
  | tlbw (rE rV : Reg) (t : Tlb) (n : Fin 16) (hm : s.core.mode ≠ .user) :
      Does s (.tlbw rE rV) ((s.withCore { s.core with tlb := t, tlbNext := n }).advance)
  | tlbc (t : Tlb) (hm : s.core.mode ≠ .user) :
      Does s .tlbc ((s.withCore { s.core with tlb := t, tlbNext := 0 }).advance)
  /-- Another core. -/
  | ipi (rD rT : Reg) (n : Nat) (v : Word) (hm : s.core.mode ≠ .user) :
      Does s (.ipi rD rT) (((s.modifyCore n (receiveIpi s.core.mbo)).setReg rD v).advance)
  /-- The run state. -/
  | halt (hm : s.core.mode ≠ .user) : Does s .modeHalt (s.advance.setRun .halted)
  | sleep (hm : s.core.mode ≠ .user) : Does s .modeSleep (s.advance.setRun .sleeping)
  /-- A trap. -/
  | sys (v : BitVec 8) : Does s (.sys v) (trapEntry s v (s.core.pc + 4#32) .kernel)
  | exception (i : Instr) (v : BitVec 8) (hv : v = 0x80#8 ∨ v = 0x81#8) (hd : dataAccess s i = none) :
      Does s i (trapEntry s v s.core.pc .kernel)
  | miss (i : Instr) (ea : Word) (w : Width) (n : Intent) (va : Word) (hd : dataAccess s i = some (ea, w, n))
      (hm : AccessMisses s ea w n va) : Does s i (missEntry s va)
  /-- A STUCK core: where a trap cannot be entered, after a miss's write of `tlb` too, or at a refused alignment. -/
  | stick (i : Instr) (h : ¬ TrapsEnter s ∨ s.params.misalign = .refuse) : Does s i s.stick
  | missStick (i : Instr) (ea : Word) (w : Width) (n : Intent) (va : Word) (hd : dataAccess s i = some (ea, w, n))
      (hm : AccessMisses s ea w n va) (h : ¬ TrapsEnter s) : Does s i (s.setTlbAddr va).stick

theorem raises_does {s t : State} {i : Instr} {v : BitVec 8} (hv : v = 0x80#8 ∨ v = 0x81#8) (hd : dataAccess s i = none)
    (h : RaisesIn s t v) : Does s i t := by
  rcases h with rfl | ⟨rfl, h⟩
  · exact .exception i v hv hd
  · exact .stick i (.inl h)

/-- A translated access does what its continuation does, or traps, or sticks. -/
theorem withAccess_does {s t : State} {i : Instr} {ea : Word} {w : Width} {n : Intent} {k : Word → Result}
    (hd : dataAccess s i = some (ea, w, n)) (hk : ∀ pa, k pa = .next t → Does s i t)
    (h : withAccess s ea w n k = .next t) : Does s i t := by
  rcases withAccess_next h with ⟨rfl, ha⟩ | ⟨va, hm, rfl | ⟨rfl, ht⟩⟩ | ⟨pa, _, h⟩
  · exact .stick i (.inr (alignAddr_none ha))
  · exact .miss i ea w n va hd hm
  · exact .missStick i ea w n va hd hm ht
  · exact hk pa h

theorem privileged_does {s t : State} {i : Instr} {r : Result} (hd : dataAccess s i = none)
    (hr : s.core.mode ≠ .user → r = .next t → Does s i t) (h : privileged s r = .next t) : Does s i t := by
  rcases privileged_next h with ⟨_, h⟩ | ⟨hm, h⟩
  · exact raises_does (.inr rfl) hd h
  · exact hr hm h

theorem withCReg_does {s t : State} {i : Instr} {k : CrIndex} {f : CReg → Result} (hd : dataAccess s i = none)
    (hf : ∀ q, CReg.ofIndex k = some q → s.core.mode ≠ .user → f q = .next t → Does s i t)
    (h : withCReg s k f = .next t) : Does s i t := by
  rcases withCReg_next h with ⟨_, h⟩ | ⟨q, hq, ⟨_, h⟩ | ⟨hm, h⟩⟩
  · exact raises_does (.inl rfl) hd h
  · exact raises_does (.inr rfl) hd h
  · exact hf q hq hm h

theorem loadTo_does {s t : State} {i : Instr} {r : Reg} {w : Width} {ea : Word} (hr : r ∈ destinations i)
    (hd : dataAccess s i = some (ea, w, .load)) (h : loadTo s r w ea = .next t) : Does s i t :=
  withAccess_does hd (fun pa h => by injection h with h; subst h; exact .load i pa w r _ hr (by simp [hd])) h

theorem storeFrom_does {s t : State} {i : Instr} {v : Word} {w : Width} {ea : Word}
    (hd : dataAccess s i = some (ea, w, .store)) (h : storeFrom s v w ea = .next t) : Does s i t :=
  withAccess_does hd (fun pa h => by injection h with h; subst h; exact .store i pa w v (by simp [hd])) h

theorem writeAlu_does {s t : State} {i : Instr} {r : Reg} {o : AluOut} (hi : IsAlu i) (hr : r ∈ destinations i)
    (hd : dataAccess s i = none) (h : writeAlu s r o = .next t) : Does s i t := by
  injection h with h; subst h; exact .alu i r _ _ hi hr hd

theorem writeMove_does {s t : State} {i : Instr} {r : Reg} {v : Word} (hr : r ∈ destinations i)
    (hd : dataAccess s i = none) (h : writeMove s r v = .next t) : Does s i t := by
  injection h with h; subst h; exact .move i r v hr hd

theorem branchIf_does {s t : State} {i : Instr} {b : Bool} {disp : Word} (hd : dataAccess s i = none)
    (h : branchIf s b disp = .next t) : Does s i t := by
  injection h with h; subst h
  cases b
  · exact .goesOn i hd
  · exact .goes i _ hd

/-- Every next state of every instruction is one of these. -/
theorem exec_does {s t : State} {i : Instr} (h : exec i s = .next t) : Does s i t := by
  cases i with
  | add a b c | sub a b c | and a b c | or a b c | xor a b c | lsl a b c | lsr a b c | rotr a b c =>
    exact writeAlu_does ⟨a, b, c, by simp⟩ (by simp [destinations]) rfl h
  | cmp a b => injection h with h; subst h; exact .flags _ _ ⟨0#5, a, b, by simp⟩ rfl
  | mov _ _ | movi _ _ | moviU _ _ | moviH _ _ | adpc _ _ => exact writeMove_does (by simp [destinations]) rfl h
  | crmvW k rS =>
    exact withCReg_does rfl (fun q hq hm h => by injection h with h; subst h; exact .control k rS q hq hm) h
  | crmvR rD k =>
    exact withCReg_does rfl
      (fun q _ _ h => by injection h with h; subst h; exact .move _ _ _ (by simp [destinations]) rfl) h
  | lw _ _ | lwa _ _ _ | lda _ _ _ | lba _ _ _ => exact loadTo_does (by simp [destinations]) rfl h
  | sw _ _ | swa _ _ _ | sda _ _ _ | sba _ _ _ => exact storeFrom_does rfl h
  | fada rD rA rV disp =>
    refine withAccess_does rfl (fun pa h => ?_) h
    injection h with h; subst h; exact .update _ pa _ rD _ (by simp [destinations]) (by simp [dataAccess])
  | push rS =>
    refine withAccess_does rfl (fun pa h => ?_) h
    injection h with h; subst h; exact .push _ pa _ _ (by simp [destinations]) (by simp [dataAccess])
  | call disp =>
    refine withAccess_does rfl (fun pa h => ?_) h
    injection h with h; subst h; exact .pushPc _ pa _ _ _ (by simp [destinations]) (by simp [dataAccess])
  | pop rD =>
    refine withAccess_does rfl (fun pa h => ?_) h
    injection h with h; subst h
    exact .pop _ pa _ rD _ (by simp [destinations]) (by simp [destinations]) (by simp [dataAccess])
  | ret =>
    refine withAccess_does rfl (fun pa h => ?_) h
    injection h with h; subst h; exact .popPc _ pa _ _ (by simp [destinations]) (by simp [dataAccess])
  | br _ | bz _ | bnz _ | bs _ | bns _ | bc _ | bnc _ | bo _ | bno _ | bl _ | bge _ | ble _ | bb _ | bae _ | bbe _ =>
    exact branchIf_does rfl h
  | jmp _ => injection h with h; subst h; exact .goes _ _ rfl
  | nop => injection h with h; subst h; exact .goesOn _ rfl
  | sys v =>
    rcases enterTrap_next h with rfl | ⟨rfl, ht⟩
    · exact .sys v
    · exact .stick _ (.inl ht)
  | ipi rD rT =>
    refine privileged_does rfl (fun hm h => ?_) h
    split at h
    · injection h with h; subst h; exact .ipi rD rT _ _ hm
    · injection h with h; subst h; exact .move _ _ _ (by simp [destinations]) rfl
  | rfe => exact privileged_does rfl (fun hm h => by injection h with h; subst h; exact .rfe hm) h
  | rfi => exact privileged_does rfl (fun hm h => by injection h with h; subst h; exact .rfi hm) h
  | rft => exact privileged_does rfl (fun hm h => by injection h with h; subst h; exact .rft hm) h
  | tlbw rE rV =>
    exact privileged_does rfl
      (fun hm h => by injection h with h; subst h; rw [tlbInsert_frame]; exact .tlbw rE rV _ _ hm) h
  | tlbr rD rV =>
    exact privileged_does rfl
      (fun _ h => by injection h with h; subst h; exact .move _ _ _ (by simp [destinations]) rfl) h
  | tlbc => exact privileged_does rfl (fun hm h => by injection h with h; subst h; exact .tlbc _ hm) h
  | modeHalt => exact privileged_does rfl (fun hm h => by injection h with h; subst h; exact .halt hm) h
  | modeSleep => exact privileged_does rfl (fun hm h => by injection h with h; subst h; exact .sleep hm) h

/-! ### Nothing stops -/

/-- A next state is answered. -/
def Goes (r : Result) : Prop := ∃ t, r = .next t

theorem goes_next (t : State) : Goes (.next t) := ⟨t, rfl⟩

theorem goes_enterTrap (s : State) (v : BitVec 8) (e : Word) (m : Mode) : Goes (enterTrap s v e m) :=
  enterTrap_goes s v e m

theorem goes_raiseMiss (s : State) (va : Word) : Goes (raiseMiss s va) := goes_enterTrap _ _ _ _

theorem goes_privileged {s : State} {r : Result} (h : Goes r) : Goes (privileged s r) := by
  by_cases hm : s.core.mode = .user
  · rw [privileged_user hm]; exact goes_enterTrap _ _ _ _
  · rw [privileged_other hm]; exact h

theorem goes_withCReg {s : State} {k : CrIndex} {f : CReg → Result} (h : ∀ q, Goes (f q)) : Goes (withCReg s k f) := by
  cases hk : CReg.ofIndex k with
  | none => rw [withCReg_none hk]; exact goes_enterTrap _ _ _ _
  | some q => rw [withCReg_some hk]; exact goes_privileged (h q)

theorem goes_withAccess {s : State} {ea : Word} {w : Width} {n : Intent} {k : Word → Result} (h : ∀ pa, Goes (k pa)) :
    Goes (withAccess s ea w n k) := by
  rcases withAccess_cases s ea w n k with ⟨_, e⟩ | ⟨va, _, e⟩ | ⟨pa, _, e⟩ <;> rw [e]
  · exact goes_next _
  · exact goes_raiseMiss s va
  · exact h pa

/-- Every instruction completes, traps, or sticks its core. -/
theorem exec_goes (s : State) (i : Instr) : Goes (exec i s) := by
  cases i with
  | add _ _ _ | sub _ _ _ | and _ _ _ | or _ _ _ | xor _ _ _ | lsl _ _ _ | lsr _ _ _ | rotr _ _ _ | cmp _ _ | mov _ _
  | movi _ _ | moviU _ _ | moviH _ _ | adpc _ _ | br _ | bz _ | bnz _ | bs _ | bns _ | bc _ | bnc _ | bo _ | bno _ | bl _
  | bge _ | ble _ | bb _ | bae _ | bbe _ | jmp _ | nop => exact goes_next _
  | crmvW _ _ | crmvR _ _ => exact goes_withCReg fun _ => goes_next _
  | lw _ _ | sw _ _ | lwa _ _ _ | swa _ _ _ | lda _ _ _ | sda _ _ _ | lba _ _ _ | sba _ _ _ | fada _ _ _ _ | push _ | pop _
  | call _ | ret => exact goes_withAccess fun _ => goes_next _
  | sys _ => exact goes_enterTrap _ _ _ _
  | ipi _ _ => refine goes_privileged ?_; split <;> exact goes_next _
  | rfe | rfi | rft | tlbw _ _ | tlbr _ _ | tlbc | modeHalt | modeSleep => exact goes_privileged (goes_next _)

/-- So does every tick, but for the read of an unwritten register under RESET_UNWRITTEN = FAULT (R380). -/
theorem coreTick_goes (L : Encoding) (s : State) :
    Goes (coreTick L s) ∨
      (coreTick L s = .fault .unwrittenRegister ∧ ∃ pa i, translateVa s.core s.core.pc .fetch = some pa ∧
        L (physRead s pa .word).1 = .ok i ∧ ¬ Readable (physRead s pa .word).2 i) := by
  rcases coreTick_cases L s with ⟨v, _, e⟩ | ⟨_, _, e⟩ | ⟨_, _, ⟨_, e⟩ | ⟨pa, hp, e⟩⟩ <;> rw [e]
  · exact .inl (goes_next _)
  · exact .inl (goes_next _)
  · exact .inl (goes_raiseMiss _ _)
  · cases hL : L (physRead s pa .word).1 with
    | error x => rw [runWord_error hL]; exact .inl (goes_enterTrap _ _ _ _)
    | ok i =>
      by_cases hr : Readable (physRead s pa .word).2 i
      · rw [runWord_ok hL hr]; exact .inl (exec_goes _ _)
      · rw [runWord_unreadable hL hr]; exact .inr ⟨rfl, pa, i, hp, hL, hr⟩

/-! ### The invariant -/

/-- Every core's cid, in order. -/
def State.cids (s : State) : List Word := s.cores.map (·.cid)

theorem cids_withCore (s : State) (c : CoreState) (h : c.cid = s.core.cid) : (s.withCore c).cids = s.cids := by
  simp [State.cids, State.cores, h]

/-- Changing the current core keeps the invariant, where the new core is well kept and has its cid. -/
theorem inv_withCore {s : State} (h : s.Inv) {c : CoreState} (hc : c.wellKept) (hid : c.cid = s.core.cid) :
    (s.withCore c).Inv := by
  obtain ⟨h1, h2, h3, h4, h5⟩ := h
  refine ⟨h1, h2, h3, ?_, ?_⟩
  · intro d hd
    simp only [State.cores, withCore_done, withCore_core, withCore_todo, List.mem_append, List.mem_cons] at hd
    rcases hd with hd | rfl | hd
    · exact h4 d (by simp [State.cores, hd])
    · exact hc
    · exact h4 d (by simp [State.cores, hd])
  · have := cids_withCore s c hid
    unfold State.cids at this
    unfold State.cidsNumbered at h5 ⊢
    rw [this, h5]
    rfl

theorem inv_core {s : State} (h : s.Inv) : s.core.wellKept := h.2.2.2.1 _ (by simp [State.cores])

theorem wellKept_congr {c d : CoreState} (h : c.wellKept) (hp : d.pc = c.pc) (hi : d.imr = c.imr)
    (hu : d.unwrittenHoldReset) : d.wellKept := by
  unfold CoreState.wellKept at h ⊢; rw [hp, hi]; exact ⟨h.1, h.2.1, hu⟩

/-- A change of what no register or mark shows. -/
theorem inv_hidden {s : State} (h : s.Inv) {c : CoreState} (hp : c.pc &&& 3#32 = 0#32) (hi : c.imr = s.core.imr)
    (hid : c.cid = s.core.cid) (hu : c.unwrittenHoldReset) : (s.withCore c).Inv := by
  refine inv_withCore h ⟨hp, ?_, hu⟩ hid
  rw [hi]; exact (inv_core h).2.1

/-- An aligned pc is aligned. -/
theorem alignPc_aligned (a : Word) : alignPc a &&& 3#32 = 0#32 := and_fffffffc_aligned a

theorem inv_setReg {s : State} (h : s.Inv) (r : Reg) (v : Word) : (s.setReg r v).Inv :=
  inv_withCore h (wellKept_congr (inv_core h) (by simp) (by simp) (unwritten_setReg _ (inv_core h).2.2 r v)) (by simp)

theorem inv_setFlags {s : State} (h : s.Inv) (f : BitVec 4) : (s.setFlags f).Inv :=
  inv_hidden h (inv_core h).1 rfl rfl (unwritten_congr (inv_core h).2.2 rfl rfl rfl rfl rfl rfl rfl rfl rfl rfl rfl)

theorem inv_setRun {s : State} (h : s.Inv) (x : RunState) : (s.setRun x).Inv :=
  inv_hidden h (inv_core h).1 rfl rfl (unwritten_congr (inv_core h).2.2 rfl rfl rfl rfl rfl rfl rfl rfl rfl rfl rfl)

theorem inv_stick {s : State} (h : s.Inv) : s.stick.Inv :=
  inv_hidden h (inv_core h).1 rfl rfl (unwritten_congr (inv_core h).2.2 rfl rfl rfl rfl rfl rfl rfl rfl rfl rfl rfl)

theorem inv_setTlbAddr {s : State} (h : s.Inv) (va : Word) : (s.setTlbAddr va).Inv :=
  inv_hidden h (inv_core h).1 rfl rfl (unwritten_setTlbAddr s (inv_core h).2.2 va)

theorem inv_advance {s : State} (h : s.Inv) : s.advance.Inv :=
  inv_hidden h (add_4_aligned _ (inv_core h).1) rfl rfl
    (unwritten_congr (inv_core h).2.2 rfl rfl rfl rfl rfl rfl rfl rfl rfl rfl rfl)

theorem inv_jump {s : State} (h : s.Inv) (a : Word) : (s.jump a).Inv :=
  inv_hidden h (alignPc_aligned a) rfl rfl
    (unwritten_congr (inv_core h).2.2 rfl rfl rfl rfl rfl rfl rfl rfl rfl rfl rfl)

theorem inv_returnTo {s : State} (h : s.Inv) (m : Mode) (f : BitVec 4) : (returnTo s m f).Inv :=
  inv_hidden h (alignPc_aligned _) rfl rfl
    (unwritten_congr (inv_core h).2.2 rfl rfl rfl rfl rfl rfl rfl rfl rfl rfl rfl)

theorem inv_trapEntry {s : State} (h : s.Inv) (v : BitVec 8) (e : Word) (m : Mode) : (trapEntry s v e m).Inv :=
  inv_hidden h (alignPc_aligned _) rfl rfl (unwritten_trapEntry s (inv_core h).2.2 v e m)

theorem inv_missEntry {s : State} (h : s.Inv) (va : Word) : (missEntry s va).Inv :=
  inv_trapEntry (inv_setTlbAddr h va) _ _ _

theorem inv_writeCr {s : State} (h : s.Inv) (q : CReg) (v : Word) : (s.withCore (s.core.writeCr q v)).Inv := by
  refine inv_withCore h ?_ (by cases q <;> rfl)
  have hu := unwritten_writeCr s.core (inv_core h).2.2 q v
  cases q
  case imr =>
    refine ⟨(inv_core h).1, ?_, hu⟩
    show v &&& imrMask &&& ~~~imrMask = 0#32
    rw [BitVec.and_assoc]; simp
  all_goals exact wellKept_congr (inv_core h) rfl rfl hu

/-- Changing memory and the devices keeps the invariant, where they stay well kept. -/
theorem inv_bus {s t : State} (h : s.Inv) (hc : t.cores = s.cores) (hm : Memory.wf t.mem = true)
    (h0 : (t.dev.slot .sd0).wellKept) (h1 : (t.dev.slot .sd1).wellKept) : t.Inv := by
  obtain ⟨_, _, _, h4, h5⟩ := h
  refine ⟨hm, h0, h1, by rw [hc]; exact h4, ?_⟩
  unfold State.cidsNumbered at h5 ⊢
  rw [nCores_eq] at h5 ⊢
  rw [hc]; exact h5

theorem inv_physRead {s : State} (h : s.Inv) (pa : Word) (w : Width) : (physRead s pa w).2.Inv := by
  refine inv_bus h (by simp [State.cores]) (by simpa using h.1) ?_ ?_ <;> rw [physRead_slot]
  · exact h.2.1
  · exact h.2.2.1

theorem inv_physWrite {s : State} (h : s.Inv) (pa : Word) (w : Width) (v : Word) : (physWrite s pa w v).Inv :=
  inv_bus h (by simp [State.cores]) (physWrite_mem_wf s h.1 _ _ _) (physWrite_wellKept s pa w v .sd0 h.2.1)
    (physWrite_wellKept s pa w v .sd1 h.2.2.1)

/-- Changing every core keeps the invariant, where each stays well kept and keeps its cid. -/
theorem inv_cores {s t : State} (h : s.Inv) (hm : t.mem = s.mem) (h0 : t.dev.slot .sd0 = s.dev.slot .sd0)
    (h1 : t.dev.slot .sd1 = s.dev.slot .sd1) (hk : ∀ c ∈ t.cores, c.wellKept)
    (hid : t.cores.map (·.cid) = s.cores.map (·.cid)) : t.Inv := by
  refine ⟨by rw [hm]; exact h.1, ?_, ?_, hk, ?_⟩
  · rw [show t.dev.sd0 = s.dev.sd0 from h0]; exact h.2.1
  · rw [show t.dev.sd1 = s.dev.sd1 from h1]; exact h.2.2.1
  · have := h.2.2.2.2
    unfold State.cidsNumbered at this ⊢
    have hl : t.cores.length = s.cores.length := by simpa using congrArg List.length hid
    rw [nCores_eq] at this ⊢
    rw [hid, hl]; exact this

theorem mem_modify {α : Type} {l : List α} {n : Nat} {f : α → α} {x : α} (h : x ∈ l.modify n f) :
    x ∈ l ∨ ∃ y ∈ l, x = f y := by
  rw [List.mem_iff_getElem?] at h
  obtain ⟨k, hk⟩ := h
  rw [List.getElem?_modify] at hk
  cases hl : l[k]? with
  | none => simp [hl] at hk
  | some y =>
    simp only [hl, Option.map_eq_map, Option.map_some, Option.some.injEq] at hk
    have hy : y ∈ l := List.mem_of_getElem? hl
    split at hk
    · exact .inr ⟨y, hy, hk.symm⟩
    · exact .inl (hk ▸ hy)

theorem map_modify {α β : Type} (l : List α) (n : Nat) (f : α → α) (g : α → β) (h : ∀ x, g (f x) = g x) :
    (l.modify n f).map g = l.map g := by
  apply List.ext_getElem?
  intro k
  rw [List.getElem?_map, List.getElem?_modify, List.getElem?_map]
  cases l[k]? with
  | none => rfl
  | some y => simp only [Option.map_eq_map, Option.map_some]; split <;> simp [h]

theorem inv_modifyCore {s : State} (h : s.Inv) (n : Nat) (p : Word) : (s.modifyCore n (receiveIpi p)).Inv := by
  refine inv_cores h (by simp) (by simp) (by simp) ?_ ?_
  · intro c hc
    rw [modifyCore_cores] at hc
    rcases mem_modify hc with hc | ⟨d, hd, rfl⟩
    · exact h.2.2.2.1 c hc
    · exact wellKept_congr (h.2.2.2.1 d hd) rfl rfl (unwritten_receiveIpi d (h.2.2.2.1 d hd).2.2 p)
  · rw [modifyCore_cores]; exact map_modify _ _ _ _ fun _ => rfl

/-- Every instruction keeps the invariant. -/
theorem exec_inv {s t : State} {i : Instr} (hs : s.Inv) (h : exec i s = .next t) : t.Inv := by
  cases exec_does h
  case alu => exact inv_advance (inv_setFlags (inv_setReg hs _ _) _)
  case flags => exact inv_advance (inv_setFlags hs _)
  case move => exact inv_advance (inv_setReg hs _ _)
  case goes => exact inv_jump hs _
  case goesOn => exact inv_advance hs
  case load => exact inv_advance (inv_setReg (inv_physRead hs _ _) _ _)
  case pop => exact inv_advance (inv_setReg (inv_setReg (inv_physRead hs _ _) _ _) _ _)
  case popPc => exact inv_jump (inv_setReg (inv_physRead hs _ _) _ _) _
  case store => exact inv_advance (inv_physWrite hs _ _ _)
  case push => exact inv_advance (inv_setReg (inv_physWrite hs _ _ _) _ _)
  case pushPc => exact inv_jump (inv_setReg (inv_physWrite hs _ _ _) _ _) _
  case update => exact inv_advance (inv_setReg (inv_physWrite (inv_physRead hs _ _) _ _ _) _ _)
  case control => exact inv_advance (inv_writeCr hs _ _)
  case rfe => exact inv_returnTo hs _ _
  case rfi => exact inv_returnTo hs _ _
  case rft => exact inv_returnTo hs _ _
  case tlbw =>
    exact inv_advance (inv_hidden hs (inv_core hs).1 rfl rfl
      (unwritten_congr (inv_core hs).2.2 rfl rfl rfl rfl rfl rfl rfl rfl rfl rfl rfl))
  case tlbc =>
    exact inv_advance (inv_hidden hs (inv_core hs).1 rfl rfl
      (unwritten_congr (inv_core hs).2.2 rfl rfl rfl rfl rfl rfl rfl rfl rfl rfl rfl))
  case ipi => exact inv_advance (inv_setReg (inv_modifyCore hs _ _) _ _)
  case halt => exact inv_setRun (inv_advance hs) _
  case sleep => exact inv_setRun (inv_advance hs) _
  case sys => exact inv_trapEntry hs _ _ _
  case exception => exact inv_trapEntry hs _ _ _
  case miss => exact inv_missEntry hs _
  case stick => exact inv_stick hs
  case missStick => exact inv_stick (inv_setTlbAddr hs _)

end Sys2Proof.Machine
end

