-- ==== Sys2Proof/Tests/Slice0.lean ====
section
/-! SUPPORT. Tests: ill-formed terms refused, words of the spec decoded, one-step vectors of spec/95_test_vectors.md and of the rules'
own examples, and for every obligation with hypotheses a state and operands that meet them. -/

namespace Sys2Proof.Tests

open Sys2Proof Sys2Proof.Machine

/-! ## WellFormed (spec/10_state.md R34: indices 14..31 name no register; spec/30_encoding.md R112: what an immediate can be) -/

theorem test_crmvW_index14_refused : (Instr.crmvW 14#5 1#5).wellFormed = false := by decide
theorem test_crmvR_index31_refused : (Instr.crmvR 1#5 31#5).wellFormed = false := by decide
theorem test_crmv_index13_accepted : (Instr.crmvW 13#5 1#5).wellFormed = true ∧ (Instr.crmvR 1#5 13#5).wellFormed = true := by
  decide

/-- One past each end of an immediate's range: imm16, imm21, imm11 and imm26 signed, imm16 and imm26 unsigned. -/
theorem test_wide_immediates_refused :
    [Instr.movi 1#5 0x8000#32, .movi 1#5 0xFFFF7FFF#32, .moviU 1#5 0x10000#32, .adpc 1#5 0x100000#32, .lw 1#5 0xFFEFFFFF#32,
      .sw 1#5 0x100000#32, .lwa 1#5 2#5 0x8000#32, .sba 1#5 2#5 0xFFFF7FFF#32, .fada 1#5 2#5 3#5 0x400#32,
      .fada 1#5 2#5 3#5 0xFFFFFBFF#32, .br 0x2000000#32, .call 0xFDFFFFFF#32, .jmp 0x4000000#32].map Instr.wellFormed =
      List.replicate 13 false := by decide
theorem test_immediates_at_their_ends_accepted :
    [Instr.movi 1#5 0x7FFF#32, .movi 1#5 0xFFFF8000#32, .moviU 1#5 0xFFFF#32, .adpc 1#5 0xFFFFF#32, .lw 1#5 0xFFF00000#32,
      .lwa 1#5 2#5 0x7FFF#32, .sba 1#5 2#5 0xFFFF8000#32, .fada 1#5 2#5 3#5 0x3FF#32, .fada 1#5 2#5 3#5 0xFFFFFC00#32,
      .br 0x1FFFFFF#32, .call 0xFE000000#32, .jmp 0x3FFFFFF#32].map Instr.wellFormed = List.replicate 12 true := by decide

/-! ## Decoding: words written from spec/30_encoding.md R111 and R114, most of them in spec/95_test_vectors.md -/

theorem test_decode_add : decode 0b000001_00011_00001_00010_00000000000#32 = .ok (.add 3#5 1#5 2#5) := by decide
theorem test_decode_sub : decode 0b000010_00011_00001_00010_00000000000#32 = .ok (.sub 3#5 1#5 2#5) := by decide
theorem test_decode_and : decode 0b000011_11111_10000_00001_00000000000#32 = .ok (.and 31#5 16#5 1#5) := by decide
theorem test_decode_or : decode 0x10215000#32 = .ok (.or 1#5 1#5 10#5) := by decide
theorem test_decode_xor : decode 0x15484800#32 = .ok (.xor 10#5 8#5 9#5) := by decide
theorem test_decode_lsl : decode 0b000110_00100_00101_00110_00000000000#32 = .ok (.lsl 4#5 5#5 6#5) := by decide
theorem test_decode_lsr : decode 0b000111_00100_00101_00110_00000000000#32 = .ok (.lsr 4#5 5#5 6#5) := by decide
theorem test_decode_rotr : decode 0b001000_00100_00101_00110_00000000000#32 = .ok (.rotr 4#5 5#5 6#5) := by decide
theorem test_decode_cmp : decode 0x24220000#32 = .ok (.cmp 1#5 2#5) := by decide
theorem test_decode_mov : decode 0x28220000#32 = .ok (.mov 1#5 2#5) := by decide
theorem test_decode_movi : decode 0x2C20FFFF#32 = .ok (.movi 1#5 0xFFFFFFFF#32) := by decide
theorem test_decode_moviU : decode 0x2C215810#32 = .ok (.moviU 1#5 0x5810#32) := by decide
theorem test_decode_moviH : decode 0x2C2207FE#32 = .ok (.moviH 1#5 0x07FE#16) := by decide
theorem test_decode_adpc : decode 0x305FFFFC#32 = .ok (.adpc 2#5 0xFFFFFFFC#32) := by decide
theorem test_decode_crmvW : decode 0x35A10000#32 = .ok (.crmvW 13#5 1#5) := by decide
theorem test_decode_crmvR : decode 0x384C0000#32 = .ok (.crmvR 2#5 12#5) := by decide
theorem test_decode_lw : decode 0x40700000#32 = .ok (.lw 3#5 0xFFF00000#32) := by decide
theorem test_decode_sw : decode 0x442001FC#32 = .ok (.sw 1#5 0x1FC#32) := by decide
theorem test_decode_lwa : decode 0x48A20001#32 = .ok (.lwa 5#5 2#5 1#32) := by decide
theorem test_decode_swa : decode 0x4C220000#32 = .ok (.swa 1#5 2#5 0#32) := by decide
theorem test_decode_lda : decode 0x50820002#32 = .ok (.lda 4#5 2#5 2#32) := by decide
theorem test_decode_sda : decode 0x54E20006#32 = .ok (.sda 7#5 2#5 6#32) := by decide
theorem test_decode_lba : decode 0x58620001#32 = .ok (.lba 3#5 2#5 1#32) := by decide
theorem test_decode_sba : decode 0x5CE20005#32 = .ok (.sba 7#5 2#5 5#32) := by decide
theorem test_decode_fada : decode 0x61225004#32 = .ok (.fada 9#5 2#5 10#5 4#32) := by decide
theorem test_decode_push : decode 0x67E00000#32 = .ok (.push 31#5) := by decide
theorem test_decode_pop : decode 0x69200000#32 = .ok (.pop 9#5) := by decide
theorem test_decode_br : decode 0x80000004#32 = .ok (.br 4#32) := by decide
theorem test_decode_bz : decode 0x84000002#32 = .ok (.bz 2#32) := by decide
theorem test_decode_bnz : decode 0x8BFFFFFE#32 = .ok (.bnz 0xFFFFFFFE#32) := by decide
theorem test_decode_bs : decode 0b100011_00000000000000000000000100#32 = .ok (.bs 4#32) := by decide
theorem test_decode_bns : decode 0b100100_00000000000000000000000100#32 = .ok (.bns 4#32) := by decide
theorem test_decode_bc : decode 0b100101_00000000000000000000000100#32 = .ok (.bc 4#32) := by decide
theorem test_decode_bnc : decode 0b100110_00000000000000000000000100#32 = .ok (.bnc 4#32) := by decide
theorem test_decode_bo : decode 0b100111_00000000000000000000000100#32 = .ok (.bo 4#32) := by decide
theorem test_decode_bno : decode 0b101000_00000000000000000000000100#32 = .ok (.bno 4#32) := by decide
theorem test_decode_bl : decode 0b101001_00000000000000000000000100#32 = .ok (.bl 4#32) := by decide
theorem test_decode_bge : decode 0b101010_00000000000000000000000100#32 = .ok (.bge 4#32) := by decide
theorem test_decode_ble : decode 0b101011_00000000000000000000000100#32 = .ok (.ble 4#32) := by decide
theorem test_decode_bb : decode 0b101100_00000000000000000000000100#32 = .ok (.bb 4#32) := by decide
theorem test_decode_bae : decode 0b101101_00000000000000000000000100#32 = .ok (.bae 4#32) := by decide
theorem test_decode_bbe : decode 0b101110_00000000000000000000000100#32 = .ok (.bbe 4#32) := by decide
theorem test_decode_jmp : decode 0xC00003C0#32 = .ok (.jmp 0x3C0#32) := by decide
theorem test_decode_call : decode 0xC4000040#32 = .ok (.call 0x40#32) := by decide
theorem test_decode_ret : decode 0xC8000000#32 = .ok .ret := by decide
theorem test_decode_nop : decode 0xCC000000#32 = .ok .nop := by decide
theorem test_decode_ipi : decode 0xDC640000#32 = .ok (.ipi 3#5 4#5) := by decide
theorem test_decode_sys : decode 0xE0000005#32 = .ok (.sys 5#8) := by decide
theorem test_decode_rfe : decode 0xE4000000#32 = .ok .rfe := by decide
theorem test_decode_rfi : decode 0xE8000000#32 = .ok .rfi := by decide
theorem test_decode_rft : decode 0xEC000000#32 = .ok .rft := by decide
theorem test_decode_tlbw : decode 0xF0C70000#32 = .ok (.tlbw 6#5 7#5) := by decide
theorem test_decode_tlbr : decode 0xF4620000#32 = .ok (.tlbr 3#5 2#5) := by decide
theorem test_decode_tlbc : decode 0xF8000000#32 = .ok .tlbc := by decide
theorem test_decode_modeHalt : decode 0xFC000000#32 = .ok .modeHalt := by decide
theorem test_decode_modeSleep : decode 0xFC000001#32 = .ok .modeSleep := by decide

/-- One illegal word of each item of R116. -/
theorem test_decode_illegal :
    decode 0x3C000000#32 = .error .unassignedOpcode ∧ decode 0x04611001#32 = .error .mustBeZero ∧
      decode 0xC8000001#32 = .error .mustBeZero ∧ decode 0x2C230000#32 = .error .moviVariant ∧
      decode 0x35C10000#32 = .error .crIndex ∧ decode 0x383F0000#32 = .error .crIndex := by decide

/-! ## Small states -/

/-- A field of a next state. -/
def field {α : Type} (r : Result) (f : State → α) : Option α :=
  match r with
  | .next t => some (f t)
  | .fault _ => none
  | .refused _ => none

/-- The state a next state is, else the reset state. -/
def target (r : Result) : State :=
  match r with
  | .next t => t
  | .fault _ => State.reset
  | .refused _ => State.reset

/-- The reset state with these registers. -/
def put (regs : List (Reg × Word)) : State := regs.foldl (fun s p => s.setReg p.1 p.2) State.reset

/-- The state with a word of memory. -/
def poke (s : State) (a : Nat) (v : Word) : State := { s with mem := Memory.writeLE s.mem a .word v }

/-- The state with its current core changed. -/
def tweak (s : State) (f : CoreState → CoreState) : State := s.withCore (f s.core)

/-- The state with its devices changed. -/
def tweakDev (s : State) (f : Devices → Devices) : State := { s with dev := f s.dev }

/-- The state with its parameters changed. -/
def tweakParams (s : State) (f : Params → Params) : State := { s with params := f s.params }

/-- The reset state in a mode. -/
def inMode (m : Mode) : State := tweak State.reset fun c => { c with mode := m }

/-- A TLB entry of flags `f` that maps page `v` to page `p` under pid `d`. -/
def entry (v p : BitVec 20) (d : BitVec 8) (f : BitVec 12) : TlbEntry :=
  { valid := true, vpn := v, ppn := p, pid := d, flags := f }

/-- NESTED_TRAP_FATAL with a trap live. -/
def nesting (s : State) : State :=
  tweakParams (tweak s fun c => { c with trapLive := true }) fun p => { p with nestedTrapFatal := true }

/-- MISALIGN = REFUSE. -/
def refusing (s : State) : State := tweakParams s fun p => { p with misalign := .refuse }

/-- RESET_UNWRITTEN = FAULT. -/
def faulting (s : State) : State := tweakParams s fun p => { p with resetUnwritten := .fault }

/-- The state with a word under the next fetch. -/
def running (s : State) (i : Instr) : State := s.withFetchWord 32 (encode i).toNat

/-- The state with an entry in a slot. -/
def mapped (s : State) (k : Fin 16) (e : TlbEntry) : State := tweak s fun c => { c with tlb := putEntry c.tlb k e }

/-- Result and flags of an instruction on r1 = a, r2 = b that writes r3. -/
def alu (i : Instr) (a b : Word) : Option (Word × BitVec 4) :=
  field (exec i (put [(1#5, a), (2#5, b)])) fun t => (t.reg 3#5, t.core.flg)

/-! ## Arithmetic (spec/95_test_vectors.md section 3; flg is Z + 2N + 4C + 8V) -/

theorem test_add_carry : alu (.add 3#5 1#5 2#5) 0x80000000#32 0x80000000#32 = some (0#32, 0b1101#4) := by decide
theorem test_add_overflow : alu (.add 3#5 1#5 2#5) 0x7FFFFFFF#32 1#32 = some (0x80000000#32, 0b1010#4) := by decide
theorem test_sub_borrow : alu (.sub 3#5 1#5 2#5) 3#32 5#32 = some (0xFFFFFFFE#32, 0b0110#4) := by decide
theorem test_sub_overflow : alu (.sub 3#5 1#5 2#5) 0x80000000#32 1#32 = some (0x7FFFFFFF#32, 0b1000#4) := by decide
theorem test_cmp_borrow : alu (.cmp 1#5 2#5) 3#32 5#32 = some (0#32, 0b0110#4) := by decide
theorem test_cmp_negative : alu (.cmp 1#5 2#5) 0xFFFFFFFF#32 1#32 = some (0#32, 0b0010#4) := by decide
theorem test_and : alu (.and 3#5 1#5 2#5) 0xF0F0F0F0#32 0x0FF00FF0#32 = some (0x00F000F0#32, 0#4) := by decide
theorem test_or : alu (.or 3#5 1#5 2#5) 0xF0000000#32 0xF#32 = some (0xF000000F#32, 0b0010#4) := by decide
theorem test_xor : alu (.xor 3#5 1#5 2#5) 0xFFFFFFFF#32 0xFFFFFFFF#32 = some (0#32, 0b0001#4) := by decide
theorem test_lsl_amount32 : alu (.lsl 3#5 1#5 2#5) 1#32 32#32 = some (1#32, 0#4) := by decide
theorem test_lsl_bit_out : alu (.lsl 3#5 1#5 2#5) 0x80000001#32 1#32 = some (2#32, 0#4) := by decide
theorem test_lsr_amount33 : alu (.lsr 3#5 1#5 2#5) 0x80000000#32 33#32 = some (0x40000000#32, 0#4) := by decide
theorem test_rotr_8 : alu (.rotr 3#5 1#5 2#5) 0x12345678#32 8#32 = some (0x78123456#32, 0#4) := by decide
theorem test_rotr_36 : alu (.rotr 3#5 1#5 2#5) 0x12345678#32 36#32 = some (0x81234567#32, 0b0010#4) := by decide
theorem test_mov_r31 :
    field (exec (.mov 1#5 31#5) (tweak State.reset fun c => { c with ksp := 0x8000#32 })) (·.reg 1#5) = some 0x8000#32 := by decide
theorem test_movi_negative : field (exec (.movi 1#5 0xFFFF8000#32) State.reset) (·.reg 1#5) = some 0xFFFF8000#32 := by decide
theorem test_moviU : field (exec (.moviU 1#5 0xFFFF#32) State.reset) (·.reg 1#5) = some 0xFFFF#32 := by decide
theorem test_moviH : field (exec (.moviH 1#5 0x07FE#16) (put [(1#5, 0x5810#32)])) (·.reg 1#5) = some 0x07FE5810#32 := by decide
theorem test_moviH_r0 : field (exec (.moviH 0#5 0x1234#16) State.reset) (·.reg 0#5) = some 0#32 := by decide
theorem test_adpc : field (exec (.adpc 2#5 0x20#32) State.reset) (·.reg 2#5) = some 0x420#32 := by decide

/-! ## Memory (section 4) -/

/-- The memory of section 4.1 after its first, sixth and seventh stores. -/
def stored : State := poke (poke (put [(2#5, 0x2000#32), (7#5, 0xCAFEBEEF#32)]) 0x2000 0x8899AABB#32) 0x2004 0xBEEFEF00#32

theorem test_swa_little_endian :
    field (exec (.swa 1#5 2#5 0#32) (put [(1#5, 0x8899AABB#32), (2#5, 0x2000#32)])) (·.mem) =
      some [(0x2000, 0xBB#8), (0x2001, 0xAA#8), (0x2002, 0x99#8), (0x2003, 0x88#8)] := by decide
theorem test_lba : field (exec (.lba 3#5 2#5 1#32) stored) (·.reg 3#5) = some 0xAA#32 := by decide
theorem test_lda : field (exec (.lda 4#5 2#5 2#32) stored) (·.reg 4#5) = some 0x8899#32 := by decide
theorem test_lda_aligns_down : field (exec (.lda 6#5 2#5 3#32) stored) (·.reg 6#5) = some 0x8899#32 := by decide
theorem test_lwa_aligns_down : field (exec (.lwa 5#5 2#5 1#32) stored) (·.reg 5#5) = some 0x8899AABB#32 := by decide
theorem test_sba :
    field (exec (.sba 7#5 2#5 5#32) (put [(2#5, 0x2000#32), (7#5, 0xCAFEBEEF#32)])) (·.mem) = some [(0x2005, 0xEF#8)] := by decide
theorem test_sda_tilemap :
    field (exec (.sda 1#5 2#5 0#32) (put [(1#5, 0xABCD00F0#32), (2#5, 0x07FE8080#32)])) (·.mem) =
      some [(0x07FE8080, 0xF0#8)] := by decide
theorem test_fada_wraps :
    field (exec (.fada 9#5 2#5 10#5 4#32) (stored.setReg 10#5 0xFFFFFFFF#32))
      (fun t => (t.reg 9#5, Memory.readLE t.mem 0x2004 .word)) = some (0xBEEFEF00#32, 0xBEEFEEFF#32) := by decide
theorem test_fada_same_register :
    field (exec (.fada 3#5 2#5 3#5 0#32) (poke (put [(2#5, 0x1000#32), (3#5, 1#32)]) 0x1000 5#32))
      (fun t => (t.reg 3#5, Memory.readLE t.mem 0x1000 .word)) = some (5#32, 6#32) := by decide
theorem test_lw : field (exec (.lw 1#5 0x100#32) (poke State.reset 0x500 0xCAFEF00D#32)) (·.reg 1#5) = some 0xCAFEF00D#32 := by decide
theorem test_lw_unmapped : field (exec (.lw 3#5 0xFFF00000#32) (put [(3#5, 9#32)])) (·.reg 3#5) = some 0#32 := by decide
theorem test_sw : field (exec (.sw 1#5 0x200#32) (put [(1#5, 0x0D#32)])) (·.mem) = some [(0x600, 0x0D#8)] := by decide
theorem test_lba_uart :
    field (exec (.lba 3#5 2#5 3#32) (tweakDev (put [(2#5, 0x07FE5800#32)]) fun d => { d with uartRx := [0x61#8] }))
      (fun t => (t.reg 3#5, t.dev.uartRx)) = some (0x61#32, []) := by decide
theorem test_sba_uart :
    field (exec (.sba 1#5 2#5 2#32) (put [(1#5, 0x41#32), (2#5, 0x07FE5800#32)])) (·.dev.uartOut) = some [0x41#8] := by decide

/-! ## Control transfer (section 5) -/

/-- Which of the fifteen branches (in the order of R211's table) are taken to 0x410 under these flags. -/
def taken (f : BitVec 4) : List Bool :=
  [Instr.br, .bz, .bnz, .bs, .bns, .bc, .bnc, .bo, .bno, .bl, .bge, .ble, .bb, .bae, .bbe].map fun b =>
    field (exec (b 4#32) (State.reset.setFlags f)) (·.core.pc) == some 0x410#32

theorem test_branches_n : taken 0b0010#4 =
    [true, false, true, true, false, false, true, false, true, true, false, true, false, true, false] := by decide
theorem test_branches_zc : taken 0b0101#4 =
    [true, true, false, false, true, true, false, false, true, false, true, true, true, false, true] := by decide
theorem test_bnz_back :
    field (exec (.bnz 0xFFFFFFFE#32) (tweak State.reset fun c => { c with pc := 0x41C#32 })) (·.core.pc) = some 0x414#32 := by decide
theorem test_jmp : field (exec (.jmp 0x3C0#32) State.reset) (·.core.pc) = some 0xF00#32 := by decide
theorem test_nop : field (exec .nop State.reset) (·.core.pc) = some 0x404#32 := by decide

/-- Kernel mode with ksp = 0x8000. -/
def stacked : State := tweak State.reset fun c => { c with ksp := 0x8000#32, pc := 0x43C#32 }

theorem test_call :
    field (exec (.call 2#32) stacked) (fun t => (t.core.pc, t.core.ksp, Memory.readLE t.mem 0x7FFC .word)) =
      some (0x444#32, 0x7FFC#32, 0x440#32) := by decide
theorem test_ret :
    field (exec .ret (poke stacked 0x8000 0x443#32)) (fun t => (t.core.pc, t.core.ksp)) = some (0x440#32, 0x8004#32) := by decide
theorem test_push_r31 :
    field (exec (.push 31#5) stacked) (fun t => (t.core.ksp, Memory.readLE t.mem 0x7FFC .word)) =
      some (0x7FFC#32, 0x8000#32) := by decide
theorem test_pop_r31 : field (exec (.pop 31#5) (poke stacked 0x8000 0x77#32)) (·.core.ksp) = some 0x77#32 := by decide
theorem test_pop :
    field (exec (.pop 5#5) (poke stacked 0x8000 0x77#32)) (fun t => (t.reg 5#5, t.core.ksp)) = some (0x77#32, 0x8004#32) := by decide

/-! ## System instructions and traps (sections 6 and 7) -/

/-- Kernel mode, with the handler addresses of section 7 in the IVT. -/
def withIvt : State := poke (poke (poke State.reset 0x200 0x803#32) 0x204 0x900#32) 0x14 0xA00#32

theorem test_crmv_imr_width : field (exec (.crmvW 1#5 1#5) (put [(1#5, 0xFFFFFFFF#32)])) (·.core.imr) = some 0x8000FFFF#32 := by decide
theorem test_crmv_cid_ignored : field (exec (.crmvW 12#5 1#5) (put [(1#5, 0xFFFFFFFF#32)])) (·.core.cid) = some 0#32 := by decide
theorem test_crmvR : field (exec (.crmvR 2#5 1#5) (tweak State.reset fun c => { c with imr := 0x80000020#32 }))
    (·.reg 2#5) = some 0x80000020#32 := by decide
theorem test_crmv_user_traps :
    field (exec (.crmvW 1#5 1#5) (tweak withIvt fun c => { c with mode := .user }))
      (fun t => (t.core.pc, t.core.mode, t.core.modePrev, t.core.epc, t.core.imr)) =
      some (0x900#32, .kernel, .user, 0x400#32, 0#32) := by decide
theorem test_sys :
    field (exec (.sys 5#8) (tweak withIvt fun c => { c with mode := .user, flg := 2#4 }))
      (fun t => (t.core.pc, t.core.mode, t.core.epc, t.core.efg, t.core.flg)) =
      some (0xA00#32, .kernel, 0x404#32, 2#4, 2#4) := by decide

/-- Section 7.6. -/
def returning : State :=
  tweak State.reset fun c => { c with epc := 0x500#32, efg := 0xA#4, flg := 1#4, modePrev := .interrupt }

theorem test_rfe : field (exec .rfe returning) (fun t => (t.core.pc, t.core.mode, t.core.flg)) = some (0x500#32, .user, 1#4) := by
  decide
theorem test_rfi :
    field (exec .rfi returning) (fun t => (t.core.pc, t.core.mode, t.core.flg)) = some (0x500#32, .interrupt, 0xA#4) := by decide
theorem test_rft :
    field (exec .rft returning) (fun t => (t.core.pc, t.core.mode, t.core.flg)) = some (0x500#32, .kernel, 0xA#4) := by decide

/-- Section 6.2 before its first instruction. -/
def codeMapped : State := mapped (put [(1#5, 0x5007#32), (2#5, 0x3ABC#32)]) 0 (entry 0#20 0#20 0#8 0x17#12)

theorem test_tlbw_lowest_free :
    field (exec (.tlbw 1#5 2#5) codeMapped) (fun t => t.core.tlb[1]) = some (entry 3#20 5#20 0#8 7#12) := by decide
theorem test_tlbw_then_translates :
    field (exec (.tlbw 1#5 2#5) codeMapped) (fun t => translateVa t.core 0x3ABC#32 .load) = some (some 0x5ABC#32) := by decide
theorem test_tlbr :
    field (exec (.tlbr 3#5 2#5) (mapped codeMapped 1 (entry 3#20 5#20 0#8 7#12))) (·.reg 3#5) = some 0x5007#32 := by decide
theorem test_tlbr_other_pid :
    field (exec (.tlbr 3#5 2#5) (mapped codeMapped 1 (entry 3#20 5#20 4#8 7#12))) (·.reg 3#5) = some 0#32 := by decide
theorem test_tlbc : field (exec .tlbc codeMapped) (fun t => t.core.tlb[0].valid) = some false := by decide
theorem test_ipi :
    field (exec (.ipi 1#5 2#5) (tweak (put [(2#5, 1#32)]) fun c => { c with mbo := 0x1234#32 }))
      (fun t => (t.todo.map (·.mbi), t.todo.map (·.isr), t.reg 1#5)) = some ([0x1234#32], [0x20#16], 1#32) := by decide
theorem test_ipi_no_core :
    field (exec (.ipi 3#5 4#5) (put [(3#5, 9#32), (4#5, 2#32)])) (fun t => (t.reg 3#5, t.core.isr)) = some (0#32, 0#16) := by decide
theorem test_mode_halt : field (exec .modeHalt State.reset) (fun t => (t.core.pc, t.core.run)) = some (0x404#32, .halted) := by decide
theorem test_mode_sleep : field (exec .modeSleep State.reset) (fun t => (t.core.pc, t.core.run)) = some (0x404#32, .sleeping) := by
  decide

/-- Section 7.5, kernel store without W. -/
theorem test_store_miss :
    field (exec (.swa 1#5 2#5 6#32)
        (mapped (mapped (put [(1#5, 7#32), (2#5, 0x2000#32)]) 0 (entry 0#20 0#20 0#8 5#12)) 1 (entry 2#20 2#20 0#8 1#12)))
      (fun t => (t.core.tlbAddr, t.core.epc, Memory.read t.mem 0x2004)) = some (0x2004#32, 0x400#32, 0#8) := by decide

/-! ## The step (sections 7.1, 7.7 and 8) -/

/-- The first visit's core after a step. -/
def visited (s : State) : Option CoreState := field (step s) fun t => (t.done.headD t.core)

theorem test_step_runs_word : (visited (State.reset.withFetchWord 32 0x2C20FFFF)).map (fun c => (c.pc, c.reg 1#5)) =
    some (0x404#32, 0xFFFFFFFF#32) := by decide
theorem test_step_illegal_word : (visited withIvt).map (fun c => (c.pc, c.epc)) = some (0x800#32, 0x400#32) := by decide
theorem test_step_interrupt_priority :
    (visited (poke (tweak State.reset fun c => { c with imr := 0x80000030#32, isr := 0x31#16 }) 0x3D0 0x1500#32)).map
      (fun c => (c.pc, c.mode, c.epc, c.isr)) = some (0x1500#32, .interrupt, 0x400#32, 0x31#16) := by decide
theorem test_pit_fires :
    field (.next (endVisit (tweakDev { State.reset with todo := [] } fun d => { d with pitPeriod := 3#32, pitCount := 2 })))
      (fun t => (t.core.isr, t.dev.pitCount)) = some (1#16, 0) := by decide

/-- Another layout (R6, ENCODING) may have an immediate wider than any of the spec's: here 27 bits, the high ones of `movi`. -/
theorem test_other_layout :
    field (machineStep (fun w => .ok (.movi (w.setWidth 5) (w &&& 0xFFFFFFE0#32))) (State.reset.withFetchWord 32 0x80000001))
      (fun t => (t.done.headD t.core).reg 1#5) = some 0x80000000#32 := by decide

/-- A refused alignment and a trap that cannot be entered leave their core STUCK and the other core's turn next (R65, R297). -/
theorem test_stuck_core :
    [running (refusing State.reset) (.lwa 1#5 0#5 1#32), running (nesting State.reset) (.sys 0#8)].map
      (fun s => field (step s) fun t => (t.done.map (·.stuck), t.core.stuck, t.core.cid)) =
      [some ([true], false, 1#32), some ([true], false, 1#32)] := by decide

/-- A read of an unwritten r1 is a model fault under FAULT alone (R380). -/
theorem test_unwritten_read :
    step (running (faulting State.reset) (.mov 2#5 1#5)) = .fault .unwrittenRegister ∧
      (visited (running State.reset (.mov 2#5 1#5))).map (·.pc) = some 0x404#32 ∧
      (visited (running (faulting (put [(1#5, 7#32)])) (.mov 2#5 1#5))).map (·.reg 2#5) = some 7#32 :=
  ⟨rfl, by decide, by decide⟩

/-- `fada` reads rV after Translate (R192): the unwritten r3 is no fault where the access misses, and one where it does not. -/
theorem test_fada_miss_before_unwritten_read :
    (visited (running (faulting codeMapped) (.fada 4#5 1#5 3#5 0#32))).map (fun c => (c.tlbAddr, c.epc, c.crWritten .tlb)) =
        some (0x5004#32, 0x400#32, true) ∧
      step (running (faulting codeMapped) (.fada 4#5 0#5 3#5 0#32)) = .fault .unwrittenRegister :=
  ⟨by decide, rfl⟩

/-- Loaded bytes skip the port window, which ends at 0x07FE5B4F (R380; log 29). -/
theorem test_load_skips_ports :
    loadBytes (fun a => !deviceAt a) 0x07FE5B4E [1#8, 2#8, 3#8, 4#8] = [(0x07FE5B50, 3#8), (0x07FE5B51, 4#8)] := by decide

/-- Parameters with a RAM of four bytes. -/
def oneWordRam : Params := { Params.default with ramSize := 4 }

/-- An image as long as RAM, and one a word longer, the loader error (R381). -/
theorem test_boot_size :
    (State.boot oneWordRam 0 [0x11223344#32] [] [] []).map (·.mem) = some [(0, 0x44#8), (1, 0x33#8), (2, 0x22#8), (3, 0x11#8)] ∧
      State.boot oneWordRam 0 [0x11223344#32, 0#32] [] [] [] = none := by decide

/-- Word 1 at physical 4, and a byte of an SD image (R381, R331). -/
theorem test_boot_images :
    (State.boot Params.default 0 [0#32, 0x55#32] [] [7#8, 9#8] []).map (fun s => (s.mem, s.dev.sd1.image.readByte 1)) =
      some ([(4, 0x55#8)], 9#8) := by decide

/-! ## Witnesses: for every obligation with hypotheses, states and operands that meet them, each clause at a boundary -/

theorem witness_DecodeEncodeRoundTrip :
    (Instr.crmvW 0#5 31#5).wellFormed = true ∧ (Instr.crmvW 13#5 0#5).wellFormed = true ∧
      (Instr.fada 31#5 0#5 31#5 0xFFFFFC00#32).wellFormed = true := by decide

theorem witness_DecodedWordIsItsEncoding : decode 0x35BF0000#32 = .ok (.crmvW 13#5 31#5) := by decide

theorem witness_DecodeFollowsOpcodeTable :
    decode 0x384D0000#32 = .ok (.crmvR 2#5 13#5) ∧
      (∃ row ∈ opcodeTable, 0x384D0000#32 &&& row.mask = row.pattern) ∧ decode 0x384E0000#32 = .error .crIndex := by decide

/-- Clause 1 from the PIT port under each value of RESET_UNWRITTEN, clause 2 from the last word of RAM. -/
theorem witness_StepRunsDecodedInstruction :
    (∃ s : State, s.core.run = .running ∧ s.core.stuck = false ∧ deliverable s.core = none ∧
      translateVa s.core s.core.pc .fetch = some 0x07FE5804#32 ∧
      decode (physRead (beginVisit s) 0x07FE5804#32 .word).1 = .ok .nop ∧ Readable s .nop) ∧
    (∃ s : State, s.core.run = .running ∧ s.core.stuck = false ∧ deliverable s.core = none ∧
      translateVa s.core s.core.pc .fetch = some 0x400#32 ∧
      decode (physRead (beginVisit s) 0x400#32 .word).1 = .ok .rfe ∧ ¬ Readable s .rfe) ∧
    ∃ s : State, s.core.run = .running ∧ s.core.stuck = false ∧ deliverable s.core = none ∧
      translateVa s.core s.core.pc .fetch = some 0x001FFFFC#32 ∧ place s.params 0x001FFFFC#32 .word = .storage ∧
      decodeBytes [Memory.read s.mem 0x001FFFFC, Memory.read s.mem 0x001FFFFD, Memory.read s.mem 0x001FFFFE,
        Memory.read s.mem 0x001FFFFF] = .ok (.nop, []) ∧ Readable s .nop :=
  ⟨⟨tweakDev (tweak State.reset fun c => { c with pc := 0x07FE5804#32 }) fun d => { d with pitPeriod := 0xCC000000#32 },
      by unfold Readable; decide⟩,
    ⟨running (faulting State.reset) .rfe, by unfold Readable; decide⟩,
    ⟨poke (tweak State.reset fun c => { c with pc := 0x001FFFFC#32 }) 0x001FFFFC 0xCC000000#32, by unfold Readable; decide⟩⟩

/-- A core whose fetch misses: pid 1 and an empty TLB. -/
def missing (m : Mode) : State := tweak (inMode m) fun c => { c with pid := 1#8 }

/-- An illegal word and a miss in each mode, where traps enter and where they do not. -/
theorem witness_FaultingFetchTraps :
    (∀ s ∈ [State.reset, nesting State.reset], s.core.run = .running ∧ s.core.stuck = false ∧ deliverable s.core = none ∧
      translateVa s.core s.core.pc .fetch = some 0x400#32 ∧
      decode (physRead (beginVisit s) 0x400#32 .word).1 = .error .unassignedOpcode) ∧
    (∀ m ∈ [Mode.user, .kernel, .interrupt], ∀ s ∈ [missing m, nesting (missing m)], s.core.run = .running ∧
      s.core.stuck = false ∧ deliverable s.core = none ∧ translateVa s.core s.core.pc .fetch = none) ∧
    TrapsEnter State.reset ∧ TrapsEnter (missing .user) ∧ ¬ TrapsEnter (nesting State.reset) ∧
      ¬ TrapsEnter (nesting (missing .interrupt)) := by
  unfold TrapsEnter
  decide

/-- Bits 0 and 15; then each way in which nothing is deliverable. -/
theorem witness_LowestPendingInterruptPreempts :
    (∃ s : State, s.core.isr.getLsbD 0 = true ∧ s.core.imr.getLsbD 0 = true ∧
      (∀ j, j < 0 → ¬ (s.core.isr.getLsbD j = true ∧ s.core.imr.getLsbD j = true)) ∧
      s.core.imr.getLsbD 31 = true ∧ s.core.mode ≠ .interrupt ∧ s.core.run = .sleeping ∧ s.core.stuck = false) ∧
    (∃ s : State, s.core.isr.getLsbD 15 = true ∧ s.core.imr.getLsbD 15 = true ∧
      (∀ j, j < 15 → ¬ (s.core.isr.getLsbD j = true ∧ s.core.imr.getLsbD j = true)) ∧
      s.core.imr.getLsbD 31 = true ∧ s.core.mode ≠ .interrupt ∧ s.core.run ≠ .halted ∧ s.core.stuck = false) ∧
    State.reset.core.imr.getLsbD 31 = false ∧ (inMode .interrupt).core.mode = .interrupt ∧
    ∃ s : State, s.core.imr.getLsbD 31 = true ∧ ∀ k, k < 16 → ¬ (s.core.isr.getLsbD k = true ∧ s.core.imr.getLsbD k = true) :=
  ⟨⟨tweak State.reset fun c => { c with imr := 0x80000001#32, isr := 1#16, run := .sleeping }, by decide⟩,
    ⟨tweak State.reset fun c => { c with imr := 0x80008000#32, isr := 0xFFFF#16 }, by decide⟩, by decide, by decide,
    ⟨tweak State.reset fun c => { c with imr := 0x80000020#32, isr := 0xFFDF#16 }, by decide⟩⟩

/-- One core, halted. -/
def haltedAlone : State := tweak { State.reset with todo := [] } fun c => { c with run := .halted }

/-- Core 0 of two halted. -/
def haltedFirst : State := tweak State.reset fun c => { c with run := .halted }

/-- Core 0 of two STUCK. -/
def stuckFirst : State := tweak State.reset fun c => { c with stuck := true }

/-- A run that is over and one that is not, though its first core is halted; a halted and a STUCK core, a sleeping one, a tick that sticks its core and one that does not. -/
theorem witness_VisitsThatExecuteNothing :
    (haltedAlone.runOver = true ∧ haltedAlone.done = [] ∧ ∀ c ∈ haltedAlone.cores, c.run = .halted) ∧ (haltedFirst.runOver = false ∧ haltedFirst.core.run = .halted) ∧
      (stuckFirst.runOver = false ∧ stuckFirst.core.stuck = true) ∧
      (∃ s : State, s.core.run = .sleeping ∧ s.core.stuck = false ∧ deliverable s.core = none) ∧
      ∀ s ∈ [State.reset, nesting State.reset], s.core.run ≠ .halted ∧ s.core.stuck = false ∧
        field (coreTick decode (beginVisit s)) (·.core.stuck) = some s.params.nestedTrapFatal :=
  ⟨by decide, by decide, by decide, ⟨tweak State.reset fun c => { c with run := .sleeping }, by decide⟩, by decide⟩

theorem witness_HaltedCoreIsInert :
    (∃ (t : State) (c : CoreState), step haltedFirst = .next t ∧ haltedFirst.cores[0]? = some c ∧ c.run = .halted) ∧
      ∃ (t : State) (c : CoreState), step stuckFirst = .next t ∧ stuckFirst.cores[0]? = some c ∧ c.stuck = true :=
  ⟨⟨_, _, rfl, rfl, rfl⟩, ⟨_, _, rfl, rfl, rfl⟩⟩

theorem witness_CoresTakeTurns :
    (State.reset.runOver = false ∧ State.reset.todo ≠ [] ∧ ∃ t, step State.reset = .next t) ∧
      ∃ s t : State, s.runOver = false ∧ s.todo = [] ∧ step s = .next t :=
  ⟨⟨by decide, by decide, _, rfl⟩, ⟨{ State.reset with todo := [] }, _, by decide, rfl, rfl⟩⟩

/-- A step under ZERO, a fault under FAULT, a next state of the default machine; a register read and one not, of an instruction that
reads rV after its access translates. -/
theorem witness_DefaultMachineNeverStops :
    State.reset.params.resetUnwritten = .zero ∧
      step (running (faulting State.reset) .rfe) = .fault .unwrittenRegister ∧
      State.reset.params.misalign = .alignDown ∧ State.reset.params.nestedTrapFatal = false ∧
      (∃ t, step State.reset = .next t) ∧
      (Source.reg 3#5 ∈ sources codeMapped (.fada 4#5 0#5 3#5 0#32) ∧
        Source.reg 3#5 ∉ sources codeMapped (.fada 4#5 1#5 3#5 0#32)) :=
  ⟨rfl, rfl, rfl, rfl, ⟨_, rfl⟩, by decide⟩

/-- A core that cannot enter a trap. -/
def nested : State := nesting State.reset

theorem witness_TrapEntryEffect :
    (nested.params.nestedTrapFatal = true ∧ nested.core.trapLive = true ∧ Mode.kernel ≠ .interrupt) ∧
      ¬ (nested.params.nestedTrapFatal = true ∧ nested.core.trapLive = true ∧ Mode.interrupt ≠ .interrupt) ∧
      ¬ (State.reset.params.nestedTrapFatal = true ∧ State.reset.core.trapLive = true ∧ Mode.kernel ≠ .interrupt) := by decide

theorem witness_IvtSlotIsPhysicalWord :
    4 * (255#8).toNat + 4 ≤ (tweakParams State.reset fun p => { p with ramSize := 0x400 }).params.ramSize ∧
      (tweakParams State.reset fun p => { p with ramSize := 0x3FF }).params.ramSize < 4 * (255#8).toNat + 4 := by decide

theorem witness_SysEntersKernel : TrapsEnter State.reset ∧ ¬ TrapsEnter nested := by
  unfold TrapsEnter
  decide

theorem witness_PrivilegedInUserRaisesExcPriv :
    IsPrivileged (.crmvW 13#5 0#5) ∧ (Instr.crmvW 13#5 0#5).wellFormed = true ∧ IsPrivileged .modeSleep ∧
      Instr.modeSleep.wellFormed = true ∧ (inMode .user).core.mode = .user ∧ TrapsEnter (inMode .user) ∧
      (nesting (inMode .user)).core.mode = .user ∧ ¬ TrapsEnter (nesting (inMode .user)) :=
  ⟨.inl ⟨_, _, rfl⟩, rfl, by simp [IsPrivileged], rfl, rfl, .inl rfl, rfl, by unfold TrapsEnter; decide⟩

theorem witness_RfeReturnsToUser : State.reset.core.mode ≠ .user ∧ (inMode .interrupt).core.mode ≠ .user := by decide
theorem witness_RfiRestoresModeAndFlags : returning.core.mode ≠ .user ∧ (inMode .interrupt).core.mode ≠ .user := by decide
theorem witness_RftReturnsToKernel : returning.core.mode ≠ .user ∧ (inMode .interrupt).core.mode ≠ .user := by decide

theorem witness_UserModeIsLeftOnlyByTrap :
    (inMode .user).core.mode = .user ∧ (∃ t, exec .nop (inMode .user) = .next t ∧ t.core.mode = .user) ∧
      (∃ t, exec (.sys 1#8) (inMode .user) = .next t ∧ t.core.mode = .kernel) ∧
      ∃ t, exec .rfe (inMode .user) = .next t ∧ t.core.mode = .kernel :=
  ⟨rfl, ⟨_, rfl, rfl⟩, ⟨_, rfl, rfl⟩, ⟨_, rfl, rfl⟩⟩

theorem witness_UserCannotChangePrivilegedState :
    ∃ t, exec (.push 31#5) (inMode .user) = .next t ∧ (inMode .user).core.mode = .user ∧ t.core.mode = .user ∧
      t.core.stuck = false :=
  ⟨_, rfl, rfl, rfl, rfl⟩

/-- `nop` meets the premises of every clause but the one on STUCK, `sys` under NESTED_TRAP_FATAL that one. -/
theorem witness_StateHasOnlyItsWriters :
    (∃ t, exec .nop State.reset = .next t ∧ ¬ Trapped State.reset t ∧ ∀ q, ¬ HasWriter State.reset t .nop q) ∧
      (∀ k rS, Instr.nop ≠ .crmvW k rS) ∧ destinations .nop = [] ∧ Instr.nop ≠ .rfe ∧ Instr.nop ≠ .rfi ∧
      Instr.nop ≠ .rft ∧ (∀ rE rV, Instr.nop ≠ .tlbw rE rV) ∧ Instr.nop ≠ .tlbc ∧ Instr.nop ≠ .modeHalt ∧
      Instr.nop ≠ .modeSleep ∧ (∀ rD rT, Instr.nop ≠ .ipi rD rT) ∧ dataAccess State.reset .nop = none ∧
      ∃ t, exec (.sys 0#8) nested = .next t ∧ t.core.stuck ≠ nested.core.stuck := by
  have h : ¬ Trapped State.reset State.reset.advance := by
    rintro ⟨v, e, m, h⟩
    exact absurd h.2.2.2.2.1 (by decide)
  refine ⟨⟨_, rfl, h, fun q => ?_⟩, by simp, rfl, by simp, by simp, by simp, by simp, by simp, by simp, by simp, by simp,
    rfl, _, rfl, by decide⟩
  cases q <;> first | exact h | simp [HasWriter, destinations, dataAccess, IsAlu]

/-- The last word and the last byte of RAM, and a port; an address in RAM, one in the port window and one past RAM. -/
theorem witness_LoadsReadTheirAddress :
    AccessAt State.reset (State.reset.core.pc + (0xFFC00#21).signExtend 32) .word .load 0x100000#32 ∧
      AccessAt (put [(2#5, 0x1FFFFC#32)]) ((put [(2#5, 0x1FFFFC#32)]).reg 2#5 + (0#16).signExtend 32) .word .load 0x1FFFFC#32 ∧
      AccessAt (put [(2#5, 0x07FE5800#32)]) ((put [(2#5, 0x07FE5800#32)]).reg 2#5 + (0#16).signExtend 32) .half .load
        0x07FE5800#32 ∧
      AccessAt (put [(2#5, 0x200000#32)]) ((put [(2#5, 0x200000#32)]).reg 2#5 + (0xFFFF#16).signExtend 32) .byte .load
        0x1FFFFF#32 ∧
      place State.reset.params 0x1FFFFC#32 .word = .storage ∧ place State.reset.params 0x07FE5800#32 .half = .port ∧
      place State.reset.params 0x200000#32 .word = .unmapped :=
  ⟨⟨_, rfl, by decide⟩, ⟨0x1FFFFC#32, by decide, by decide⟩, ⟨0x07FE5800#32, by decide, by decide⟩,
    ⟨0x1FFFFF#32, by decide, by decide⟩, by decide, by decide, by decide⟩

/-- The first word of RAM, its last word reached misaligned, a port, the byte past RAM. -/
theorem witness_StoresWriteTheirAddress :
    Memory.wf State.reset.mem = true ∧
      AccessAt State.reset (State.reset.core.pc + (0x1FFC00#21).signExtend 32) .word .store 0#32 ∧
      AccessAt (put [(2#5, 0x1FFFFE#32)]) ((put [(2#5, 0x1FFFFE#32)]).reg 2#5 + (1#16).signExtend 32) .word .store 0x1FFFFC#32 ∧
      AccessAt (put [(2#5, 0x07FE5802#32)]) ((put [(2#5, 0x07FE5802#32)]).reg 2#5 + (0#16).signExtend 32) .half .store
        0x07FE5802#32 ∧
      AccessAt (put [(2#5, 0x200001#32)]) ((put [(2#5, 0x200001#32)]).reg 2#5 + (0xFFFF#16).signExtend 32) .byte .store
        0x200000#32 :=
  ⟨rfl, ⟨0#32, by decide, by decide⟩, ⟨0x1FFFFC#32, by decide, by decide⟩, ⟨0x07FE5802#32, by decide, by decide⟩,
    ⟨0x200000#32, by decide, by decide⟩⟩

theorem witness_FadaAddsInOneStep :
    Memory.wf (put [(2#5, 0x1000#32)]).mem = true ∧
      AccessAt (put [(2#5, 0x1000#32)]) ((put [(2#5, 0x1000#32)]).reg 2#5 + (0x400#11).signExtend 32) .word .rmw 0xC00#32 ∧
      AccessAt (put [(2#5, 0x07FE5804#32)]) ((put [(2#5, 0x07FE5804#32)]).reg 2#5 + (0#11).signExtend 32) .word .rmw
        0x07FE5804#32 :=
  ⟨rfl, ⟨0xC00#32, by decide, by decide⟩, ⟨0x07FE5804#32, by decide, by decide⟩⟩

theorem witness_DataMissIsPrecise :
    dataAccess (missing .user) .ret = some ((missing .user).reg spReg, .word, .load) ∧
      AccessMisses (missing .user) ((missing .user).reg spReg) .word .load 0#32 ∧ TrapsEnter (missing .user) ∧
      dataAccess (missing .interrupt) (.fada 1#5 0#5 2#5 3#32) = some (3#32, .word, .rmw) ∧
      AccessMisses (missing .interrupt) 3#32 .word .rmw 0#32 ∧ TrapsEnter (missing .interrupt) ∧
      dataAccess (nesting (missing .kernel)) (.lba 1#5 0#5 0xFFFFFFFF#32) = some (0xFFFFFFFF#32, .byte, .load) ∧
      AccessMisses (nesting (missing .kernel)) 0xFFFFFFFF#32 .byte .load 0xFFFFFFFF#32 ∧
      ¬ TrapsEnter (nesting (missing .kernel)) :=
  ⟨rfl, ⟨by decide, by decide⟩, .inl rfl, by decide, ⟨by decide, by decide⟩, .inl rfl, by decide, ⟨by decide, by decide⟩,
    by unfold TrapsEnter; decide⟩

/-- Under REFUSE an address one past a word's and the word's; under ALIGN_DOWN the same two. -/
theorem witness_MisalignDecidesTheAccess :
    ∀ s ∈ [refusing State.reset, State.reset],
      dataAccess s (.lwa 1#5 0#5 1#32) = some (1#32, .word, .load) ∧ (1#32).toNat % widthBytes .word ≠ 0 ∧
        dataAccess s (.lwa 1#5 0#5 4#32) = some (4#32, .word, .load) ∧ (4#32).toNat % widthBytes .word = 0 ∧
        (s = State.reset ↔ s.params.misalign = .alignDown) := by decide

/-- The last word of RAM, the word after it, VGA's first and last, the ports' first and last, and a RAM that a region cuts into. -/
theorem witness_MemoryIsLittleEndian :
    place State.reset.params 0x1FFFFC#32 .word = .storage ∧ place State.reset.params 0x07FFFFFF#32 .byte = .storage ∧
      place State.reset.params 0#32 .half = .storage ∧ Memory.wf stored.mem = true ∧
      [0x200000#32, 0x07FBCFFC#32, 0x07FBD000#32, 0x07FFFFFC#32, 0x08000000#32, 0x07FE57FC#32, 0x07FE5800#32, 0x07FE5B4C#32,
          0x07FE5B50#32].map (fun a => place State.reset.params a .word) =
        [.unmapped, .unmapped, .storage, .storage, .unmapped, .unmapped, .port, .port, .unmapped] ∧
      [0x07FE5B4F#32, 0x07FE5B50#32].map (place { Params.default with ramSize := 0x07FE5B54 } · .byte) = [.port, .storage] := by
  decide

/-- Stack at the bottom of the address space's second word, and at 0, where it wraps to an unmapped address. -/
theorem witness_PushAndCallStoreBelowTheStack :
    Memory.wf stacked.mem = true ∧ AccessAt stacked (stacked.reg spReg - 4#32) .word .store 0x7FFC#32 ∧
      AccessAt State.reset (State.reset.reg spReg - 4#32) .word .store 0xFFFFFFFC#32 :=
  ⟨rfl, ⟨0x7FFC#32, by decide, by decide⟩, ⟨0xFFFFFFFC#32, by decide, by decide⟩⟩

theorem witness_PopAndRetLoadFromTheStack :
    AccessAt stacked (stacked.reg spReg) .word .load 0x8000#32 ∧
      AccessAt (inMode .user) ((inMode .user).reg spReg) .word .load 0#32 :=
  ⟨⟨0x8000#32, by decide, by decide⟩, ⟨0#32, by decide, by decide⟩⟩

theorem witness_PushThenPopRestores :
    ∃ t, Memory.wf stacked.mem = true ∧ (0#5) ≠ spReg ∧ (30#5) ≠ spReg ∧
      place stacked.params 0x7FFC#32 .word = .storage ∧
      AccessAt stacked (stacked.reg spReg - 4#32) .word .store 0x7FFC#32 ∧
      AccessAt stacked (stacked.reg spReg - 4#32) .word .load 0x7FFC#32 ∧ exec (.push 30#5) stacked = .next t :=
  ⟨_, rfl, by decide, by decide, by decide, ⟨0x7FFC#32, by decide, by decide⟩, ⟨0x7FFC#32, by decide, by decide⟩, rfl⟩

theorem witness_CrmvWritesTheHeldBits :
    State.reset.core.mode ≠ .user ∧ CReg.all[(0#5).toNat]? = some .pid ∧ CReg.all[(12#5).toNat]? = some .cid ∧
      CReg.all[(13#5).toNat]? = some .flg ∧ CReg.all[(5#5).toNat]? = some (stackCReg State.reset.core.mode) := by decide

theorem witness_CrmvReadsTheHeldBits :
    (inMode .interrupt).core.mode ≠ .user ∧ CReg.all[(0#5).toNat]? = some .pid ∧ CReg.all[(13#5).toNat]? = some .flg ∧
      (inMode .interrupt).core.imr &&& 0x7FFF0000#32 = 0#32 := by decide

theorem witness_FlagsStandInTheirBits : returning.core.mode ≠ .user := by decide

/-- Conflict, free slot, full: the three ways of an insertion. -/
theorem witness_TlbwInsertsOneEntry :
    codeMapped.core.mode ≠ .user ∧ EntryConflicts (entry 0#20 9#20 5#8 0#12) codeMapped.core.tlb[0] ∧
      codeMapped.core.tlb[1].valid = false ∧
      ∃ s : State, s.core.mode ≠ .user ∧ ∀ j : Fin 16, s.core.tlb[j].valid = true :=
  ⟨by decide, by unfold EntryConflicts; decide, by decide,
    ⟨tweak State.reset fun c => { c with tlb := Vector.replicate 16 (entry 1#20 0#20 0#8 0#12), tlbNext := 15 }, by decide⟩⟩

/-- A match in slot 0, no match, and an address of the page just written. -/
theorem witness_TlbrReadsWhatTlbwWrote :
    codeMapped.core.mode ≠ .user ∧ IsMatch codeMapped.core (codeMapped.reg 0#5) 0 ∧
      (∀ k : Fin 16, ¬ EntryHits codeMapped.core.pid (codeMapped.reg 2#5) codeMapped.core.tlb[k]) ∧
      ∃ t, exec (.tlbw 1#5 2#5) codeMapped = .next t ∧
        (t.reg 2#5).extractLsb' 12 20 = (codeMapped.reg 2#5).extractLsb' 12 20 :=
  ⟨by decide, by unfold IsMatch EntryHits; decide, by unfold EntryHits; decide, _, rfl, by decide⟩

theorem witness_TlbcClearsEveryEntry : codeMapped.core.mode ≠ .user := by decide

/-- Targets 1 (the other core), 0 (the sender) and 2 (no core) of two cores. -/
theorem witness_IpiReachesItsTarget :
    State.reset.core.mode ≠ .user ∧ ((put [(2#5, 1#32)]).reg 2#5).toNat < (put [(2#5, 1#32)]).nCores ∧
      (State.reset.reg 0#5).toNat < State.reset.nCores ∧
      (put [(2#5, 2#32)]).nCores ≤ ((put [(2#5, 2#32)]).reg 2#5).toNat := by decide

theorem witness_HaltAndSleepSetTheRunState : (inMode .interrupt).core.mode ≠ .user ∧ State.reset.core.mode ≠ .user := by decide

theorem witness_TranslationOffIsIdentity :
    ¬ ((∃ k : Fin 16, State.reset.core.tlb[k].valid = true) ∨ State.reset.core.pid ≠ 0#8) := by decide

/-- Enabled by an entry, and by pid alone; a match that permits fetch but, in user mode, does not; no match. -/
theorem witness_TranslationFollowsTheMatch :
    ((∃ k : Fin 16, codeMapped.core.tlb[k].valid = true) ∨ codeMapped.core.pid ≠ 0#8) ∧
      IsMatch codeMapped.core 0xFFF#32 0 ∧ PermissionHolds .kernel codeMapped.core.tlb[0] .rmw ∧
      ¬ PermissionHolds .user codeMapped.core.tlb[0] .fetch ∧
      ((∃ k : Fin 16, (missing .user).core.tlb[k].valid = true) ∨ (missing .user).core.pid ≠ 0#8) ∧
      ∀ k : Fin 16, ¬ EntryHits (missing .user).core.pid 0#32 (missing .user).core.tlb[k] :=
  ⟨by decide, by unfold IsMatch EntryHits; decide, by unfold PermissionHolds; decide, by unfold PermissionHolds; decide,
    by decide, by unfold EntryHits; decide⟩

/-- Full and empty queues; the byte after PIT_INTERVAL's first, the one before the first port and the one past the window. -/
theorem witness_PortsHaveTheirEffects :
    (∃ d : Devices, d.ps2Queue = 0x001C#16 :: [] ∧ d.uartRx = 0x61#8 :: []) ∧ State.reset.dev.ps2Queue = [] ∧
      State.reset.dev.uartRx = [] ∧
      ∀ a ∈ [0x07FE5805#32, 0x07FE5807#32, 0x07FE57FF#32, 0x07FE5B4D#32, 0x07FE5B50#32], a.toNat ∉ portStarts :=
  ⟨⟨{ State.reset.dev with ps2Queue := [0x001C#16], uartRx := [0x61#8] }, rfl, rfl⟩, rfl, rfl, by simp [portStarts]⟩

/-- A slot that is not busy with 1, 3, 8 and 2 at each width that tells them apart, and a busy one. -/
theorem witness_SdCommandLatchesTheTransfer :
    (State.reset.dev.slot .sd1).busy = false ∧ (∃ d : Devices, (d.slot .sd0).busy = true) ∧
      cutTo .byte .word 0x101#32 = 1#32 ∧ cutTo .half .word 0x10003#32 = 3#32 ∧ cutTo .word .word 8#32 = 8#32 ∧
      cutTo .word .word 0x101#32 ∉ [1#32, 3#32, 8#32] :=
  ⟨by decide, ⟨State.reset.dev.setSlot .sd0 { State.reset.dev.sd0 with busy := true }, rfl⟩, rfl, rfl, rfl,
    by simp [show cutTo .word .word 0x101#32 = 0x101#32 from rfl]⟩

/-- Both slots in a transfer of a kind, at a cursor, with bytes remaining, at an image's last two bytes; SD_DMA_TICKS 1 or 2. -/
def transferring (k : SdKind) (cursor remaining : Word) (ticks : Nat) : State :=
  let f := fun d : SdSlot =>
    { d with busy := true, kind := k, cur := cursor, rem := remaining, image := { size := 2, bytes := [(1, 7#8)] } }
  tweakParams (tweakDev State.reset fun d => (d.setSlot .sd0 (f d.sd0)).setSlot .sd1 (f d.sd1))
    fun p => { p with sdDmaTicks := ticks }

/-- The premises hold of a transfer each way, at the last word of RAM, in a port and where nothing is mapped, of its end, of an
init and of a step that is not due; the byte after an image of two. -/
theorem witness_DmaMovesOneQuantum :
    (transferring .read 0#32 0#32 1).dev.sd0.image.size ≤ 2 ∧ ∀ s ∈ [transferring .read 0x1FFFFC#32 4#32 1, transferring .write 0x1FFFFC#32 4#32 1, transferring .read 0x07FE5800#32 4#32 1,
        transferring .write 0x07FE5804#32 8#32 1, transferring .read 0x200000#32 4#32 1, transferring .read 0#32 0#32 1,
        transferring .init 0#32 0#32 1, transferring .write 0#32 4#32 2],
      Memory.wf s.mem = true ∧ ∀ i, (s.dev.slot i).busy = true ∧ Memory.wf (s.dev.slot i).image.bytes = true := by
  refine ⟨by decide, fun s hs => ?_⟩
  simp only [List.mem_cons, List.not_mem_nil, or_false] at hs
  rcases hs with rfl | rfl | rfl | rfl | rfl | rfl | rfl | rfl <;>
    exact ⟨rfl, fun i => by cases i <;> exact ⟨rfl, rfl⟩⟩

/-- The last visit of a pass, and one that is not. -/
theorem witness_SampleRaisesTheLines : haltedAlone.todo = [] ∧ State.reset.todo = CoreState.reset 1 :: [] := by decide

/-- Inside a pass; an empty schedule; at a pass's start under either value of UART_INPUT, with an input of each kind. -/
theorem witness_HostInputArrivesBetweenPasses :
    (∃ s : State, s.done ≠ []) ∧ State.reset.hostSchedule = [] ∧
      ∀ u ∈ [false, true], ∃ s : State, s.done = [] ∧ s.params.uartInput = u ∧
        s.hostSchedule = [.keyEvent 0x1C#16, .uartByte 0x61#8] :: [] :=
  ⟨⟨{ State.reset with done := [CoreState.reset 0] }, by decide⟩, rfl, fun u _ =>
    ⟨State.initial { Params.default with uartInput := u } 0 [] SdImage.absent SdImage.absent
      [[.keyEvent 0x1C#16, .uartByte 0x61#8]], rfl, rfl, rfl⟩⟩

/-- Both sides of the loader's limit; each core; a word outside the devices, and
a byte in each kind of region. -/
theorem witness_ResetStateOfEveryCore :
    oneWordRam.ramSize < 4 * [0#32, 0#32].length ∧ 4 * [1#32].length ≤ oneWordRam.ramSize ∧
      State.reset.cores[0]? = some (CoreState.reset 0) ∧ State.reset.cores[1]? = some (CoreState.reset 1) ∧
      [1#32][0]? = some 1#32 ∧ ¬ InVga 3 1 ∧ ¬ InPorts 3 1 ∧ InVga 0x07FBD000 1 ∧ InPorts 0x07FE5B4F 1 ∧ 4 * [1#32].length ≤ 4 := by
  unfold InVga InPorts; decide

/-- A boot of a machine of one core. -/
theorem witness_ResetHasInvariant : ∃ s, State.boot Params.default 0 [0xFC000001#32] [1#8] [] [] = some s := ⟨_, rfl⟩

/-- A machine of one core with the invariant, at a word of its own. -/
def alone : State := (State.initial Params.default 0 [] SdImage.absent SdImage.absent []).withFetchWord 32 0xFC000001

theorem witness_StepKeepsInvariant : alone.Inv ∧ ∃ t, step alone = .next t := by
  refine ⟨⟨by decide, by unfold SdSlot.wellKept; decide, by unfold SdSlot.wellKept; decide, fun c hc => ?_,
    by unfold State.cidsNumbered; decide⟩, _, rfl⟩
  obtain rfl : c = CoreState.reset 0 := by simpa [alone, State.initial, State.cores, State.withFetchWord, placeFetchWord] using hc
  refine ⟨by decide, by decide, fun x _ => ?_, fun q _ => ?_⟩
  · cases x <;> simp [CoreState.readTarget, CoreState.reset]
  · cases q <;> rfl

end Sys2Proof.Tests
end

section
/-! Proofs of the statements about translation (spec/20_memory.md). -/
namespace Sys2Proof.Proofs

open Sys2Proof Sys2Proof.Machine

/-- Where translation is off, the address is answered as it is, for every intent and in every mode (R68). -/
theorem translateVa_of_disabled {c : CoreState} (hoff : translationEnabled c = false) (va : Word) (i : Intent) :
    translateVa c va i = some va := by
  rcases translateVa_cases c va i with ⟨-, hsame⟩ | ⟨hon, -⟩ | ⟨_, hon, -⟩
  · exact hsame
  · simp [hoff] at hon
  · simp [hoff] at hon

/-- Settles O51: R67's condition fails, so translation is off and R68 applies. -/
theorem translationOffIsIdentity : Obligations.TranslationOffIsIdentity := by
  intro c va i hnone
  obtain ⟨hinvalid, hpid⟩ := not_or.mp hnone
  have hoff : translationEnabled c = false :=
    (translationEnabled_eq_false c).mpr
      ⟨fun k => Bool.eq_false_iff.mpr fun hvalid => hinvalid ⟨k, hvalid⟩, not_not.mp hpid⟩
  exact translateVa_of_disabled hoff va i

end Sys2Proof.Proofs
end

section
/-! Proofs of the statements about add, sub and cmp (spec/40_alu.md R143 to R145). -/
namespace Sys2Proof.Proofs

open Sys2Proof Sys2Proof.Machine

/-! ### What the three instructions do, through the shared ALU write -/

theorem exec_add (rD rA rB : Reg) (s : State) :
    exec (.add rD rA rB) s = writeAlu s rD (aluAdd (s.reg rA) (s.reg rB)) := rfl

theorem exec_sub (rD rA rB : Reg) (s : State) :
    exec (.sub rD rA rB) s = writeAlu s rD (aluSub (s.reg rA) (s.reg rB)) := rfl

theorem exec_cmp (rA rB : Reg) (s : State) :
    exec (.cmp rA rB) s = .next ((s.setFlags (aluSub (s.reg rA) (s.reg rB)).flags).advance) := rfl

/-! ### Writing the flags alone -/

/-- Writing the flags and moving the pc changes no general register, r31's stack pointer included, and of the control registers
flg only. -/
theorem setFlags_advance_frame (s : State) (f : BitVec 4) : Frame s ((s.setFlags f).advance) [] [.flg] := by
  refine ⟨⟨rfl, rfl, rfl, rfl, rfl, fun _ => rfl⟩, ⟨rfl, rfl, rfl, rfl, rfl, rfl, rfl⟩, fun r _ => ?_, fun q hq _ => ?_⟩
  · exact ⟨(advance_reg _ r).trans (setFlags_reg s f r), (advance_regWritten _ r).trans (setFlags_regWritten s f r)⟩
  · have hflg : q ≠ .flg := by simpa using hq
    exact ⟨(advance_readCr _ q).trans (setFlags_readCr s f q hflg), (advance_crWritten _ q).trans (setFlags_crWritten s f q)⟩

/-- The flags of an ALU output, written without its result, are read back as R141 computes them. -/
theorem setFlags_aluOut_flagsAre (s : State) (r : Word) (c v : Bool) :
    FlagsAre ((s.setFlags (aluOut r c v).flags).advance) (r == 0#32) (r.getLsbD 31) c v :=
  packFlags_bits _ _ _ _

/-! ### The statements -/

/-- Settles O22: `add` is the shared ALU write of AddCV. -/
theorem addResultAndFlags : Obligations.AddResultAndFlags := fun s rD rA rB =>
  writeAlu_computes s _ rD _ _ _ (exec_add rD rA rB s)

/-- Settles O23: `sub` is the shared ALU write of SubCV. -/
theorem subResultAndFlags : Obligations.SubResultAndFlags := fun s rD rA rB =>
  writeAlu_computes s _ rD _ _ _ (exec_sub rD rA rB s)

/-- Settles O24: `cmp` writes the flags of SubCV and drops its result. -/
theorem cmpFlags : Obligations.CmpFlags := fun s rA rB =>
  ⟨_, exec_cmp rA rB s, setFlags_aluOut_flagsAre s _ _ _, by simp, setFlags_advance_frame s _⟩

end Sys2Proof.Proofs
end

section
/-! Proof of the statement about nop (spec/42_control.md R233). -/
namespace Sys2Proof.Proofs

open Sys2Proof Sys2Proof.Machine

theorem exec_nop (s : State) : exec .nop s = .next s.advance := rfl

/-- Settles O39: `nop` is the shared step to the next instruction, whose frame leaves everything but the pc. -/
theorem nopOnlyAdvances : Obligations.NopOnlyAdvances := fun s =>
  advance_goes s .nop (exec_nop s)

end Sys2Proof.Proofs
end

section
/-! Proofs of the statements about the encoding (spec/30_encoding.md). -/
namespace Sys2Proof.Proofs

open Sys2Proof Sys2Proof.Machine

/-! ### The decoder on an assembled word, format by format -/

section
variable (op : BitVec 6) (a b c : BitVec 5)

theorem decodeR3_encodeR3 (mk : Reg → Reg → Reg → Instr) : decodeR3 (encodeR3 op a b c) mk = .ok (mk a b c) := by
  simp [decodeR3, decodeIfZero, imm11Field_encodeR3, aField_encodeR3, bField_encodeR3, cField_encodeR3]

theorem decodeR2_encodeR2 (mk : Reg → Reg → Instr) : decodeR2 (encodeR2 op a b) mk = .ok (mk a b) := by
  simp [decodeR2, decodeIfZero, imm16Field_encodeR2, aField_encodeR2, bField_encodeR2]

theorem decodeR1_encodeR1 (mk : Reg → Instr) : decodeR1 (encodeR1 op a) mk = .ok (mk a) := by
  simp [decodeR1, decodeIfZero, imm21Field_encodeR1, aField_encodeR1]

theorem decodeN_encodeN (i : Instr) : decodeN (encodeN op) i = .ok i := by
  simp [decodeN, decodeIfZero, imm26Field_encodeN]

theorem decodeI16_encodeI16 (mk : Reg → Reg → Word → Instr) {v : Word} (hv : fitsSigned 16 v = true) :
    decodeI16 (encodeI16 op a b (v.setWidth 16)) mk = .ok (mk a b v) := by
  simp [decodeI16, imm16Field_encodeI16, aField_encodeI16, bField_encodeI16, sext_setWidth hv]

theorem decodeI21_encodeI21 (mk : Reg → Word → Instr) {v : Word} (hv : fitsSigned 21 v = true) :
    decodeI21 (encodeI21 op a (v.setWidth 21)) mk = .ok (mk a v) := by
  simp [decodeI21, imm21Field_encodeI21, aField_encodeI21, sext_setWidth hv]

theorem decodeF_encodeF (mk : Reg → Reg → Reg → Word → Instr) {v : Word} (hv : fitsSigned 11 v = true) :
    decodeF (encodeF op a b c (v.setWidth 11)) mk = .ok (mk a b c v) := by
  simp [decodeF, imm11Field_encodeF, aField_encodeF, bField_encodeF, cField_encodeF, sext_setWidth hv]

theorem decodeJ_encodeJ (mk : Word → Instr) {v : Word} (hv : fitsSigned 26 v = true) :
    decodeJ (encodeJ op (v.setWidth 26)) mk = .ok (mk v) := by
  simp [decodeJ, imm26Field_encodeJ, sext_setWidth hv]

theorem decodeJmp_encodeJ {v : Word} (hv : fitsUnsigned 26 v = true) :
    decodeJmp (encodeJ op (v.setWidth 26)) = .ok (.jmp v) := by
  simp [decodeJmp, imm26Field_encodeJ, zext_setWidth hv]

end

theorem decodeSYS_encodeSys (mk : BitVec 8 → Instr) (v : BitVec 8) : decodeSYS (encodeSys v) mk = .ok (mk v) := by
  simp [decodeSYS, decodeIfZero, sysZeroField_encodeSys, imm8Field_encodeSys]

theorem decodeMode_encodeMode (k : BitVec 1) :
    decodeMode (encodeMode k) = .ok (if k = 0#1 then .modeHalt else .modeSleep) := by
  simp [decodeMode, decodeIfZero, modeZeroField_encodeMode, modeKField_encodeMode]

/-- The variant field picks the form of movi (R114). -/
theorem decodeMovi_encodeMovi (v : BitVec 2) (a : Reg) (x : BitVec 16) :
    decodeMovi (encodeMovi v a x) =
      if v = 0#2 then .ok (.movi a (sext x))
      else if v = 1#2 then .ok (.moviU a (zext x))
      else if v = 2#2 then .ok (.moviH a x)
      else .error .moviVariant := by
  simp [decodeMovi, moviZeroField_encodeMovi, moviVariantField_encodeMovi, aField_encodeMovi, imm16Field_encodeMovi]

theorem checkCr_of_ok {k : CrIndex} {d : Decoded} {i : Instr} (hd : d = .ok i) (hk : crIndexOk k = true) :
    checkCr k d = .ok i := by
  subst hd; exact if_pos hk

/-- The opcode of an encoded instruction picks its format's arm of the decoder, which reads back the operands. -/
theorem decode_encode (i : Instr) (hw : i.wellFormed = true) : decode (encode i) = .ok i := by
  cases i with
  | add a b c | sub a b c | and a b c | or a b c | xor a b c | lsl a b c | lsr a b c | rotr a b c =>
    rw [encode, decode, opField_encodeR3]; exact decodeR3_encodeR3 ..
  | cmp a b | mov a b | ipi a b | tlbw a b | tlbr a b =>
    rw [encode, decode, opField_encodeR2]; exact decodeR2_encodeR2 ..
  | crmvW k r =>
    rw [encode, decode, opField_encodeR2, aField_encodeR2]; exact checkCr_of_ok (decodeR2_encodeR2 ..) hw
  | crmvR r k =>
    rw [encode, decode, opField_encodeR2, bField_encodeR2]; exact checkCr_of_ok (decodeR2_encodeR2 ..) hw
  | movi a v =>
    rw [encode, decode, opField_encodeMovi, decodeMovi_encodeMovi, sext_setWidth hw]; rfl
  | moviU a v =>
    rw [encode, decode, opField_encodeMovi, decodeMovi_encodeMovi, zext_setWidth hw]; rfl
  | moviH a x => rw [encode, decode, opField_encodeMovi]; exact decodeMovi_encodeMovi ..
  | adpc a v | lw a v | sw a v => rw [encode, decode, opField_encodeI21]; exact decodeI21_encodeI21 _ _ _ hw
  | lwa a b v | swa a b v | lda a b v | sda a b v | lba a b v | sba a b v =>
    rw [encode, decode, opField_encodeI16]; exact decodeI16_encodeI16 _ _ _ _ hw
  | fada a b c v => rw [encode, decode, opField_encodeF]; exact decodeF_encodeF _ _ _ _ _ hw
  | push a | pop a => rw [encode, decode, opField_encodeR1]; exact decodeR1_encodeR1 ..
  | br v | bz v | bnz v | bs v | bns v | bc v | bnc v | bo v | bno v | bl v | bge v | ble v | bb v | bae v | bbe v
  | call v => rw [encode, decode, opField_encodeJ]; exact decodeJ_encodeJ _ _ hw
  | jmp v => rw [encode, decode, opField_encodeJ]; exact decodeJmp_encodeJ _ hw
  | ret | nop | rfe | rfi | rft | tlbc => rw [encode, decode, opField_encodeN]; exact decodeN_encodeN ..
  | sys v => rw [encode, decode, opField_encodeSys]; exact decodeSYS_encodeSys ..
  | modeHalt | modeSleep => rw [encode, decode, opField_encodeMode]; exact decodeMode_encodeMode ..

/-- Settles O1: `encode` and `decode` agree format by format. -/
theorem decodeEncodeRoundTrip : Obligations.DecodeEncodeRoundTrip := decode_encode

/-! ### What a decoded word is, format by format -/

/-- What a decoded instruction says of its word: it is well formed, it is encoded as the word, and its operands are the word's
fields. -/
structure Faithful (w : Word) (i : Instr) : Prop where
  wellFormed : i.wellFormed = true
  encoded : encode i = w
  operands : OperandsAre w i

section
variable {w : Word} {i : Instr} {op : BitVec 6} (hop : opField w = op)
include hop

theorem decodeR3_faithful {mk : Reg → Reg → Reg → Instr} (h : decodeR3 w mk = .ok i)
    (hw : ∀ a b c, (mk a b c).wellFormed = true) (he : ∀ a b c, encode (mk a b c) = encodeR3 op a b c)
    (ho : OperandsAre w (mk (aField w) (bField w) (cField w))) : Faithful w i := by
  obtain ⟨hz, rfl⟩ := decodeIfZero_ok h
  exact ⟨hw _ _ _, (he _ _ _).trans (hop ▸ encodeR3_fields w hz), ho⟩

theorem decodeR2_faithful {mk : Reg → Reg → Instr} (h : decodeR2 w mk = .ok i)
    (hw : (mk (aField w) (bField w)).wellFormed = true) (he : ∀ a b, encode (mk a b) = encodeR2 op a b)
    (ho : OperandsAre w (mk (aField w) (bField w))) : Faithful w i := by
  obtain ⟨hz, rfl⟩ := decodeIfZero_ok h
  exact ⟨hw, (he _ _).trans (hop ▸ encodeR2_fields w hz), ho⟩

theorem decodeR1_faithful {mk : Reg → Instr} (h : decodeR1 w mk = .ok i) (hw : ∀ a, (mk a).wellFormed = true)
    (he : ∀ a, encode (mk a) = encodeR1 op a) (ho : OperandsAre w (mk (aField w))) : Faithful w i := by
  obtain ⟨hz, rfl⟩ := decodeIfZero_ok h
  exact ⟨hw _, (he _).trans (hop ▸ encodeR1_fields w hz), ho⟩

theorem decodeN_faithful {j : Instr} (h : decodeN w j = .ok i) (hw : j.wellFormed = true)
    (he : encode j = encodeN op) (ho : OperandsAre w j) : Faithful w i := by
  obtain ⟨hz, rfl⟩ := decodeIfZero_ok h
  exact ⟨hw, he.trans (hop ▸ encodeN_fields w hz), ho⟩

theorem decodeI16_faithful {mk : Reg → Reg → Word → Instr} (h : decodeI16 w mk = .ok i)
    (hw : ∀ a b v, (mk a b v).wellFormed = fitsSigned 16 v)
    (he : ∀ a b v, encode (mk a b v) = encodeI16 op a b (v.setWidth 16))
    (ho : OperandsAre w (mk (aField w) (bField w) (sext (imm16Field w)))) : Faithful w i := by
  injection h with h; subst h
  refine ⟨(hw _ _ _).trans (fitsSigned_sext (by omega) _), ?_, ho⟩
  rw [he, setWidth_sext (by omega), ← hop]; exact encodeI16_fields w

theorem decodeI21_faithful {mk : Reg → Word → Instr} (h : decodeI21 w mk = .ok i)
    (hw : ∀ a v, (mk a v).wellFormed = fitsSigned 21 v)
    (he : ∀ a v, encode (mk a v) = encodeI21 op a (v.setWidth 21))
    (ho : OperandsAre w (mk (aField w) (sext (imm21Field w)))) : Faithful w i := by
  injection h with h; subst h
  refine ⟨(hw _ _).trans (fitsSigned_sext (by omega) _), ?_, ho⟩
  rw [he, setWidth_sext (by omega), ← hop]; exact encodeI21_fields w

theorem decodeJ_faithful {mk : Word → Instr} (h : decodeJ w mk = .ok i)
    (hw : ∀ v, (mk v).wellFormed = fitsSigned 26 v) (he : ∀ v, encode (mk v) = encodeJ op (v.setWidth 26))
    (ho : OperandsAre w (mk (sext (imm26Field w)))) : Faithful w i := by
  injection h with h; subst h
  refine ⟨(hw _).trans (fitsSigned_sext (by omega) _), ?_, ho⟩
  rw [he, setWidth_sext (by omega), ← hop]; exact encodeJ_fields w

end

section
variable {w : Word} {i : Instr}

theorem decodeF_faithful (hop : opField w = 0x18#6) (h : decodeF w .fada = .ok i) : Faithful w i := by
  injection h with h; subst h
  refine ⟨fitsSigned_sext (by omega) _, ?_, rfl, rfl, rfl, rfl⟩
  rw [encode, setWidth_sext (by omega), ← hop]; exact encodeF_fields w

theorem decodeJmp_faithful (hop : opField w = 0x30#6) (h : decodeJmp w = .ok i) : Faithful w i := by
  injection h with h; subst h
  refine ⟨fitsUnsigned_zext (by omega) _, ?_, rfl⟩
  rw [encode, setWidth_zext (by omega), ← hop]; exact encodeJ_fields w

theorem decodeSYS_faithful (hop : opField w = 0x38#6) (h : decodeSYS w .sys = .ok i) : Faithful w i := by
  obtain ⟨hz, rfl⟩ := decodeIfZero_ok h
  exact ⟨rfl, encodeSys_fields w hop hz, rfl⟩

theorem decodeMode_faithful (hop : opField w = 0x3F#6) (h : decodeMode w = .ok i) : Faithful w i := by
  obtain ⟨hz, rfl⟩ := decodeIfZero_ok h
  have he := encodeMode_fields w hop hz
  split
  · next hk => exact ⟨rfl, (congrArg encodeMode hk.symm).trans he, trivial⟩
  · next hk =>
    have hk1 : modeKField w = 1#1 := (BitVec.eq_zero_or_eq_one _).resolve_left hk
    exact ⟨rfl, (congrArg encodeMode hk1.symm).trans he, trivial⟩

theorem decodeMovi_faithful (hop : opField w = 0x0B#6) (h : decodeMovi w = .ok i) : Faithful w i := by
  obtain ⟨hz, ⟨hv, rfl⟩ | ⟨hv, rfl⟩ | ⟨hv, rfl⟩⟩ := decodeMovi_ok h <;> have he := encodeMovi_fields w hop hz <;>
    rw [hv] at he
  · exact ⟨fitsSigned_sext (by omega) _, by rw [encode, setWidth_sext (by omega), he], rfl, rfl⟩
  · exact ⟨fitsUnsigned_zext (by omega) _, by rw [encode, setWidth_zext (by omega), he], rfl, rfl⟩
  · exact ⟨rfl, he, rfl, rfl⟩

/-- Every arm of the decoder is faithful to its word. -/
theorem decode_faithful (h : decode w = .ok i) : Faithful w i := by
  unfold decode at h
  split at h
  case h_1 hop | h_2 hop | h_3 hop | h_4 hop | h_5 hop | h_6 hop | h_7 hop | h_8 hop =>
    exact decodeR3_faithful hop h (fun _ _ _ => rfl) (fun _ _ _ => rfl) ⟨rfl, rfl, rfl⟩
  case h_9 hop | h_10 hop | h_45 hop | h_50 hop | h_51 hop =>
    exact decodeR2_faithful hop h rfl (fun _ _ => rfl) ⟨rfl, rfl⟩
  case h_13 hop | h_14 hop =>
    obtain ⟨h, hk⟩ := checkCr_ok h
    exact decodeR2_faithful hop h hk (fun _ _ => rfl) ⟨rfl, rfl⟩
  case h_11 hop => exact decodeMovi_faithful hop h
  case h_12 hop | h_15 hop | h_16 hop =>
    exact decodeI21_faithful hop h (fun _ _ => rfl) (fun _ _ => rfl) ⟨rfl, rfl⟩
  case h_17 hop | h_18 hop | h_19 hop | h_20 hop | h_21 hop | h_22 hop =>
    exact decodeI16_faithful hop h (fun _ _ _ => rfl) (fun _ _ _ => rfl) ⟨rfl, rfl, rfl⟩
  case h_23 hop => exact decodeF_faithful hop h
  case h_24 hop | h_25 hop => exact decodeR1_faithful hop h (fun _ => rfl) (fun _ => rfl) rfl
  case h_41 hop => exact decodeJmp_faithful hop h
  case h_43 hop | h_44 hop | h_47 hop | h_48 hop | h_49 hop | h_52 hop => exact decodeN_faithful hop h rfl rfl trivial
  case h_46 hop => exact decodeSYS_faithful hop h
  case h_53 hop => exact decodeMode_faithful hop h
  case h_54 => cases h
  all_goals exact decodeJ_faithful ‹_› h (fun _ => rfl) (fun _ => rfl) rfl

end

/-- Settles O2: the arm that decoded the word is faithful to it. -/
theorem decodedWordIsItsEncoding : Obligations.DecodedWordIsItsEncoding := fun _ _ h =>
  have hf := decode_faithful h
  ⟨hf.wellFormed, hf.encoded⟩

end Sys2Proof.Proofs
end

section
/-! Proofs of the statements about the opcode table (spec/30_encoding.md R115) and the spec's sample words. -/
namespace Sys2Proof.Proofs

open Sys2Proof Sys2Proof.Machine

/-! ### A row of the table and the word it covers -/

/-- A field that a mask keeps whole is the pattern's in every word the row covers. -/
theorem field_of_covered {w m p : Word} (h : w &&& m = p) (s n : Nat) (hm : m.extractLsb' s n = BitVec.allOnes n) :
    w.extractLsb' s n = p.extractLsb' s n := by
  rw [← h, BitVec.extractLsb'_and, hm, BitVec.and_allOnes]

/-- The one decode condition that a match and mask pair cannot express (R115), of a word under a mnemonic. -/
def CrConditions (mnemonic : String) (w : Word) : Prop :=
  (mnemonic = "crmv.w" → (w.extractLsb' 21 5).toNat ≤ 13) ∧ (mnemonic = "crmv.r" → (w.extractLsb' 16 5).toNat ≤ 13)

/-- Every word a row covers decodes to an instruction of its mnemonic exactly where its cr-index is accepted. -/
def RowDecodes (row : OpcodeRow) : Prop :=
  ∀ w : Word, w &&& row.mask = row.pattern →
    ∃ i : Instr, i.mnemonic = row.mnemonic ∧ (CrConditions row.mnemonic w → decode w = .ok i) ∧
      ∀ j, decode w = .ok j → j = i

/-- A row whose words all decode, without a condition on a cr-index. -/
theorem rowDecodes_of_ok {name : String} {p m : Word}
    (h : ∀ w : Word, w &&& m = p → ∃ i : Instr, i.mnemonic = name ∧ decode w = .ok i) : RowDecodes ⟨name, p, m⟩ := by
  intro w hc
  obtain ⟨i, hm, hd⟩ := h w hc
  exact ⟨i, hm, fun _ => hd, fun j hj => by rw [hd] at hj; injection hj with hj; exact hj.symm⟩

theorem decodeIfZero_zero {n : Nat} {z : BitVec n} (hz : z = 0#n) (i : Instr) : decodeIfZero z i = .ok i := if_pos hz

section
variable {name : String} {p : Word} {op : BitVec 6} (hp : opField p = op)
include hp

theorem rowDecodes_R3 {mk : Reg → Reg → Reg → Instr} (hz : imm11Field p = 0#11) (hn : ∀ a b c, (mk a b c).mnemonic = name)
    (hd : ∀ w, opField w = op → decode w = decodeR3 w mk) : RowDecodes ⟨name, p, 0xFC0007FF⟩ :=
  rowDecodes_of_ok fun w hc => ⟨_, hn _ _ _,
    (hd w ((field_of_covered hc 26 6 (by decide)).trans hp)).trans
      (decodeIfZero_zero ((field_of_covered hc 0 11 (by decide)).trans hz) _)⟩

theorem rowDecodes_R2 {mk : Reg → Reg → Instr} (hz : imm16Field p = 0#16) (hn : ∀ a b, (mk a b).mnemonic = name)
    (hd : ∀ w, opField w = op → decode w = decodeR2 w mk) : RowDecodes ⟨name, p, 0xFC00FFFF⟩ :=
  rowDecodes_of_ok fun w hc => ⟨_, hn _ _,
    (hd w ((field_of_covered hc 26 6 (by decide)).trans hp)).trans
      (decodeIfZero_zero ((field_of_covered hc 0 16 (by decide)).trans hz) _)⟩

/-- A crmv's row: the cr-index field decides (R115, R116 item 4). -/
theorem rowDecodes_crmv {mk : Reg → Reg → Instr} {k : Word → CrIndex} (hz : imm16Field p = 0#16)
    (hn : ∀ a b, (mk a b).mnemonic = name) (hk : ∀ w, CrConditions name w → crIndexOk (k w) = true)
    (hd : ∀ w, opField w = op → decode w = checkCr (k w) (decodeR2 w mk)) : RowDecodes ⟨name, p, 0xFC00FFFF⟩ := by
  intro w (hc : w &&& 0xFC00FFFF#32 = p)
  have hw := hd w ((field_of_covered hc 26 6 (by decide)).trans hp)
  have hr : decodeR2 w mk = .ok (mk (aField w) (bField w)) :=
    decodeIfZero_zero ((field_of_covered hc 0 16 (by decide)).trans hz) _
  refine ⟨_, hn _ _, fun hcr => hw.trans (checkCr_of_ok hr (hk w hcr)), fun j hj => ?_⟩
  obtain ⟨hj, _⟩ := checkCr_ok (hw.symm.trans hj)
  rw [hr] at hj; injection hj with hj; exact hj.symm

theorem rowDecodes_R1 {mk : Reg → Instr} (hz : imm21Field p = 0#21) (hn : ∀ a, (mk a).mnemonic = name)
    (hd : ∀ w, opField w = op → decode w = decodeR1 w mk) : RowDecodes ⟨name, p, 0xFC1FFFFF⟩ :=
  rowDecodes_of_ok fun w hc => ⟨_, hn _,
    (hd w ((field_of_covered hc 26 6 (by decide)).trans hp)).trans
      (decodeIfZero_zero ((field_of_covered hc 0 21 (by decide)).trans hz) _)⟩

theorem rowDecodes_N {i : Instr} (hz : imm26Field p = 0#26) (hn : i.mnemonic = name)
    (hd : ∀ w, opField w = op → decode w = decodeN w i) : RowDecodes ⟨name, p, 0xFFFFFFFF⟩ :=
  rowDecodes_of_ok fun w hc => ⟨_, hn,
    (hd w ((field_of_covered hc 26 6 (by decide)).trans hp)).trans
      (decodeIfZero_zero ((field_of_covered hc 0 26 (by decide)).trans hz) _)⟩

/-- A row of a format without must-be-zero bits: the opcode decides. -/
theorem rowDecodes_free {mk : Word → Instr} (hn : ∀ w, (mk w).mnemonic = name)
    (hd : ∀ w, opField w = op → decode w = .ok (mk w)) : RowDecodes ⟨name, p, 0xFC000000⟩ :=
  rowDecodes_of_ok fun w hc => ⟨_, hn _, hd w ((field_of_covered hc 26 6 (by decide)).trans hp)⟩

end

/-- A form of movi: the variant field decides (R114). -/
theorem rowDecodes_movi {name : String} {p : Word} {v : BitVec 2} {mk : Word → Instr} (hp : opField p = 0x0B#6)
    (hz : moviZeroField p = 0#3) (hv : moviVariantField p = v) (hn : ∀ w, (mk w).mnemonic = name)
    (hd : ∀ w, moviZeroField w = 0#3 → moviVariantField w = v → decodeMovi w = .ok (mk w)) :
    RowDecodes ⟨name, p, 0xFC1F0000⟩ :=
  rowDecodes_of_ok fun w hc => ⟨_, hn _, by
    have ho : opField w = 0x0B#6 := (field_of_covered hc 26 6 (by decide)).trans hp
    rw [decode, ho]
    exact hd w ((field_of_covered hc 18 3 (by decide)).trans hz) ((field_of_covered hc 16 2 (by decide)).trans hv)⟩

theorem rowDecodes_sys : RowDecodes ⟨"sys", 0xE0000000, 0xFFFFFF00⟩ :=
  rowDecodes_of_ok fun w hc => ⟨.sys (imm8Field w), rfl, by
    have ho : opField w = 0x38#6 := field_of_covered hc 26 6 (by decide)
    rw [decode, ho]
    exact decodeIfZero_zero (field_of_covered hc 8 18 (by decide)) _⟩

/-- The two forms of mode: bit 0 decides (R114). -/
theorem rowDecodes_mode {name : String} {p : Word} {k : BitVec 1} (hp : opField p = 0x3F#6) (hz : modeZeroField p = 0#25)
    (hk : modeKField p = k) (hn : (if k = 0#1 then Instr.modeHalt else .modeSleep).mnemonic = name) :
    RowDecodes ⟨name, p, 0xFFFFFFFF⟩ :=
  rowDecodes_of_ok fun w hc => ⟨_, hn, by
    have ho : opField w = 0x3F#6 := (field_of_covered hc 26 6 (by decide)).trans hp
    have hkw : modeKField w = k := (field_of_covered hc 0 1 (by decide)).trans hk
    rw [decode, ho, ← hkw]
    exact decodeIfZero_zero ((field_of_covered hc 1 25 (by decide)).trans hz) _⟩

/-- Every row of the table is a format's row at its opcode. -/
theorem opcodeTable_decodes : ∀ row ∈ opcodeTable, RowDecodes row := by
  unfold opcodeTable
  simp only [List.forall_mem_append, List.forall_mem_cons, List.not_mem_nil, false_implies, implies_true, and_true]
  refine ⟨⟨⟨⟨?_, ?_, ?_, ?_, ?_, ?_, ?_, ?_, ?_, ?_, ?_, ?_, ?_, ?_⟩, ?_, ?_, ?_, ?_, ?_, ?_, ?_, ?_, ?_, ?_, ?_, ?_, ?_, ?_⟩,
    ?_, ?_, ?_, ?_, ?_, ?_, ?_, ?_, ?_, ?_, ?_, ?_, ?_, ?_⟩, ?_, ?_, ?_, ?_, ?_, ?_, ?_, ?_, ?_, ?_, ?_, ?_, ?_, ?_⟩
  · exact rowDecodes_R3 (op := 0x01#6) (mk := .add) rfl rfl (fun _ _ _ => rfl) fun w h => by rw [decode, h]; rfl
  · exact rowDecodes_R3 (op := 0x02#6) (mk := .sub) rfl rfl (fun _ _ _ => rfl) fun w h => by rw [decode, h]; rfl
  · exact rowDecodes_R3 (op := 0x03#6) (mk := .and) rfl rfl (fun _ _ _ => rfl) fun w h => by rw [decode, h]; rfl
  · exact rowDecodes_R3 (op := 0x04#6) (mk := .or) rfl rfl (fun _ _ _ => rfl) fun w h => by rw [decode, h]; rfl
  · exact rowDecodes_R3 (op := 0x05#6) (mk := .xor) rfl rfl (fun _ _ _ => rfl) fun w h => by rw [decode, h]; rfl
  · exact rowDecodes_R3 (op := 0x06#6) (mk := .lsl) rfl rfl (fun _ _ _ => rfl) fun w h => by rw [decode, h]; rfl
  · exact rowDecodes_R3 (op := 0x07#6) (mk := .lsr) rfl rfl (fun _ _ _ => rfl) fun w h => by rw [decode, h]; rfl
  · exact rowDecodes_R3 (op := 0x08#6) (mk := .rotr) rfl rfl (fun _ _ _ => rfl) fun w h => by rw [decode, h]; rfl
  · exact rowDecodes_R2 (op := 0x09#6) (mk := .cmp) rfl rfl (fun _ _ => rfl) fun w h => by rw [decode, h]; rfl
  · exact rowDecodes_R2 (op := 0x0A#6) (mk := .mov) rfl rfl (fun _ _ => rfl) fun w h => by rw [decode, h]; rfl
  · exact rowDecodes_movi rfl rfl rfl (fun _ => rfl) fun w hz hv => by simp [decodeMovi, hz, hv]; rfl
  · exact rowDecodes_movi rfl rfl rfl (fun _ => rfl) fun w hz hv => by simp [decodeMovi, hz, hv]; rfl
  · exact rowDecodes_movi rfl rfl rfl (fun _ => rfl) fun w hz hv => by simp [decodeMovi, hz, hv]; rfl
  · exact rowDecodes_free (op := 0x0C#6) rfl (fun _ => rfl) fun w h => by rw [decode, h]; rfl
  · exact rowDecodes_crmv (op := 0x0D#6) (mk := .crmvW) (k := aField) rfl rfl (fun _ _ => rfl)
      (fun w h => decide_eq_true (h.1 rfl)) fun w h => by rw [decode, h]; rfl
  · exact rowDecodes_crmv (op := 0x0E#6) (mk := .crmvR) (k := bField) rfl rfl (fun _ _ => rfl)
      (fun w h => decide_eq_true (h.2 rfl)) fun w h => by rw [decode, h]; rfl
  · exact rowDecodes_free (op := 0x10#6) rfl (fun _ => rfl) fun w h => by rw [decode, h]; rfl
  · exact rowDecodes_free (op := 0x11#6) rfl (fun _ => rfl) fun w h => by rw [decode, h]; rfl
  · exact rowDecodes_free (op := 0x12#6) rfl (fun _ => rfl) fun w h => by rw [decode, h]; rfl
  · exact rowDecodes_free (op := 0x13#6) rfl (fun _ => rfl) fun w h => by rw [decode, h]; rfl
  · exact rowDecodes_free (op := 0x14#6) rfl (fun _ => rfl) fun w h => by rw [decode, h]; rfl
  · exact rowDecodes_free (op := 0x15#6) rfl (fun _ => rfl) fun w h => by rw [decode, h]; rfl
  · exact rowDecodes_free (op := 0x16#6) rfl (fun _ => rfl) fun w h => by rw [decode, h]; rfl
  · exact rowDecodes_free (op := 0x17#6) rfl (fun _ => rfl) fun w h => by rw [decode, h]; rfl
  · exact rowDecodes_free (op := 0x18#6) rfl (fun _ => rfl) fun w h => by rw [decode, h]; rfl
  · exact rowDecodes_R1 (op := 0x19#6) (mk := .push) rfl rfl (fun _ => rfl) fun w h => by rw [decode, h]; rfl
  · exact rowDecodes_R1 (op := 0x1A#6) (mk := .pop) rfl rfl (fun _ => rfl) fun w h => by rw [decode, h]; rfl
  · exact rowDecodes_free (op := 0x20#6) rfl (fun _ => rfl) fun w h => by rw [decode, h]; rfl
  · exact rowDecodes_free (op := 0x21#6) rfl (fun _ => rfl) fun w h => by rw [decode, h]; rfl
  · exact rowDecodes_free (op := 0x22#6) rfl (fun _ => rfl) fun w h => by rw [decode, h]; rfl
  · exact rowDecodes_free (op := 0x23#6) rfl (fun _ => rfl) fun w h => by rw [decode, h]; rfl
  · exact rowDecodes_free (op := 0x24#6) rfl (fun _ => rfl) fun w h => by rw [decode, h]; rfl
  · exact rowDecodes_free (op := 0x25#6) rfl (fun _ => rfl) fun w h => by rw [decode, h]; rfl
  · exact rowDecodes_free (op := 0x26#6) rfl (fun _ => rfl) fun w h => by rw [decode, h]; rfl
  · exact rowDecodes_free (op := 0x27#6) rfl (fun _ => rfl) fun w h => by rw [decode, h]; rfl
  · exact rowDecodes_free (op := 0x28#6) rfl (fun _ => rfl) fun w h => by rw [decode, h]; rfl
  · exact rowDecodes_free (op := 0x29#6) rfl (fun _ => rfl) fun w h => by rw [decode, h]; rfl
  · exact rowDecodes_free (op := 0x2A#6) rfl (fun _ => rfl) fun w h => by rw [decode, h]; rfl
  · exact rowDecodes_free (op := 0x2B#6) rfl (fun _ => rfl) fun w h => by rw [decode, h]; rfl
  · exact rowDecodes_free (op := 0x2C#6) rfl (fun _ => rfl) fun w h => by rw [decode, h]; rfl
  · exact rowDecodes_free (op := 0x2D#6) rfl (fun _ => rfl) fun w h => by rw [decode, h]; rfl
  · exact rowDecodes_free (op := 0x2E#6) rfl (fun _ => rfl) fun w h => by rw [decode, h]; rfl
  · exact rowDecodes_free (op := 0x30#6) rfl (fun _ => rfl) fun w h => by rw [decode, h]; rfl
  · exact rowDecodes_free (op := 0x31#6) rfl (fun _ => rfl) fun w h => by rw [decode, h]; rfl
  · exact rowDecodes_N (op := 0x32#6) (i := .ret) rfl rfl rfl fun w h => by rw [decode, h]; rfl
  · exact rowDecodes_N (op := 0x33#6) (i := .nop) rfl rfl rfl fun w h => by rw [decode, h]; rfl
  · exact rowDecodes_R2 (op := 0x37#6) (mk := .ipi) rfl rfl (fun _ _ => rfl) fun w h => by rw [decode, h]; rfl
  · exact rowDecodes_sys
  · exact rowDecodes_N (op := 0x39#6) (i := .rfe) rfl rfl rfl fun w h => by rw [decode, h]; rfl
  · exact rowDecodes_N (op := 0x3A#6) (i := .rfi) rfl rfl rfl fun w h => by rw [decode, h]; rfl
  · exact rowDecodes_N (op := 0x3B#6) (i := .rft) rfl rfl rfl fun w h => by rw [decode, h]; rfl
  · exact rowDecodes_R2 (op := 0x3C#6) (mk := .tlbw) rfl rfl (fun _ _ => rfl) fun w h => by rw [decode, h]; rfl
  · exact rowDecodes_R2 (op := 0x3D#6) (mk := .tlbr) rfl rfl (fun _ _ => rfl) fun w h => by rw [decode, h]; rfl
  · exact rowDecodes_N (op := 0x3E#6) (i := .tlbc) rfl rfl rfl fun w h => by rw [decode, h]; rfl
  · exact rowDecodes_mode rfl rfl rfl rfl
  · exact rowDecodes_mode rfl rfl rfl rfl

open Laws in
/-- The row with an instruction's mnemonic covers its word (the family RowWord). -/
theorem rowWord : ∀ i : Instr, RowWord.Statement i
 | .add a b c => RowWord.add a b c | .sub a b c => RowWord.sub a b c | .and a b c => RowWord.and a b c
 | .or a b c => RowWord.or a b c | .xor a b c => RowWord.xor a b c | .lsl a b c => RowWord.lsl a b c
 | .lsr a b c => RowWord.lsr a b c | .rotr a b c => RowWord.rotr a b c | .cmp a b => RowWord.cmp a b
 | .mov a b => RowWord.mov a b | .movi a b => RowWord.movi a b | .moviU a b => RowWord.moviU a b
 | .moviH a b => RowWord.moviH a b | .adpc a b => RowWord.adpc a b | .crmvW a b => RowWord.crmvW a b
 | .crmvR a b => RowWord.crmvR a b | .lw a b => RowWord.lw a b | .sw a b => RowWord.sw a b
 | .lwa a b c => RowWord.lwa a b c | .swa a b c => RowWord.swa a b c | .lda a b c => RowWord.lda a b c
 | .sda a b c => RowWord.sda a b c | .lba a b c => RowWord.lba a b c | .sba a b c => RowWord.sba a b c
 | .fada a b c d => RowWord.fada a b c d | .push a => RowWord.push a | .pop a => RowWord.pop a
 | .br a => RowWord.br a | .bz a => RowWord.bz a | .bnz a => RowWord.bnz a | .bs a => RowWord.bs a
 | .bns a => RowWord.bns a | .bc a => RowWord.bc a | .bnc a => RowWord.bnc a | .bo a => RowWord.bo a
 | .bno a => RowWord.bno a | .bl a => RowWord.bl a | .bge a => RowWord.bge a | .ble a => RowWord.ble a
 | .bb a => RowWord.bb a | .bae a => RowWord.bae a | .bbe a => RowWord.bbe a | .jmp a => RowWord.jmp a
 | .call a => RowWord.call a | .ret => RowWord.ret | .nop => RowWord.nop | .ipi a b => RowWord.ipi a b
 | .sys a => RowWord.sys a | .rfe => RowWord.rfe | .rfi => RowWord.rfi | .rft => RowWord.rft
 | .tlbw a b => RowWord.tlbw a b | .tlbr a b => RowWord.tlbr a b | .tlbc => RowWord.tlbc
 | .modeHalt => RowWord.modeHalt | .modeSleep => RowWord.modeSleep

/-- A well-formed crmv's cr-index is accepted in its own word. -/
theorem crConditions_of_faithful {w : Word} {i : Instr} (h : Faithful w i) : CrConditions i.mnemonic w := by
  obtain ⟨hw, _, ho⟩ := h
  cases i with
  | crmvW k r => exact ⟨fun _ => ho.1 ▸ of_decide_eq_true hw, by simp [Instr.mnemonic]⟩
  | crmvR r k => exact ⟨by simp [Instr.mnemonic], fun _ => ho.2 ▸ of_decide_eq_true hw⟩
  | _ => exact ⟨by simp [Instr.mnemonic], by simp [Instr.mnemonic]⟩

/-- A word decodes exactly where a row covers it and accepts its cr-index (R115). -/
theorem decodes_iff_covered (w : Word) :
    (∃ i, decode w = .ok i) ↔ ∃ row ∈ opcodeTable, w &&& row.mask = row.pattern ∧ CrConditions row.mnemonic w := by
  constructor
  · rintro ⟨i, h⟩
    have hf := decode_faithful h
    obtain ⟨row, hrow, hm, hc⟩ := rowWord i
    exact ⟨row, hrow, hf.encoded ▸ hc, hm ▸ crConditions_of_faithful hf⟩
  · rintro ⟨row, hrow, hc, hcr⟩
    obtain ⟨i, _, hd, _⟩ := opcodeTable_decodes row hrow w hc
    exact ⟨i, hd hcr⟩

/-- Settles O3: the rows cover what decodes, each word at one instruction, whose operands are faithful to it. -/
theorem decodeFollowsOpcodeTable : Obligations.DecodeFollowsOpcodeTable := fun w => by
  refine ⟨decodes_iff_covered w, fun i h => ⟨fun row hrow hc => ?_, (decode_faithful h).operands⟩⟩
  obtain ⟨j, hm, _, hj⟩ := opcodeTable_decodes row hrow w hc
  exact (hj i h ▸ hm).symm

/-- Settles O4: each word is decoded by evaluating `decode`. -/
theorem sampleWordsDecode : Obligations.SampleWordsDecode :=
  ⟨rfl, rfl, rfl, rfl, rfl, rfl, rfl, rfl, rfl, rfl, rfl⟩

end Sys2Proof.Proofs
end

section
/-! Proofs of the statements about the invariant (spec/70_reset_and_hazards.md). -/
namespace Sys2Proof.Proofs

open Sys2Proof Sys2Proof.Machine

/-! ### The parts of a step keep the invariant -/

/-- The host's input reaches queues only. -/
theorem inv_beginVisit {s : State} (h : s.Inv) : (beginVisit s).Inv := by
  refine inv_bus h (beginVisit_cores s) ?_ ?_ ?_
  · rw [beginVisit_mem]; exact h.1
  · rw [beginVisit_slot]; exact h.2.1
  · rw [beginVisit_slot]; exact h.2.2.1

theorem inv_dmaStep {s : State} (h : s.Inv) : (dmaStep s).Inv := by
  obtain ⟨hm, h0, h1, _⟩ := id h
  exact inv_bus h (by simp [State.cores]) (dmaStep_mem_wf s hm) (dmaStep_wellKept s h0 h1 .sd0) (dmaStep_wellKept s h0 h1 .sd1)

/-- isr bits show in no part of a core that the invariant is about. -/
theorem withLines_wellKept {c : CoreState} (h : c.wellKept) (bits : BitVec 16) : (withLines bits c).wellKept :=
  wellKept_congr h rfl rfl (unwritten_congr h.2.2 rfl rfl rfl rfl rfl rfl rfl rfl rfl rfl rfl)

theorem inv_endVisit {s : State} (h : s.Inv) : (endVisit s).Inv := by
  obtain ⟨bits, hc⟩ := endVisit_cores s
  have hcores := h.2.2.2.1
  refine inv_cores h (endVisit_mem s) (endVisit_slot s .sd0) (endVisit_slot s .sd1) ?_ ?_ <;> rw [hc]
  · intro c hc
    obtain ⟨d, hd, rfl⟩ := List.mem_map.mp hc
    exact withLines_wellKept (hcores d hd) bits
  · rw [List.map_map]; rfl

theorem inv_enterTrap {s t : State} (h : s.Inv) {v : BitVec 8} {e : Word} {m : Mode} (ht : enterTrap s v e m = .next t) :
    t.Inv := by
  rcases enterTrap_next ht with rfl | ⟨rfl, _⟩
  · exact inv_trapEntry h v e m
  · exact inv_stick h

theorem inv_runWord {L : Encoding} {w : Word} {s t : State} (h : s.Inv) (ht : runWord L w s = .next t) : t.Inv := by
  cases hL : L w with
  | error e => rw [runWord_error hL] at ht; exact inv_enterTrap h ht
  | ok i =>
    by_cases hr : Readable s i
    · rw [runWord_ok hL hr] at ht; exact exec_inv h ht
    · rw [runWord_unreadable hL hr] at ht; cases ht

/-- Every tick keeps the invariant, by what it does: an interrupt, nothing, a fetch miss or the fetched word. -/
theorem inv_coreTick {L : Encoding} {s t : State} (h : s.Inv) (ht : coreTick L s = .next t) : t.Inv := by
  rcases coreTick_cases L s with ⟨v, _, e⟩ | ⟨_, _, e⟩ | ⟨_, _, ⟨_, e⟩ | ⟨pa, _, e⟩⟩ <;> rw [e] at ht
  · cases ht; exact inv_trapEntry (inv_setRun h .running) _ _ _
  · cases ht; exact h
  · rw [raiseMiss_eq] at ht; exact inv_enterTrap (inv_setTlbAddr h _) ht
  · exact inv_runWord (inv_physRead h pa .word) ht

/-- Settles O59: each part of a step keeps the invariant. -/
theorem stepKeepsInvariant : Obligations.StepKeepsInvariant := by
  intro s t hs h
  have hb := inv_beginVisit hs
  rcases machineStep_cases (L := decode) h with ⟨_, rfl⟩ | ⟨_, _, rfl⟩ | ⟨_, _, u, hu, ⟨_, rfl⟩ | ⟨_, rfl⟩⟩
  · exact hs
  · exact inv_endVisit hb
  · exact inv_endVisit (inv_coreTick hb hu)
  · exact inv_endVisit (inv_dmaStep (inv_coreTick hb hu))

/-! ### The invariant at reset -/

/-- Every target of a core reads 0 at reset (R380). -/
theorem readTarget_reset (k : Nat) (x : RegTarget) : (CoreState.reset k).readTarget x = 0#32 := by
  cases x with
  | gpr j => simp [CoreState.readTarget, CoreState.reset]
  | zero | usp | ksp | isp => rfl

/-- Every control register but cid reads 0 at reset (R380). -/
theorem readCr_reset (k : Nat) (q : CReg) (hq : q ≠ .cid) : (CoreState.reset k).readCr q = 0#32 := by
  cases q with
  | cid => exact absurd rfl hq
  | _ => rfl

theorem reset_wellKept (k : Nat) : (CoreState.reset k).wellKept :=
  ⟨(by decide : 0x400#32 &&& 3#32 = 0#32), BitVec.zero_and, fun x _ => readTarget_reset k x,
    fun q hq => readCr_reset k q (by rintro rfl; cases hq)⟩

/-- The cores of a reset state, in order, are each core right after reset. -/
theorem initial_cores (p : Params) (n : Nat) (m : Memory) (i0 i1 : SdImage) (l : List (List HostInput)) :
    (State.initial p n m i0 i1 l).cores = (List.range (n + 1)).map CoreState.reset := by
  simp [State.cores, State.initial, List.range_succ_eq_map, List.map_map, Function.comp_def]

theorem reset_slot_wellKept {i : SdImage} (h : Memory.wf i.bytes = true) : (SdSlot.reset i).wellKept :=
  ⟨h, by simp [SdSlot.reset], by simp [SdSlot.reset], by simp [SdSlot.reset], by simp [SdSlot.reset]⟩

/-- A reset state on images in canonical form has the invariant. -/
theorem inv_initial (p : Params) (n : Nat) {m : Memory} {i0 i1 : SdImage} (l : List (List HostInput))
    (hm : Memory.wf m = true) (h0 : Memory.wf i0.bytes = true) (h1 : Memory.wf i1.bytes = true) :
    (State.initial p n m i0 i1 l).Inv := by
  refine ⟨hm, reset_slot_wellKept h0, reset_slot_wellKept h1, ?_, ?_⟩
  · rw [initial_cores]
    intro c hc
    obtain ⟨k, _, rfl⟩ := List.mem_map.mp hc
    exact reset_wellKept k
  · rw [State.cidsNumbered, nCores_eq, initial_cores, List.map_map, List.length_map, List.length_range]; rfl

/-- Settles O60: a boot is a reset state on loaded images, which are in canonical form. -/
theorem resetHasInvariant : Obligations.ResetHasInvariant := by
  refine ⟨inv_initial _ _ _ rfl rfl rfl, fun p n image raw0 raw1 sched s h => ?_⟩
  obtain ⟨_, rfl⟩ := boot_some h
  exact inv_initial _ _ _ (bootMemory_wf image) (SdImage.load_wf raw0) (SdImage.load_wf raw1)

end Sys2Proof.Proofs
end

section
/-! Proofs of the statements about the tick and the scheduler (spec/60_exceptions.md). -/
namespace Sys2Proof.Proofs

open Sys2Proof Sys2Proof.Machine

/-! ### The fetch of a running core -/

@[simp] theorem beginVisit_nCores (s : State) : (beginVisit s).nCores = s.nCores := by simp [State.nCores]

@[simp] theorem physRead_nCores (s : State) (pa : Word) (w : Width) : (physRead s pa w).2.nCores = s.nCores := by
  simp [State.nCores]

/-- Whether a trap can be entered depends on the parameters and the current core. -/
theorem trapsEnter_congr {s t : State} (hp : t.params = s.params) (hc : t.core = s.core) : TrapsEnter t ↔ TrapsEnter s := by
  unfold TrapsEnter; rw [hp, hc]

section
variable {s : State} (hrun : s.core.run = .running) (hstuck : s.core.stuck = false) (hnone : deliverable s.core = none)
include hrun hstuck hnone

/-- The step of a running core to which no interrupt is delivered is its fetch, and what follows. -/
theorem machineStep_fetches (L : Encoding) : machineStep L s = afterTick (fetchAndRun L (beginVisit s)) := by
  rw [machineStep_ticks L (by simp [hrun]) hstuck, coreTick, beginVisit_core, hnone]
  simp [hrun]

/-- A fetch that translates hands the word read to the decoder. -/
theorem machineStep_runs (L : Encoding) {pa : Word} (hpa : translateVa s.core s.core.pc .fetch = some pa) :
    machineStep L s =
      afterTick (runWord L (physRead (beginVisit s) pa .word).1 (physRead (beginVisit s) pa .word).2) := by
  rw [machineStep_fetches hrun hstuck hnone, fetchAndRun, beginVisit_core, hpa]

/-- A fetch that does not translate is a miss at the pc. -/
theorem machineStep_misses (L : Encoding) (hpa : translateVa s.core s.core.pc .fetch = none) :
    machineStep L s = afterTick (raiseMiss (beginVisit s) s.core.pc) := by
  rw [machineStep_fetches hrun hstuck hnone, fetchAndRun, beginVisit_core, hpa]

end

/-- The fetch changes nothing that says which registers an instruction reads. -/
theorem readable_fetched (s : State) (pa : Word) (i : Instr) :
    Readable (physRead (beginVisit s) pa .word).2 i ↔ Readable s i :=
  readable_congr (by simp) (by simp) (by simp) i

theorem decodeBytes_word {b0 b1 b2 b3 : Byte} {i : Instr} (h : decodeBytes [b0, b1, b2, b3] = .ok (i, [])) :
    decode (wordOfBytes b0 b1 b2 b3) = .ok i := by
  cases hd : decode (wordOfBytes b0 b1 b2 b3) with
  | ok j => simpa [decodeBytes, hd] using h
  | error e => simp [decodeBytes, hd] at h

/-- A read in storage answers its bytes and changes nothing (R79). -/
theorem physRead_storage {s : State} {pa : Word} {w : Width} (h : place s.params pa w = .storage) :
    physRead s pa w = (Memory.readLE s.mem pa.toNat w, s) := by
  unfold physRead; rw [h]

/-- Settles O5: a running core's step is its fetch; the word read runs or is the model fault, as `runWord` has it. -/
theorem stepRunsDecodedInstruction : Obligations.StepRunsDecodedInstruction := by
  refine ⟨fun s => rfl, fun L s i pa hrun hstuck hnone hpa =>
    ⟨fun hL => ⟨fun hr => ?_, fun hr => ?_⟩, fun hplace hbytes hr => ?_⟩⟩
  · rw [machineStep_runs hrun hstuck hnone L hpa, runWord_ok hL ((readable_fetched s pa i).mpr hr)]
  · rw [machineStep_runs hrun hstuck hnone L hpa, runWord_unreadable hL (mt (readable_fetched s pa i).mp hr)]; rfl
  · have hread : physRead (beginVisit s) pa .word = (Memory.readLE s.mem pa.toNat .word, beginVisit s) := by
      rw [physRead_storage (by simpa using hplace), beginVisit_mem]
    rw [step, machineStep_runs hrun hstuck hnone decode hpa,
      runWord_ok (i := i) (by rw [hread]; exact decodeBytes_word hbytes) ((readable_fetched s pa i).mpr hr), hread]

/-- Settles O6: the two faults of a fetch are `raise` at the state after the read and `raiseMiss` at the pc. -/
theorem faultingFetchTraps : Obligations.FaultingFetchTraps := by
  intro s hrun hstuck hnone
  have hb : TrapsEnter (beginVisit s) ↔ TrapsEnter s := trapsEnter_congr (by simp) (by simp)
  refine ⟨fun pa e hpa he => ?_, fun hpa => ?_⟩
  · have hr : TrapsEnter (physRead (beginVisit s) pa .word).2 ↔ TrapsEnter s := trapsEnter_congr (by simp) (by simp)
    rw [step, machineStep_runs hrun hstuck hnone decode hpa, runWord_error he, raise]
    refine ⟨fun ht => ?_, fun ht => ?_⟩
    · refine ⟨_, congrArg afterTick (enterTrap_enters (hr.mpr ht) _ _ _), ?_, trapEntry_frame _ _ _ _⟩
      rw [physRead_core, beginVisit_core]
      exact trapEntry_taken _ _ _ _
    · rw [enterTrap_sticks (mt hr.mp ht) _ _ (by simp)]; rfl
  · rw [step, machineStep_misses hrun hstuck hnone decode hpa]
    refine ⟨fun ht => ?_, fun ht => ?_⟩
    · refine ⟨_, congrArg afterTick (raiseMiss_enters (hb.mpr ht) _), ?_, rfl, miss_frame _ _ _ _ _⟩
      simpa [missVector] using missEntry_taken (beginVisit s) s.core.pc
    · rw [raiseMiss_sticks (mt hb.mp ht)]; rfl

/-! ### Interrupts -/

theorem lowestBit_eq_some {p : BitVec 16} {k : Fin 16} (hk : p.getLsbD k = true) (hlow : ∀ j < k, p.getLsbD j = false) :
    lowestBit p = some k := by
  unfold lowestBit
  rw [List.find?_eq_some_iff_getElem]
  refine ⟨hk, k, by simp, by simp, fun j hj => ?_⟩
  simpa using hlow ⟨j, by omega⟩ hj

theorem lowestBit_eq_none {p : BitVec 16} (h : ∀ k : Fin 16, p.getLsbD k = false) : lowestBit p = none := by
  unfold lowestBit
  rw [List.find?_eq_none]
  simpa using h

/-- The enabled pending sources, bit by bit (R301). -/
theorem pendingEnabled_bit (c : CoreState) (k : Nat) (hk : k < 16) :
    (pendingEnabled c).getLsbD k = true ↔ c.isr.getLsbD k = true ∧ c.imr.getLsbD k = true := by
  simp [pendingEnabled, hk]

/-- Settles O7: the lowest enabled pending bit is what `deliverable` answers, and its tick is the entry of that interrupt. -/
theorem lowestPendingInterruptPreempts : Obligations.LowestPendingInterruptPreempts := by
  intro s
  refine ⟨fun k hk hisr himr hlow hon hmode hrun hstuck => ?_, fun h => ?_⟩
  · have hbit : lowestBit (pendingEnabled s.core) = some ⟨k, hk⟩ :=
      lowestBit_eq_some ((pendingEnabled_bit s.core k hk).mpr ⟨hisr, himr⟩) fun j hj =>
        Bool.eq_false_iff.mpr (mt (pendingEnabled_bit s.core j j.isLt).mp (hlow j hj))
    have hd : deliverable s.core = some (0xF0#8 + BitVec.ofNat 8 k) := by
      simp [deliverable, hon, hmode, hbit, interruptVector]
    refine ⟨trapEntry ((beginVisit s).setRun .running) (0xF0#8 + BitVec.ofNat 8 k) s.core.pc .interrupt, ?_, ?_, rfl,
      trapEntry_frame _ _ _ _⟩
    · rw [step, machineStep_ticks decode hrun hstuck, coreTick, beginVisit_core, hd]
      exact congrArg afterTick ((enterTrap_interrupt _ _ _).trans (by rw [beginVisit_core]))
    · obtain ⟨he, hf, hp, hm, hl, hpc⟩ :=
        trapEntry_taken ((beginVisit s).setRun .running) (0xF0#8 + BitVec.ofNat 8 k) s.core.pc .interrupt
      exact ⟨he, hf, hp, hm, hl, hpc.trans (by rw [State.setRun, ivtEntry_withCore])⟩
  · unfold deliverable
    rcases h with h | h | h
    · rw [if_pos h]
    · rw [if_pos h, ite_self]
    · rw [lowestBit_eq_none fun k => Bool.eq_false_iff.mpr (mt (pendingEnabled_bit s.core k k.isLt).mp (h k k.isLt))]
      simp

/-! ### Visits in which nothing runs -/

/-- When a run is over (R342, log 7). -/
theorem runOver_iff (s : State) : s.runOver = true ↔ s.done = [] ∧ ∀ c ∈ s.cores, c.run = .halted := by
  simp [State.runOver, State.atPassStart, State.allHalted]

/-- Settles O8: the visit of each kind of core that runs no instruction, and what follows a tick. -/
theorem visitsThatExecuteNothing : Obligations.VisitsThatExecuteNothing := by
  intro s
  refine ⟨runOver_iff s, fun h => ?_, fun hover h => ?_, fun hrun hstuck hnone => ?_, fun t hrun hstuck ht => ?_⟩
  · simp [step, machineStep, h]
  · rw [step, machineStep_visit decode hover, visit_inert decode (by simpa using h)]
  · rw [step, machineStep_ticks decode (by simp [hrun]) hstuck, coreTick, beginVisit_core, hnone]
    simp [hrun, hstuck, afterTick]
  · rw [step, machineStep_ticks decode hrun hstuck, ht, afterTick]
    exact ⟨fun h => by rw [if_pos h], fun h => by rw [if_neg (by simp [h])]⟩

end Sys2Proof.Proofs
end

section
/-! Proofs of the statements about what a step leaves of every core (spec/60_exceptions.md R340, spec/43_system.md R251). -/
namespace Sys2Proof.Proofs

open Sys2Proof Sys2Proof.Machine

/-! ### What reaches a core that is not ticking -/

/-- Only isr, mbi and mbi's mark may differ. -/
def Touched (c d : CoreState) : Prop :=
  d = { c with isr := d.isr, mbi := d.mbi, written := { c.written with mbi := d.written.mbi } }

theorem touched_refl (c : CoreState) : Touched c c := rfl

theorem touched_trans {c d e : CoreState} (h : Touched c d) (h' : Touched d e) : Touched c e := by
  unfold Touched at *; rw [h', h]

theorem touched_withLines (bits : BitVec 16) (c : CoreState) : Touched c (withLines bits c) := rfl

theorem touched_receiveIpi (payload : Word) (c : CoreState) : Touched c (receiveIpi payload c) := rfl

theorem touched_cid {c d : CoreState} (h : Touched c d) : d.cid = c.cid := by rw [h]

theorem touched_stuck {c d : CoreState} (h : Touched c d) : d.stuck = c.stuck := by rw [h]

theorem forall₂_modify {α : Type} {R : α → α → Prop} {f : α → α} (hr : ∀ x, R x x) (hf : ∀ x, R x (f x)) (l : List α)
    (n : Nat) : List.Forall₂ R l (l.modify n f) := by
  induction l generalizing n with
  | nil => cases n <;> exact .nil
  | cons x l ih =>
    cases n with
    | zero => exact .cons (hf x) (List.forall₂_same.mpr fun y _ => hr y)
    | succ n => exact .cons (hr x) (ih n)

theorem forall₂_trans {α : Type} {R : α → α → Prop} (hR : ∀ x y z, R x y → R y z → R x z) {l l' l'' : List α}
    (h : List.Forall₂ R l l') (h' : List.Forall₂ R l' l'') : List.Forall₂ R l l'' := by
  induction h generalizing l'' with
  | nil => exact h'
  | cons hxy _ ih => cases h' with | cons hyz h' => exact .cons (hR _ _ _ hxy hyz) (ih h')

theorem forall₂_getElem? {α β : Type} {R : α → β → Prop} {l : List α} {l' : List β} (h : List.Forall₂ R l l') {k : Nat} {x : α}
    (hk : l[k]? = some x) : ∃ y, l'[k]? = some y ∧ R x y := by
  induction h generalizing k with
  | nil => cases hk
  | cons hxy _ ih =>
    cases k with
    | zero => cases hk; exact ⟨_, rfl, hxy⟩
    | succ k => exact ih hk

/-! ### What a tick keeps -/

/-- What a tick leaves of the parameters, the other cores, its own core's cid and the lengths of the SD images. -/
structure TickKeeps (s u : State) : Prop where
  params : u.params = s.params
  done : List.Forall₂ Touched s.done u.done
  todo : List.Forall₂ Touched s.todo u.todo
  cid : u.core.cid = s.core.cid
  imageSize : ∀ i, (u.dev.slot i).image.size = (s.dev.slot i).image.size

/-- Nothing outside the core has changed but memory and, in the devices, no image. -/
theorem tickKeeps_of_same {s u : State} (hp : u.params = s.params) (hd : u.done = s.done) (ht : u.todo = s.todo)
    (hc : u.core.cid = s.core.cid) (hi : ∀ i, (u.dev.slot i).image = (s.dev.slot i).image) : TickKeeps s u where
  params := hp
  done := hd ▸ List.forall₂_same.mpr fun _ _ => touched_refl _
  todo := ht ▸ List.forall₂_same.mpr fun _ _ => touched_refl _
  cid := hc
  imageSize i := by rw [hi]

theorem tickKeeps_trans {s u t : State} (h : TickKeeps s u) (h' : TickKeeps u t) : TickKeeps s t where
  params := h'.params.trans h.params
  done := forall₂_trans (R := Touched) (fun _ _ _ => touched_trans) h.done h'.done
  todo := forall₂_trans (R := Touched) (fun _ _ _ => touched_trans) h.todo h'.todo
  cid := h'.cid.trans h.cid
  imageSize i := (h'.imageSize i).trans (h.imageSize i)

@[simp] theorem writeCr_cid (c : CoreState) (q : CReg) (v : Word) : (c.writeCr q v).cid = c.cid := by cases q <;> rfl

theorem tickKeeps_physRead (s : State) (pa : Word) (w : Width) : TickKeeps s (physRead s pa w).2 :=
  tickKeeps_of_same (by simp) (by simp) (by simp) (by simp) fun i => by rw [physRead_slot]

theorem tickKeeps_physWrite (s : State) (pa : Word) (w : Width) (v : Word) : TickKeeps s (physWrite s pa w v) :=
  tickKeeps_of_same (by simp) (by simp) (by simp) (by simp) (physWrite_image s pa w v)

/-- A change of the current core that leaves its cid. -/
theorem tickKeeps_core {s u : State} (hp : u.params = s.params) (hd : u.done = s.done) (ht : u.todo = s.todo)
    (hv : u.dev = s.dev) (hc : u.core.cid = s.core.cid) : TickKeeps s u :=
  tickKeeps_of_same hp hd ht hc fun i => by rw [hv]

theorem tickKeeps_receiveIpi (s : State) (n : Nat) (payload : Word) : TickKeeps s (s.modifyCore n (receiveIpi payload)) := by
  have hall := fun l n => forall₂_modify touched_refl (touched_receiveIpi payload) l n
  have hsame := fun l : List CoreState => List.forall₂_same.mpr fun c (_ : c ∈ l) => touched_refl c
  refine ⟨by simp, ?_, ?_, ?_, fun i => by simp⟩ <;> unfold State.modifyCore <;> split
  · exact hall _ _
  · split <;> exact hsame _
  · exact hsame _
  · split
    · exact hsame _
    · exact hall _ _
  · rfl
  · split <;> rfl

theorem exec_keeps {i : Instr} {s t : State} (h : exec i s = .next t) : TickKeeps s t := by
  cases exec_does h with
  | load _ pa w | pop _ pa | popPc _ pa =>
    exact tickKeeps_trans (tickKeeps_physRead s pa _) (tickKeeps_core rfl rfl rfl rfl (by simp))
  | store _ pa w v | push _ pa v | pushPc _ pa v =>
    exact tickKeeps_trans (tickKeeps_physWrite s pa _ v) (tickKeeps_core rfl rfl rfl rfl (by simp))
  | update _ pa v =>
    exact tickKeeps_trans (tickKeeps_physRead s pa _)
      (tickKeeps_trans (tickKeeps_physWrite _ pa _ v) (tickKeeps_core rfl rfl rfl rfl (by simp)))
  | ipi _ _ n v => exact tickKeeps_trans (tickKeeps_receiveIpi s n _) (tickKeeps_core rfl rfl rfl rfl (by simp))
  | _ => exact tickKeeps_core rfl rfl rfl rfl (by simp [missEntry])

/-- Everything a tick that answers a next state can have done: an interrupt, nothing, a fetch miss, an illegal word or an
instruction (R287). -/
inductive Ticks (s : State) : State → Prop
  | interrupt (v : BitVec 8) : Ticks s (trapEntry (s.setRun .running) v s.core.pc .interrupt)
  | sleeps : Ticks s s
  | miss : Ticks s (missEntry s s.core.pc)
  | missStick (h : ¬ TrapsEnter s) : Ticks s (s.setTlbAddr s.core.pc).stick
  | illegal (pa : Word) : Ticks s (trapEntry (physRead s pa .word).2 0x80#8 s.core.pc .kernel)
  | illegalStick (pa : Word) (h : ¬ TrapsEnter s) : Ticks s (physRead s pa .word).2.stick
  | runs (pa : Word) (i : Instr) (u : State) (h : exec i (physRead s pa .word).2 = .next u) : Ticks s u

theorem coreTick_ticks {L : Encoding} {s u : State} (h : coreTick L s = .next u) : Ticks s u := by
  rcases coreTick_cases L s with ⟨v, _, e⟩ | ⟨_, _, e⟩ | ⟨_, _, ⟨_, e⟩ | ⟨pa, _, e⟩⟩ <;> rw [e] at h
  · cases h; exact .interrupt v
  · cases h; exact .sleeps
  · rcases raiseMiss_next h with rfl | ⟨rfl, ht⟩
    · exact .miss
    · exact .missStick ht
  · cases hL : L (physRead s pa .word).1 with
    | error x =>
      rw [runWord_error hL] at h
      rcases enterTrap_next h with rfl | ⟨rfl, ht⟩
      · rw [physRead_core]; exact .illegal pa
      · exact .illegalStick pa (mt (trapsEnter_congr (by simp) (by simp)).mpr ht)
    | ok i =>
      by_cases hr : Readable (physRead s pa .word).2 i
      · rw [runWord_ok hL hr] at h; exact .runs pa i u h
      · rw [runWord_unreadable hL hr] at h; cases h

theorem coreTick_keeps {L : Encoding} {s u : State} (h : coreTick L s = .next u) : TickKeeps s u := by
  cases coreTick_ticks h with
  | interrupt v | sleeps | miss | missStick _ => exact tickKeeps_core rfl rfl rfl rfl rfl
  | illegal pa | illegalStick pa _ => exact tickKeeps_trans (tickKeeps_physRead s pa _) (tickKeeps_core rfl rfl rfl rfl rfl)
  | runs pa i u h => exact tickKeeps_trans (tickKeeps_physRead s pa _) (exec_keeps h)

/-- The cores after a tick: one relation for those touched and for the one that ticked. -/
theorem tickKeeps_cores {R : CoreState → CoreState → Prop} {s u : State} (h : TickKeeps s u)
    (hR : ∀ c d, Touched c d → R c d) (hc : R s.core u.core) : List.Forall₂ R s.cores u.cores :=
  List.rel_append (h.done.imp hR) (.cons hc (h.todo.imp hR))

/-! ### The end of a visit -/

theorem endVisit_touched (s : State) : List.Forall₂ Touched s.cores (endVisit s).cores := by
  obtain ⟨bits, hc⟩ := endVisit_cores s
  rw [hc, List.forall₂_map_right_iff]
  exact List.forall₂_same.mpr fun c _ => touched_withLines bits c

@[simp] theorem dmaStep_cores (s : State) : (dmaStep s).cores = s.cores := by simp [State.cores]

/-- The cores visited so far in the pass. -/
theorem endVisit_done_length (s : State) :
    (endVisit s).done.length = if s.todo = [] then 0 else s.done.length + 1 := by
  cases h : s.todo with
  | nil => rw [endVisit_last s h, rewind_done]; rfl
  | cons c cs => rw [endVisit_next s c cs h]; simp

/-! ### The statements -/

/-- A core that takes no tick keeps all but what others write. -/
def InertKept (c d : CoreState) : Prop := c.run = .halted ∨ c.stuck = true → Touched c d

/-- Every step keeps the cores that take no tick, by what it did (R340). -/
theorem step_inertKept {s t : State} (h : step s = .next t) : List.Forall₂ InertKept s.cores t.cores := by
  have hend := fun u => (endVisit_touched u).imp fun c d h => (fun _ => h : InertKept c d)
  have htick {u : State} (hrun : s.core.run ≠ .halted) (hstuck : s.core.stuck = false)
      (hu : coreTick decode (beginVisit s) = .next u) : List.Forall₂ InertKept s.cores u.cores := by
    rw [← beginVisit_cores]
    refine tickKeeps_cores (coreTick_keeps hu) (fun _ _ h _ => h) fun hi => ?_
    simp [hrun, hstuck] at hi
  have htrans : ∀ c d e, InertKept c d → InertKept d e → InertKept c e := fun c d e h h' hi =>
    have hd := h hi
    touched_trans hd (h' (by rw [hd]; exact hi))
  rcases machineStep_cases (L := decode) h with ⟨_, rfl⟩ | ⟨_, _, rfl⟩ | ⟨hr, hs, u, hu, ⟨_, rfl⟩ | ⟨_, rfl⟩⟩
  · exact List.forall₂_same.mpr fun c _ _ => touched_refl c
  · rw [← beginVisit_cores]; exact hend _
  · exact forall₂_trans htrans (htick hr hs hu) (hend u)
  · exact forall₂_trans htrans (htick hr hs hu) (dmaStep_cores u ▸ hend (dmaStep u))

/-- Settles O9: what a step did to the core of that index. -/
theorem haltedCoreIsInert : Obligations.HaltedCoreIsInert := by
  intro s t k c h hk hi
  obtain ⟨d, hd, hcd⟩ := forall₂_getElem? (step_inertKept h) hk
  exact ⟨d, hd, hcd hi⟩

/-- What the statement about turns says, of the state that a visit ends. -/
structure TurnKeeps (s u : State) : Prop where
  done : u.done.length = s.done.length
  todo : u.todo = [] ↔ s.todo = []
  cids : u.cores.map (·.cid) = s.cores.map (·.cid)
  params : u.params = s.params
  imageSize : ∀ i, (u.dev.slot i).image.size = (s.dev.slot i).image.size

theorem turnKeeps_beginVisit (s : State) : TurnKeeps s (beginVisit s) where
  done := by simp
  todo := by simp
  cids := by rw [beginVisit_cores]
  params := by simp
  imageSize i := by rw [beginVisit_slot]

theorem map_eq_of_forall₂ {α β : Type} {R : α → α → Prop} {f : α → β} (hR : ∀ x y, R x y → f y = f x) {l l' : List α}
    (h : List.Forall₂ R l l') : l'.map f = l.map f := by
  induction h with
  | nil => rfl
  | cons hxy _ ih => rw [List.map_cons, List.map_cons, hR _ _ hxy, ih]

theorem turnKeeps_of_tick {s u : State} (h : TickKeeps s u) : TurnKeeps s u where
  done := h.done.length_eq.symm
  todo := by rw [← List.length_eq_zero_iff, ← List.length_eq_zero_iff, h.todo.length_eq]
  cids := map_eq_of_forall₂ (R := fun c d => d.cid = c.cid) (fun _ _ h => h)
    (tickKeeps_cores h (fun _ _ => touched_cid) h.cid)
  params := h.params
  imageSize := h.imageSize

theorem turnKeeps_dmaStep (s : State) : TurnKeeps s (dmaStep s) where
  done := by simp
  todo := by simp
  cids := by simp
  params := by simp
  imageSize := dmaStep_image_size s

theorem turnKeeps_trans {s u t : State} (h : TurnKeeps s u) (h' : TurnKeeps u t) : TurnKeeps s t where
  done := h'.done.trans h.done
  todo := h'.todo.trans h.todo
  cids := h'.cids.trans h.cids
  params := h'.params.trans h.params
  imageSize i := (h'.imageSize i).trans (h.imageSize i)

/-- A step that is not of a run that is over ends the visit of a state that keeps what the statement about turns says. -/
theorem step_turns {s t : State} (hover : s.runOver = false) (h : step s = .next t) :
    ∃ u, TurnKeeps s u ∧ t = endVisit u := by
  have hb := turnKeeps_beginVisit s
  rcases machineStep_cases (L := decode) h with ⟨ho, _⟩ | ⟨_, _, rfl⟩ | ⟨_, _, u, hu, ⟨_, rfl⟩ | ⟨_, rfl⟩⟩
  · rw [hover] at ho; cases ho
  · exact ⟨_, hb, rfl⟩
  · exact ⟨u, turnKeeps_trans hb (turnKeeps_of_tick (coreTick_keeps hu)), rfl⟩
  · exact ⟨dmaStep u, turnKeeps_trans hb (turnKeeps_trans (turnKeeps_of_tick (coreTick_keeps hu)) (turnKeeps_dmaStep u)), rfl⟩

/-- Settles O10: the end of the visit moves the turn on, and nothing before it does. -/
theorem coresTakeTurns : Obligations.CoresTakeTurns := by
  intro s t hover h
  obtain ⟨u, hu, rfl⟩ := step_turns hover h
  have hcids : (endVisit u).cores.map (·.cid) = s.cores.map (·.cid) :=
    (map_eq_of_forall₂ (f := (·.cid)) (fun _ _ => touched_cid) (endVisit_touched u)).trans hu.cids
  have hsize (i : SlotId) : ((endVisit u).dev.slot i).image.size = (s.dev.slot i).image.size := by
    rw [endVisit_slot, hu.imageSize]
  refine ⟨?_, ?_, hcids, by rw [endVisit_params, hu.params], hsize .sd0, hsize .sd1⟩
  · rw [endVisit_done_length, hu.done]; simp only [hu.todo]
  · rw [nCores_eq, nCores_eq]; simpa using congrArg List.length hcids

end Sys2Proof.Proofs
end

section
/-! Proofs of the statements about traps, returns and the modes (spec/60_exceptions.md section 2, spec/43_system.md). -/
namespace Sys2Proof.Proofs

open Sys2Proof Sys2Proof.Machine

/-! ### Trap entry -/

/-- Settles O12: the two answers of `enterTrap`. -/
theorem trapEntryEffect : Obligations.TrapEntryEffect := by
  intro s v e m
  refine ⟨fun h => ?_, fun h => ?_⟩
  · obtain ⟨hfatal, hlive, hm⟩ := h
    exact enterTrap_sticks (by simp [TrapsEnter, hfatal, hlive]) v e hm
  · have henter : enterTrap s v e m = .next (trapEntry s v e m) := by
      rcases enterTrap_cases s v e m with h' | ⟨_, hs⟩
      · exact h'
      · exact absurd hs h
    refine ⟨_, henter, rfl, rfl, rfl, rfl, rfl, ?_, trapEntry_frame s v e m⟩
    rw [trapEntry_core_pc, ivtEntry, ivtAddress_eq]; rfl

theorem ivtAddress_toNat (v : BitVec 8) : (ivtAddress v).toNat = 4 * v.toNat := by
  have hv := v.isLt
  rw [ivtAddress_eq, BitVec.toNat_mul]; simp; omega

/-- The vector table lies below every device (R78, R289). -/
theorem place_ivt (s : State) (v : BitVec 8) :
    place s.params (ivtAddress v) .word = if 4 * v.toNat + 4 ≤ s.params.ramSize then .storage else .unmapped := by
  have hv := v.isLt
  have ha := ivtAddress_toNat v
  have hport : ¬ portWindow.has (ivtAddress v).toNat = true := by rw [portWindow_has, ha]; omega
  have hvga : ¬ storageRegions.any (·.has (ivtAddress v).toNat) = true := by rw [storageRegions_has, ha]; omega
  rw [place, if_neg hport, if_neg hvga, ha]; rfl

/-- Settles O13: the slot is read from the bus, at an address that is RAM or nothing. -/
theorem ivtSlotIsPhysicalWord : Obligations.IvtSlotIsPhysicalWord := by
  intro s v
  obtain ⟨hstorage, _, hunmapped⟩ := physRead_readsAs s (ivtAddress v) .word
  refine ⟨fun h => ?_, fun h => ?_⟩
  · exact ivtAddress_toNat v ▸ (hstorage (by rw [place_ivt, if_pos h])).1
  · exact (hunmapped (by rw [place_ivt, if_neg (by omega)])).1

/-- An exception or sys that is raised: its trap, or the STUCK core (R292, R297). -/
theorem enterTrap_kernel {s : State} {r : Result} {v : BitVec 8} {e : Word} (h : r = enterTrap s v e .kernel) :
    (TrapsEnter s → ∃ t, r = .next t ∧ TrapTaken s t v e .kernel ∧ TrapFrame s t []) ∧
      (¬ TrapsEnter s → r = .next (stuckState s)) :=
  ⟨fun ht => ⟨_, h.trans (enterTrap_enters ht v e _), trapEntry_taken s v e _, trapEntry_frame s v e _⟩,
    fun ht => h.trans (enterTrap_sticks ht v e (by simp))⟩

/-- Settles O14: `sys` is the entry of the trap of its slot. -/
theorem sysEntersKernel : Obligations.SysEntersKernel := fun _ _ => enterTrap_kernel rfl

/-! ### The privileged instructions -/

/-- An accepted cr-index names a register (R34). -/
theorem ofIndex_of_crIndexOk {k : CrIndex} (h : crIndexOk k = true) : ∃ q, CReg.ofIndex k = some q := by
  have hk : k.toNat < CReg.all.length := Nat.lt_succ_of_le (of_decide_eq_true h)
  exact ⟨_, List.getElem?_eq_getElem hk⟩

/-- The privilege check comes first in each of the eleven (R240, R282). -/
theorem exec_privileged_user {s : State} {i : Instr} (hi : IsPrivileged i) (hw : i.wellFormed = true)
    (hm : s.core.mode = .user) : exec i s = raise s .priv := by
  have hcr {k : CrIndex} (hk : crIndexOk k = true) (f : CReg → Result) : withCReg s k f = raise s .priv := by
    obtain ⟨q, hq⟩ := ofIndex_of_crIndexOk hk
    rw [withCReg_some hq, privileged_user hm]
  rcases hi with ⟨k, r, rfl⟩ | ⟨r, k, rfl⟩ | ⟨a, b, rfl⟩ | ⟨a, b, rfl⟩ | rfl | rfl | rfl | rfl | ⟨a, b, rfl⟩ | rfl | rfl
  · exact hcr hw _
  · exact hcr hw _
  all_goals exact privileged_user hm _

/-- Settles O15: a privileged instruction of user mode raises EXC_PRIV at the pc. -/
theorem privilegedInUserRaisesExcPriv : Obligations.PrivilegedInUserRaisesExcPriv := fun _ _ hi hw hm =>
  enterTrap_kernel (exec_privileged_user hi hw hm)

/-! ### Returns, halt and sleep outside user mode -/

/-- Settles O16: `rfe` is the shared return, to user mode with the flags as they are. -/
theorem rfeReturnsToUser : Obligations.RfeReturnsToUser := fun _ hm => privileged_other hm _

/-- Settles O17: `rfi` is the shared return, to mode_prev with the flags of efg. -/
theorem rfiRestoresModeAndFlags : Obligations.RfiRestoresModeAndFlags := fun _ hm => privileged_other hm _

/-- Settles O18: `rft` is the shared return, to kernel mode with the flags of efg. -/
theorem rftReturnsToKernel : Obligations.RftReturnsToKernel := fun _ hm => privileged_other hm _

/-- Settles O50: each form of `mode` writes the run state after the pc. -/
theorem haltAndSleepSetTheRunState : Obligations.HaltAndSleepSetTheRunState := fun _ hm =>
  ⟨privileged_other hm _, privileged_other hm _⟩

end Sys2Proof.Proofs
end

section
/-! Proofs of the statements about what an instruction can write (spec/10_state.md, spec/60_exceptions.md section 4). -/
namespace Sys2Proof.Proofs

open Sys2Proof Sys2Proof.Machine

/-! ### What a core keeps under register writes -/

/-- The hidden state, and every register but those in `regs` and `crs`. -/
structure Keeps (c d : CoreState) (regs : List Reg) (crs : List CReg) : Prop where
  hidden : SameHidden c d
  registers : OnlyWrites c d regs crs

section
variable {c d e : CoreState} {regs : List Reg} {crs : List CReg}

theorem keeps_trans (h : Keeps c d regs crs) (h' : Keeps d e regs crs) : Keeps c e regs crs := by
  obtain ⟨⟨hm, hp, hr, hl, ht, hn, hs⟩, hreg, hcr⟩ := h
  obtain ⟨⟨hm', hp', hr', hl', ht', hn', hs'⟩, hreg', hcr'⟩ := h'
  refine ⟨⟨hm'.trans hm, hp'.trans hp, hr'.trans hr, hl'.trans hl, ht'.trans ht, hn'.trans hn, hs'.trans hs⟩,
    fun r hr => ?_, fun q hq hsp => ?_⟩
  · exact ⟨(hreg' r hr).1.trans (hreg r hr).1, (hreg' r hr).2.trans (hreg r hr).2⟩
  · have h1 := hcr q hq hsp
    have h2 := hcr' q hq (hm.symm ▸ hsp)
    exact ⟨h2.1.trans h1.1, h2.2.trans h1.2⟩

theorem keeps_refl (c : CoreState) (regs : List Reg) (crs : List CReg) : Keeps c c regs crs :=
  ⟨⟨rfl, rfl, rfl, rfl, rfl, rfl, rfl⟩, fun _ _ => ⟨rfl, rfl⟩, fun _ _ _ => ⟨rfl, rfl⟩⟩

theorem keeps_setReg (c : CoreState) {r : Reg} (v : Word) (hr : r ∈ regs) : Keeps c (c.setReg r v) regs crs := by
  refine ⟨by simp [SameHidden], fun q hq => ?_, fun q _ hq => ?_⟩
  · have hne : q ≠ r := fun h => hq (h ▸ hr)
    rw [reg_setReg_other c r q v hne, regWritten_setReg, if_neg hne]; exact ⟨rfl, rfl⟩
  · have hne : ¬ (r = spReg ∧ q = stackCReg c.mode) := fun h => hq ⟨h.1 ▸ hr, h.2⟩
    rw [readCr_setReg, crWritten_setReg, if_neg hne, if_neg hne]; exact ⟨rfl, rfl⟩

theorem keeps_pc (c : CoreState) (x : Word) : Keeps c { c with pc := x } regs crs :=
  ⟨⟨rfl, rfl, rfl, rfl, rfl, rfl, rfl⟩,
    fun r _ => ⟨reg_congr _ _ rfl rfl rfl rfl rfl r, regWritten_congr _ _ rfl rfl r⟩,
    fun q _ _ => ⟨readCr_congr _ _ rfl rfl rfl rfl rfl rfl rfl rfl rfl rfl rfl rfl rfl rfl q, crWritten_congr _ _ rfl q⟩⟩

theorem keeps_flags (c : CoreState) (f : BitVec 4) (hf : .flg ∈ crs) : Keeps c { c with flg := f } regs crs := by
  refine ⟨⟨rfl, rfl, rfl, rfl, rfl, rfl, rfl⟩,
    fun r _ => ⟨reg_congr _ _ rfl rfl rfl rfl rfl r, regWritten_congr _ _ rfl rfl r⟩,
    fun q hq _ => ⟨?_, crWritten_congr _ _ rfl q⟩⟩
  cases q with
  | flg => exact absurd hf hq
  | _ => rfl

end

/-! ### r1 to r30 by their numbers -/

theorem resolve_slot (m : Mode) (k : Fin 30) : resolve m (BitVec.ofNat 5 (k.val + 1)) = .gpr k := by
  have hk := k.isLt
  have hn : (BitVec.ofNat 5 (k.val + 1)).toNat = k.val + 1 := by rw [BitVec.toNat_ofNat]; omega
  have h0 : BitVec.ofNat 5 (k.val + 1) ≠ 0#5 := fun h => by rw [h] at hn; simp at hn
  have h31 : BitVec.ofNat 5 (k.val + 1) ≠ spReg := fun h => by rw [h] at hn; simp [spReg] at hn; omega
  rw [resolve_gpr m _ h0 h31]
  congr 1
  apply Fin.ext
  simp [Fin.ofNat, hn, Nat.mod_eq_of_lt hk]

theorem reg_slot (c : CoreState) (k : Fin 30) : c.reg (BitVec.ofNat 5 (k.val + 1)) = c.gpr[k] := by
  rw [CoreState.reg, resolve_slot]; rfl

theorem regWritten_slot (c : CoreState) (k : Fin 30) : c.regWritten (BitVec.ofNat 5 (k.val + 1)) = c.written.gpr[k] := by
  rw [CoreState.regWritten, resolve_slot]; rfl

/-- A slot whose number is not written keeps its value and its mark. -/
theorem keeps_slot {c d : CoreState} {regs : List Reg} {crs : List CReg} (h : Keeps c d regs crs) {k : Fin 30}
    (hk : BitVec.ofNat 5 (k.val + 1) ∉ regs) : d.gpr[k] = c.gpr[k] ∧ d.written.gpr[k] = c.written.gpr[k] := by
  have := h.registers.1 _ hk
  rwa [reg_slot, reg_slot, regWritten_slot, regWritten_slot] at this

/-! ### What the ordinary operations leave -/

/-- Everything outside the core but memory and the devices, and in the core what `Keeps` says. -/
structure Plain (s t : State) (regs : List Reg) (crs : List CReg) : Prop where
  core : Keeps s.core t.core regs crs
  beyond : SameBeyondBus s t

section
variable {s t u : State} {regs : List Reg} {crs : List CReg}

theorem Plain.trans (h : Plain s t regs crs) (h' : Plain t u regs crs) : Plain s u regs crs := by
  obtain ⟨hp, hd, ht, hh⟩ := h.beyond
  obtain ⟨hp', hd', ht', hh'⟩ := h'.beyond
  exact ⟨keeps_trans h.core h'.core, hp'.trans hp, hd'.trans hd, ht'.trans ht, hh'.trans hh⟩

theorem plain_setReg (s : State) {r : Reg} (v : Word) (hr : r ∈ regs) : Plain s (s.setReg r v) regs crs :=
  ⟨keeps_setReg s.core v hr, rfl, rfl, rfl, rfl⟩

theorem plain_setFlags (s : State) (f : BitVec 4) (hf : .flg ∈ crs) : Plain s (s.setFlags f) regs crs :=
  ⟨keeps_flags s.core f hf, rfl, rfl, rfl, rfl⟩

theorem plain_advance (s : State) : Plain s s.advance regs crs := ⟨keeps_pc s.core _, rfl, rfl, rfl, rfl⟩

theorem plain_jump (s : State) (a : Word) : Plain s (s.jump a) regs crs := ⟨keeps_pc s.core _, rfl, rfl, rfl, rfl⟩

theorem plain_physRead (s : State) (pa : Word) (w : Width) : Plain s (physRead s pa w).2 regs crs :=
  ⟨by rw [physRead_core]; exact keeps_refl _ _ _, by simp [SameBeyondBus]⟩

theorem plain_physWrite (s : State) (pa : Word) (w : Width) (v : Word) : Plain s (physWrite s pa w v) regs crs :=
  ⟨by rw [physWrite_core]; exact keeps_refl _ _ _, by simp [SameBeyondBus]⟩

end

/-! ### What an instruction can do, by what it leaves -/

/-- The next states of an instruction, where those of `Does` that write registers, flags, pc, memory and devices are one. -/
inductive Kind (s : State) : Instr → State → Prop
  | ordinary (i : Instr) (t : State) (crs : List CReg) (hflg : ∀ q ∈ crs, q = .flg ∧ IsAlu i)
      (hk : Plain s t (destinations i) crs) (hb : dataAccess s i = none → t.dev = s.dev ∧ t.mem = s.mem) : Kind s i t
  | control (k : CrIndex) (rS : Reg) (q : CReg) (hq : CReg.ofIndex k = some q) (hm : s.core.mode ≠ .user) :
      Kind s (.crmvW k rS) ((s.withCore (s.core.writeCr q (s.reg rS))).advance)
  | rfe (hm : s.core.mode ≠ .user) : Kind s .rfe (returnTo s .user s.core.flg)
  | rfi (hm : s.core.mode ≠ .user) : Kind s .rfi (returnTo s s.core.modePrev s.core.efg)
  | rft (hm : s.core.mode ≠ .user) : Kind s .rft (returnTo s .kernel s.core.efg)
  | tlbw (rE rV : Reg) (t : Tlb) (n : Fin 16) (hm : s.core.mode ≠ .user) :
      Kind s (.tlbw rE rV) ((s.withCore { s.core with tlb := t, tlbNext := n }).advance)
  | tlbc (t : Tlb) (hm : s.core.mode ≠ .user) :
      Kind s .tlbc ((s.withCore { s.core with tlb := t, tlbNext := 0 }).advance)
  | ipi (rD rT : Reg) (n : Nat) (v : Word) (hm : s.core.mode ≠ .user) :
      Kind s (.ipi rD rT) (((s.modifyCore n (receiveIpi s.core.mbo)).setReg rD v).advance)
  | halt (hm : s.core.mode ≠ .user) : Kind s .modeHalt (s.advance.setRun .halted)
  | sleep (hm : s.core.mode ≠ .user) : Kind s .modeSleep (s.advance.setRun .sleeping)
  | sys (v : BitVec 8) : Kind s (.sys v) (trapEntry s v (s.core.pc + 4#32) .kernel)
  | exception (i : Instr) (v : BitVec 8) (hv : v = 0x80#8 ∨ v = 0x81#8) : Kind s i (trapEntry s v s.core.pc .kernel)
  | miss (i : Instr) (ea : Word) (w : Width) (n : Intent) (va : Word) (hd : dataAccess s i = some (ea, w, n))
      (hm : AccessMisses s ea w n va) : Kind s i (missEntry s va)
  | stick (i : Instr) (h : s.params.misalign = .refuse ∨ ¬ TrapsEnter s) : Kind s i s.stick
  | missStick (i : Instr) (ea : Word) (w : Width) (n : Intent) (va : Word) (hd : dataAccess s i = some (ea, w, n))
      (hm : AccessMisses s ea w n va) (h : ¬ TrapsEnter s) : Kind s i (s.setTlbAddr va).stick

section
variable {s t : State} {i : Instr}

/-- An ordinary next state that writes no flag. -/
theorem kind_plain (hk : Plain s t (destinations i) []) (hb : t.dev = s.dev ∧ t.mem = s.mem) : Kind s i t :=
  .ordinary i t [] (by simp) hk fun _ => hb

/-- An ordinary next state of an access: memory and the devices are free. -/
theorem kind_access (hk : Plain s t (destinations i) []) (ha : dataAccess s i ≠ none) : Kind s i t :=
  .ordinary i t [] (by simp) hk fun h => absurd h ha

theorem kind_alu (hi : IsAlu i) (hk : Plain s t (destinations i) [.flg]) (hb : t.dev = s.dev ∧ t.mem = s.mem) :
    Kind s i t :=
  .ordinary i t [.flg] (by simpa using hi) hk fun _ => hb

theorem does_kind (h : Does s i t) : Kind s i t := by
  cases h with
  | alu _ r v f hi hr hd =>
    exact kind_alu hi ((plain_setReg s v hr).trans ((plain_setFlags _ f (by simp)).trans (plain_advance _))) ⟨rfl, rfl⟩
  | flags _ f hi hd => exact kind_alu hi ((plain_setFlags s f (by simp)).trans (plain_advance _)) ⟨rfl, rfl⟩
  | move _ r v hr hd => exact kind_plain ((plain_setReg s v hr).trans (plain_advance _)) ⟨rfl, rfl⟩
  | goes _ a hd => exact kind_plain (plain_jump s a) ⟨rfl, rfl⟩
  | goesOn _ hd => exact kind_plain (plain_advance s) ⟨rfl, rfl⟩
  | load _ pa w r v hr hd =>
    exact kind_access ((plain_physRead s pa w).trans ((plain_setReg _ v hr).trans (plain_advance _))) hd
  | pop _ pa u r v hs hr hd =>
    exact kind_access ((plain_physRead s pa _).trans
      ((plain_setReg _ u hs).trans ((plain_setReg _ v hr).trans (plain_advance _)))) hd
  | popPc _ pa u a hs hd =>
    exact kind_access ((plain_physRead s pa _).trans ((plain_setReg _ u hs).trans (plain_jump _ a))) hd
  | store _ pa w v hd => exact kind_access ((plain_physWrite s pa w v).trans (plain_advance _)) hd
  | push _ pa v u hs hd =>
    exact kind_access ((plain_physWrite s pa _ v).trans ((plain_setReg _ u hs).trans (plain_advance _))) hd
  | pushPc _ pa v u a hs hd =>
    exact kind_access ((plain_physWrite s pa _ v).trans ((plain_setReg _ u hs).trans (plain_jump _ a))) hd
  | update _ pa v r u hr hd =>
    exact kind_access ((plain_physRead s pa _).trans
      ((plain_physWrite _ pa _ v).trans ((plain_setReg _ u hr).trans (plain_advance _)))) hd
  | control k rS q hq hm => exact .control k rS q hq hm
  | rfe hm => exact .rfe hm
  | rfi hm => exact .rfi hm
  | rft hm => exact .rft hm
  | tlbw rE rV t n hm => exact .tlbw rE rV t n hm
  | tlbc t hm => exact .tlbc t hm
  | ipi rD rT n v hm => exact .ipi rD rT n v hm
  | halt hm => exact .halt hm
  | sleep hm => exact .sleep hm
  | sys v => exact .sys v
  | exception _ v hv _ => exact .exception i v hv
  | miss _ ea w n va hd hm => exact .miss i ea w n va hd hm
  | stick _ h => exact .stick i h.symm
  | missStick _ ea w n va hd hm h => exact .missStick i ea w n va hd hm h

theorem exec_kind (h : exec i s = .next t) : Kind s i t := does_kind (exec_does h)

end

/-! ### User mode -/

/-- Settles O19: what an instruction of user mode can do, by the mode it leaves. -/
theorem userModeIsLeftOnlyByTrap : Obligations.UserModeIsLeftOnlyByTrap := by
  intro i s t h huser
  cases exec_kind h with
  | ordinary _ _ crs hflg hk hb => exact .inl (hk.core.hidden.1.trans huser)
  | stick | missStick => exact .inl huser
  | sys v => exact .inr ⟨v, trapEntry_taken s v _ _, .inr ⟨rfl, rfl⟩⟩
  | exception _ v hv => exact .inr ⟨v, trapEntry_taken s v _ _, .inl ⟨by rcases hv with rfl | rfl <;> simp, rfl⟩⟩
  | miss _ ea w n va hd hm =>
    exact .inr ⟨_, missEntry_taken s va, .inl ⟨by rw [huser]; simp [missVector], rfl⟩⟩
  | control _ _ _ _ hm | rfe hm | rfi hm | rft hm | tlbw _ _ _ _ hm | tlbc _ hm | ipi _ _ _ _ hm | halt hm | sleep hm =>
    exact absurd huser hm

/-- Settles O20: without a trap and STUCK there is the ordinary next state alone, which writes usp and flg. -/
theorem userCannotChangePrivilegedState : Obligations.UserCannotChangePrivilegedState := by
  intro i s t h huser huser' hstuck
  cases exec_kind h with
  | ordinary _ _ crs hflg hk hb =>
    obtain ⟨_, hd, ht, _⟩ := hk.beyond
    refine ⟨fun q husp hq => hk.core.registers.2 q (fun hmem => hq (hflg q hmem).1) fun hsp => husp ?_, hk.core.hidden, hd, ht⟩
    rw [hsp.2, huser]; rfl
  | stick | missStick => cases hstuck
  | sys | exception | miss => cases huser'
  | control _ _ _ _ hm | rfe hm | rfi hm | rft hm | tlbw _ _ _ _ hm | tlbc _ hm | ipi _ _ _ _ hm | halt hm | sleep hm =>
    exact absurd huser hm

/-! ### The writers of each part of the state -/

/-- `ipi` writes mbi and isr of one core, and nothing else of any. -/
theorem modifyCore_core (s : State) (n : Nat) (f : CoreState → CoreState) :
    (s.modifyCore n f).core = s.core ∨ (s.modifyCore n f).core = f s.core := by
  unfold State.modifyCore
  split
  · exact .inl rfl
  · split
    · exact .inr rfl
    · exact .inl rfl

section
variable {s t : State} {i : Instr}

/-- A register write that a control register shows is that of its mode's stack pointer. -/
theorem not_stack_of_not_hasWriter {q : CReg} (h : ¬ HasWriter s t i q) :
    ¬ (spReg ∈ destinations i ∧ q = stackCReg s.core.mode) := by
  rintro ⟨hsp, rfl⟩
  cases hm : s.core.mode <;> rw [hm] at h <;> exact h ⟨hsp, hm⟩

/-- A trap may write epc and efg, so what it does not write is another register. -/
theorem not_saved_of_not_hasWriter {q : CReg} (ht : Trapped s t) (hq : ¬ HasWriter s t i q) : q ≠ .epc ∧ q ≠ .efg :=
  ⟨by rintro rfl; exact hq ht, by rintro rfl; exact hq ht⟩

theorem trapEntry_controlKept (s : State) (v : BitVec 8) (e : Word) (m : Mode) {q : CReg} (h : q ≠ .epc ∧ q ≠ .efg) :
    (trapEntry s v e m).core.readCr q = s.core.readCr q ∧ (trapEntry s v e m).core.crWritten q = s.core.crWritten q :=
  ⟨trapEntry_readCr s v e m q h.1 h.2, by rw [trapEntry_crWritten, if_neg (not_or.mpr h)]⟩

theorem setTlbAddr_controlKept (s : State) (va : Word) {q : CReg} (hq : q ≠ .tlb) :
    (s.setTlbAddr va).core.readCr q = s.core.readCr q ∧ (s.setTlbAddr va).core.crWritten q = s.core.crWritten q := by
  cases q with
  | tlb => exact absurd rfl hq
  | _ => exact ⟨rfl, rfl⟩

theorem receiveIpi_controlKept (payload : Word) (c : CoreState) {q : CReg} (hisr : q ≠ .isr) (hmbi : q ≠ .mbi) :
    (receiveIpi payload c).readCr q = c.readCr q ∧ (receiveIpi payload c).crWritten q = c.crWritten q := by
  cases q with
  | isr => exact absurd rfl hisr
  | mbi => exact absurd rfl hmbi
  | _ => exact ⟨rfl, rfl⟩

/-- A control register without a writer keeps its value and its mark. -/
theorem kind_controlKept (h : Kind s i t) {q : CReg} (hq : ¬ HasWriter s t i q)
    (hcr : q = .cid ∨ ∀ k rS, i = .crmvW k rS → CReg.all[k.toNat]? ≠ some q) :
    t.core.readCr q = s.core.readCr q ∧ t.core.crWritten q = s.core.crWritten q := by
  cases h with
  | ordinary _ _ crs hflg hk hb =>
    refine hk.core.registers.2 q (fun hmem => ?_) (not_stack_of_not_hasWriter hq)
    obtain ⟨rfl, hi⟩ := hflg q hmem
    exact hq (.inl hi)
  | control k rS r hr hm =>
    rw [advance_readCr, advance_crWritten, withCore_core, readCr_writeCr, crWritten_writeCr]
    by_cases hqr : q = r
    · subst hqr
      obtain rfl : q = .cid := hcr.resolve_right fun h => h k rS rfl hr
      simp [keptBits, CoreState.readCr, CoreState.crWritten]
    · rw [if_neg hqr, if_neg hqr]; exact ⟨rfl, rfl⟩
  | rfe => exact ⟨by cases q <;> rfl, crWritten_congr _ _ rfl q⟩
  | rfi => exact ⟨returnTo_readCr _ _ _ q (by rintro rfl; exact hq (.inr (.inl rfl))), crWritten_congr _ _ rfl q⟩
  | rft => exact ⟨returnTo_readCr _ _ _ q (by rintro rfl; exact hq (.inr (.inr rfl))), crWritten_congr _ _ rfl q⟩
  | tlbw | tlbc | halt | sleep | stick => exact ⟨by cases q <;> rfl, crWritten_congr _ _ rfl q⟩
  | ipi rD rT n v hm =>
    have hisr : q ≠ .isr := by rintro rfl; exact hq ⟨rD, rT, rfl⟩
    have hmbi : q ≠ .mbi := by rintro rfl; exact hq ⟨rD, rT, rfl⟩
    have hcore : (s.modifyCore n (receiveIpi s.core.mbo)).core.readCr q = s.core.readCr q ∧
        (s.modifyCore n (receiveIpi s.core.mbo)).core.crWritten q = s.core.crWritten q ∧
        (s.modifyCore n (receiveIpi s.core.mbo)).core.mode = s.core.mode := by
      rcases modifyCore_core s n (receiveIpi s.core.mbo) with e | e <;> rw [e]
      · exact ⟨rfl, rfl, rfl⟩
      · obtain ⟨h1, h2⟩ := receiveIpi_controlKept s.core.mbo s.core hisr hmbi
        exact ⟨h1, h2, rfl⟩
    obtain ⟨h1, h2, hmode⟩ := hcore
    have hsp : ¬ (rD = spReg ∧ q = stackCReg s.core.mode) := fun h =>
      not_stack_of_not_hasWriter hq ⟨by simp [destinations, h.1], h.2⟩
    rw [advance_readCr, advance_crWritten, setReg_core, readCr_setReg, crWritten_setReg, hmode, if_neg hsp, if_neg hsp]
    exact ⟨h1, h2⟩
  | sys | exception =>
    exact trapEntry_controlKept s _ _ _ (not_saved_of_not_hasWriter ⟨_, _, _, trapEntry_taken s _ _ _⟩ hq)
  | miss _ ea w n va hd hm =>
    obtain ⟨h1, h2⟩ := setTlbAddr_controlKept s va (q := q) (by rintro rfl; exact hq ⟨ea, w, n, hd, hm⟩)
    obtain ⟨h3, h4⟩ := trapEntry_controlKept (s.setTlbAddr va) (missVector s.core.mode) s.core.pc .kernel
      (not_saved_of_not_hasWriter ⟨_, _, _, missEntry_taken s va⟩ hq)
    exact ⟨h3.trans h1, h4.trans h2⟩
  | missStick _ ea w n va hd hm _ =>
    exact setTlbAddr_controlKept s va (by rintro rfl; exact hq ⟨ea, w, n, hd, hm⟩)

/-- A general register that is not the destination keeps its value and its mark. -/
theorem kind_slotKept (h : Kind s i t) {k : Fin 30} (hk : BitVec.ofNat 5 (k.val + 1) ∉ destinations i) :
    t.core.gpr[k] = s.core.gpr[k] ∧ t.core.written.gpr[k] = s.core.written.gpr[k] := by
  cases h with
  | ordinary _ _ crs hflg hp hb => exact keeps_slot hp.core hk
  | control k' rS q hq hm => cases q <;> exact ⟨rfl, rfl⟩
  | ipi rD rT n v hm =>
    have hcore : (s.modifyCore n (receiveIpi s.core.mbo)).core.gpr = s.core.gpr ∧
        (s.modifyCore n (receiveIpi s.core.mbo)).core.written.gpr = s.core.written.gpr := by
      rcases modifyCore_core s n (receiveIpi s.core.mbo) with e | e <;> rw [e] <;> exact ⟨rfl, rfl⟩
    have hset := keeps_slot (keeps_setReg (regs := [rD]) (crs := []) (s.modifyCore n (receiveIpi s.core.mbo)).core v
      (List.mem_singleton.mpr rfl)) hk
    rw [hcore.1, hcore.2] at hset
    exact hset
  | _ => exact ⟨rfl, rfl⟩

/-- The modes and trap_live, by traps and returns (R28, R29, R48). -/
theorem kind_modesKept (h : Kind s i t) (ht : ¬ Trapped s t) : t.core.modePrev = s.core.modePrev ∧
    (i ≠ .rfe → i ≠ .rfi → i ≠ .rft → t.core.mode = s.core.mode ∧ t.core.trapLive = s.core.trapLive) := by
  cases h with
  | ordinary _ _ crs hflg hk hb =>
    obtain ⟨hm, hp, _, hl, _⟩ := hk.core.hidden
    exact ⟨hp, fun _ _ _ => ⟨hm, hl⟩⟩
  | control k rS q hq hm => cases q <;> exact ⟨rfl, fun _ _ _ => ⟨rfl, rfl⟩⟩
  | rfe hm => exact ⟨rfl, fun h => absurd rfl h⟩
  | rfi hm => exact ⟨rfl, fun _ h => absurd rfl h⟩
  | rft hm => exact ⟨rfl, fun _ _ h => absurd rfl h⟩
  | ipi rD rT n v hm =>
    rcases modifyCore_core s n (receiveIpi s.core.mbo) with e | e <;> simp [e, receiveIpi]
  | tlbw | tlbc | halt | sleep | stick | missStick => exact ⟨rfl, fun _ _ _ => ⟨rfl, rfl⟩⟩
  | sys | exception => exact absurd ⟨_, _, _, trapEntry_taken s _ _ _⟩ ht
  | miss _ ea w n va hd hm => exact absurd ⟨_, _, _, missEntry_taken s va⟩ ht

/-- The TLB, by tlbw and tlbc (R89). -/
theorem kind_tlbKept (h : Kind s i t) (hw : ∀ rE rV, i ≠ .tlbw rE rV) (hc : i ≠ .tlbc) :
    t.core.tlb = s.core.tlb ∧ t.core.tlbNext = s.core.tlbNext := by
  cases h with
  | ordinary _ _ crs hflg hk hb =>
    obtain ⟨_, _, _, _, htlb, hnext, _⟩ := hk.core.hidden
    exact ⟨htlb, hnext⟩
  | control k rS q hq hm => cases q <;> exact ⟨rfl, rfl⟩
  | tlbw rE rV _ _ hm => exact absurd rfl (hw rE rV)
  | tlbc _ hm => exact absurd rfl hc
  | ipi rD rT n v hm => rcases modifyCore_core s n (receiveIpi s.core.mbo) with e | e <;> simp [e, receiveIpi]
  | _ => exact ⟨rfl, rfl⟩

/-- The run state, by halt and sleep (R30). -/
theorem kind_runKept (h : Kind s i t) (hh : i ≠ .modeHalt) (hs : i ≠ .modeSleep) : t.core.run = s.core.run := by
  cases h with
  | ordinary _ _ crs hflg hk hb =>
    obtain ⟨_, _, hrun, _⟩ := hk.core.hidden
    exact hrun
  | control k rS q hq hm => cases q <;> rfl
  | halt => exact absurd rfl hh
  | sleep => exact absurd rfl hs
  | ipi rD rT n v hm => rcases modifyCore_core s n (receiveIpi s.core.mbo) with e | e <;> simp [e, receiveIpi]
  | _ => rfl

/-- STUCK is only ever set, and only where an alignment or a trap's entry is refused (R65, R297). -/
theorem kind_stuck (h : Kind s i t) : t.core.stuck = s.core.stuck ∨
    (t.core.stuck = true ∧ (s.params.misalign = .refuse ∨ ¬ TrapsEnter s)) := by
  cases h with
  | ordinary _ _ crs hflg hk hb =>
    obtain ⟨_, _, _, _, _, _, hstuck⟩ := hk.core.hidden
    exact .inl hstuck
  | control k rS q hq hm => left; cases q <;> rfl
  | ipi rD rT n v hm => left; rcases modifyCore_core s n (receiveIpi s.core.mbo) with e | e <;> simp [e, receiveIpi]
  | stick _ h => exact .inr ⟨rfl, h⟩
  | missStick _ ea w n va hd hm h => exact .inr ⟨rfl, .inr h⟩
  | _ => exact .inl rfl

/-- Other cores, by ipi (R250). -/
theorem kind_othersKept (h : Kind s i t) (hi : ∀ rD rT, i ≠ .ipi rD rT) : t.done = s.done ∧ t.todo = s.todo := by
  cases h with
  | ordinary _ _ crs hflg hk hb =>
    obtain ⟨_, hd, ht, _⟩ := hk.beyond
    exact ⟨hd, ht⟩
  | ipi rD rT n v hm => exact absurd rfl (hi rD rT)
  | _ => exact ⟨rfl, rfl⟩

/-- The parameters and the host's schedule have no writer. -/
theorem kind_paramsKept (h : Kind s i t) : t.params = s.params ∧ t.hostSchedule = s.hostSchedule := by
  cases h with
  | ordinary _ _ crs hflg hk hb =>
    obtain ⟨hp, _, _, hh⟩ := hk.beyond
    exact ⟨hp, hh⟩
  | ipi rD rT n v hm => simp
  | _ => exact ⟨rfl, rfl⟩

/-- Memory and the devices, by a data access (R182). -/
theorem kind_busKept (h : Kind s i t) (hd : dataAccess s i = none) : t.dev = s.dev ∧ t.mem = s.mem := by
  cases h with
  | ordinary _ _ crs hflg hk hb => exact hb hd
  | ipi rD rT n v hm => simp
  | _ => exact ⟨rfl, rfl⟩

end

/-- Settles O21: each part of the state, by the instructions that write it. -/
theorem stateHasOnlyItsWriters : Obligations.StateHasOnlyItsWriters := by
  intro i s t h
  have hkind := exec_kind h
  obtain ⟨hparams, hsched⟩ := kind_paramsKept hkind
  exact ⟨fun q => kind_controlKept hkind, fun k => kind_slotKept hkind, kind_modesKept hkind, kind_tlbKept hkind,
    kind_runKept hkind, fun hne => (kind_stuck hkind).resolve_left hne, kind_othersKept hkind, hparams, hsched,
    fun hd => ⟨(kind_busKept hkind hd).1, fun a => by rw [(kind_busKept hkind hd).2]⟩⟩

end Sys2Proof.Proofs
end

section
/-! Proof of the statement that nothing stops (spec/70_reset_and_hazards.md R380, spec/60_exceptions.md R297). -/
namespace Sys2Proof.Proofs

open Sys2Proof Sys2Proof.Machine

/-! ### The registers an instruction reads, in its rule's words -/

/-- An access gets past Align and Translate where it has a physical address. -/
theorem accessTranslates_iff (s : State) (ea : Word) (w : Width) (n : Intent) :
    accessTranslates s ea w n = true ↔ ∃ pa, AccessAt s ea w n pa := by
  unfold accessTranslates AccessAt
  cases alignAddr s.params.misalign ea w with
  | none => simp
  | some va => simp [Option.isSome_iff_exists]

theorem mem_privilegedSources (s : State) (l : List Source) (x : Source) :
    x ∈ privilegedSources s l ↔ s.core.mode ≠ .user ∧ x ∈ l := by
  unfold privilegedSources
  by_cases h : s.core.mode = .user <;> simp [h]

theorem mem_ipiSources (s : State) (rT : Reg) (x : Source) :
    x ∈ ipiSources s rT ↔ x = .reg rT ∨ (x = .cr .mbo ∧ (s.reg rT).toNat < s.nCores) := by
  unfold ipiSources
  by_cases h : (s.reg rT).toNat < s.nCores <;> simp [h]

theorem mem_fadaSources (s : State) (rA rV : Reg) (disp : Word) (x : Source) :
    x ∈ fadaSources s rA rV disp ↔
      x = .reg rA ∨ (x = .reg rV ∧ ∃ pa, AccessAt s (s.reg rA + disp) .word .rmw pa) := by
  rw [← accessTranslates_iff]
  unfold fadaSources baseAddress
  cases accessTranslates s (s.reg rA + disp) .word .rmw <;> simp

theorem mem_crmvWSources (s : State) (k : CrIndex) (r : Reg) (x : Source) :
    x ∈ sources s (.crmvW k r) ↔ s.core.mode ≠ .user ∧ k.toNat ≤ 13 ∧ x = .reg r := by
  unfold sources
  by_cases hk : k.toNat ≤ 13 <;> simp [crIndexOk, hk, mem_privilegedSources]

theorem mem_crmvRSources (s : State) (r : Reg) (k : CrIndex) (x : Source) :
    x ∈ sources s (.crmvR r k) ↔ s.core.mode ≠ .user ∧ ∃ q, CReg.all[k.toNat]? = some q ∧ x = .cr q := by
  simp [sources, mem_privilegedSources, CReg.ofIndex, eq_comm]

/-- `sources` lists what the rules' pseudocode reads. -/
theorem mem_sources (i : Instr) (s : State) (x : Source) : x ∈ sources s i ↔ Reads s x i := by
  cases i with
  | crmvW k r => exact mem_crmvWSources s k r x
  | crmvR r k => exact mem_crmvRSources s r k x
  | fada rD rA rV disp => exact mem_fadaSources s rA rV disp x
  | ipi rD rT => rw [sources, mem_privilegedSources, mem_ipiSources, Reads]
  | rfe | rfi | rft | tlbw _ _ | tlbr _ _ => simp [sources, mem_privilegedSources, Reads]
  | _ => simp [sources, Reads]

/-! ### Steps -/

section
variable {s u t : State}

/-- A tick that is not a model fault answers a next state, and then so does the step. -/
theorem step_goes_or_faults (s : State) : (∃ t, step s = .next t) ∨
    (step s = .fault .unwrittenRegister ∧ ∃ pa i, translateVa s.core s.core.pc .fetch = some pa ∧
      decode (physRead (beginVisit s) pa .word).1 = .ok i ∧ ¬ Readable s i) := by
  cases hover : s.runOver with
  | true => exact .inl ⟨s, by simp [step, machineStep, hover]⟩
  | false =>
    by_cases hinert : s.core.run = .halted ∨ s.core.stuck = true
    · exact .inl ⟨_, by rw [step, machineStep_visit decode hover, visit_inert decode (by simpa using hinert)]⟩
    · obtain ⟨hrun, hstuck⟩ := not_or.mp hinert
      rw [step, machineStep_ticks decode hrun (by simpa using hstuck)]
      rcases coreTick_goes decode (beginVisit s) with ⟨u, hu⟩ | ⟨hf, pa, i, hpa, hd, hr⟩
      · exact .inl ⟨_, by rw [hu]; rfl⟩
      · exact .inr ⟨by rw [hf]; rfl, pa, i, by simpa using hpa, hd, mt (readable_fetched s pa i).mpr hr⟩

/-- Under ALIGN_DOWN and without NESTED_TRAP_FATAL no instruction sticks its core. -/
theorem exec_stuckKept {i : Instr} (ha : s.params.misalign = .alignDown) (hn : s.params.nestedTrapFatal = false)
    (h : exec i s = .next t) : t.core.stuck = s.core.stuck :=
  (kind_stuck (exec_kind h)).resolve_right fun ⟨_, hc⟩ =>
    hc.elim (fun hr => by rw [ha] at hr; cases hr) fun ht => ht (.inl hn)

/-- Nor does any tick. -/
theorem ticks_stuckKept (ha : s.params.misalign = .alignDown) (hn : s.params.nestedTrapFatal = false) (h : Ticks s u) :
    u.core.stuck = s.core.stuck := by
  have henters : TrapsEnter s := .inl hn
  cases h with
  | interrupt | sleeps | miss => rfl
  | illegal pa => rw [trapEntry_core_stuck, physRead_core]
  | missStick h | illegalStick _ h => exact absurd henters h
  | runs pa i _ h =>
    rw [exec_stuckKept (by simpa using ha) (by simpa using hn) h, physRead_core]

theorem step_stuckKept (ha : s.params.misalign = .alignDown) (hn : s.params.nestedTrapFatal = false)
    (h : step s = .next t) : t.cores.map (·.stuck) = s.cores.map (·.stuck) := by
  have hend (u : State) : (endVisit u).cores.map (·.stuck) = u.cores.map (·.stuck) :=
    map_eq_of_forall₂ (f := (·.stuck)) (fun _ _ => touched_stuck) (endVisit_touched u)
  have htick {u : State} (hu : coreTick decode (beginVisit s) = .next u) :
      u.cores.map (·.stuck) = s.cores.map (·.stuck) := by
    rw [← beginVisit_cores s]
    exact map_eq_of_forall₂ (R := fun c d => d.stuck = c.stuck) (fun _ _ h => h)
      (tickKeeps_cores (coreTick_keeps hu) (fun _ _ => touched_stuck)
        (ticks_stuckKept (by simpa using ha) (by simpa using hn) (coreTick_ticks hu)))
  rcases machineStep_cases (L := decode) h with ⟨_, rfl⟩ | ⟨_, _, rfl⟩ | ⟨_, _, u, hu, ⟨_, rfl⟩ | ⟨_, rfl⟩⟩
  · rfl
  · rw [hend, beginVisit_cores]
  · rw [hend, htick hu]
  · rw [hend, dmaStep_cores, htick hu]

end

/-- Settles O11: a step goes or is the one model fault, whose register is one that the instruction reads. -/
theorem defaultMachineNeverStops : Obligations.DefaultMachineNeverStops := by
  refine ⟨fun i s => exec_goes s i, mem_sources, fun s => ⟨fun hz => ?_, fun f hf => ?_, fun r hr => ?_,
    fun t h ha hn => step_stuckKept ha hn h⟩⟩ <;> rcases step_goes_or_faults s with ⟨t, ht⟩ | ⟨hfault, pa, i, hpa, hd, hread⟩
  · exact ⟨t, ht⟩
  · exact absurd (.inl hz) hread
  · rw [ht] at hf; cases hf
  · rw [hfault] at hf; cases hf
    refine ⟨rfl, ?_, pa, i, hpa, hd, hread⟩
    cases hu : s.params.resetUnwritten with
    | zero => exact absurd (.inl hu) hread
    | fault => rfl
  · rw [ht] at hr; cases hr
  · rw [hfault] at hr; cases hr

end Sys2Proof.Proofs
end

section
/-! Proofs of the statements about logic, shifts, the flags and the moves (spec/40_alu.md). -/
namespace Sys2Proof.Proofs

open Sys2Proof Sys2Proof.Machine

/-! ### Logic and shifts -/

/-- An instruction that is the shared ALU write of LogicCV. -/
theorem aluLogic_computes {s : State} {i : Instr} {rD : Reg} {r : Word} (h : exec i s = writeAlu s rD (aluLogic r)) :
    Computes s i rD r false false :=
  writeAlu_computes s i rD r false false h

/-- Settles O25: the three forms are the shared ALU write of LogicCV. -/
theorem logicResultsAndFlags : Obligations.LogicResultsAndFlags := fun _ _ _ _ =>
  ⟨aluLogic_computes rfl, aluLogic_computes rfl, aluLogic_computes rfl⟩

/-- The shift amount is the register modulo 32. -/
theorem shiftAmount_eq (b : Word) : shiftAmount b = b.toNat % 32 := by
  simp [shiftAmount, BitVec.extractLsb'_toNat]

/-- Bit k of a rotation is the bit n places above it, around the end (R151). -/
theorem rotateRightBy_bit (a : Word) (n k : Nat) (hn : n < 32) (hk : k < 32) :
    (rotateRightBy a n).getLsbD k = a.getLsbD ((k + n) % 32) := by
  unfold rotateRightBy
  by_cases h0 : n = 0
  · rw [if_pos h0, h0, Nat.add_zero, Nat.mod_eq_of_lt hk]
  rw [if_neg h0, BitVec.getLsbD_or, BitVec.getLsbD_ushiftRight, BitVec.getLsbD_shiftLeft]
  by_cases hwrap : k + n < 32
  · rw [Nat.mod_eq_of_lt hwrap]
    simp [show k < 32 - n by omega, Nat.add_comm]
  · have hmod : (k + n) % 32 = k - (32 - n) := by omega
    rw [hmod, BitVec.getLsbD_of_ge a (n + k) (by omega)]
    simp [hk, show ¬ k < 32 - n by omega]

/-- Settles O26: each form is the shared ALU write of its shift, whose bits the library and `rotateRightBy_bit` give. -/
theorem shiftResultsBitByBit : Obligations.ShiftResultsBitByBit := by
  intro s rD rA rB
  have hn : (s.reg rB).toNat % 32 < 32 := Nat.mod_lt _ (by omega)
  refine ⟨⟨_, aluLogic_computes rfl, fun k hk => ?_⟩, ⟨_, aluLogic_computes rfl, fun k hk => ?_⟩,
    ⟨_, aluLogic_computes rfl, fun k hk => ?_⟩⟩ <;> rw [shiftAmount_eq]
  · rw [BitVec.getLsbD_shiftLeft, ← decide_not]; simp [hk]
  · rw [BitVec.getLsbD_ushiftRight, Nat.add_comm]
  · exact rotateRightBy_bit _ _ _ hn hk

/-! ### What C and V say -/

theorem topBit_eq (x : Word) : x.getLsbD 31 = decide (2 ^ 31 ≤ x.toNat) := by
  simpa [BitVec.msb_eq_getLsbD_last] using BitVec.msb_eq_decide x

/-- A word's signed value, by its unsigned one. -/
theorem toInt_eq_ite (x : Word) : x.toInt = if 2 ^ 31 ≤ x.toNat then (x.toNat : Int) - 2 ^ 32 else (x.toNat : Int) := by
  rw [BitVec.toInt_eq_toNat_cond]
  split <;> split <;> omega

/-- C of AddCV is set exactly where the unsigned sum does not fit. -/
theorem add_carry_iff (a b : Word) : 2 ^ 32 ≤ a.toNat + b.toNat ↔ a.toNat + b.toNat ≠ (a + b).toNat := by
  rw [BitVec.toNat_add]; have := a.isLt; have := b.isLt; omega

/-- V of AddCV is set exactly where the signed sum does not fit. -/
theorem add_overflow_iff (a b : Word) :
    (a.getLsbD 31 == b.getLsbD 31 && (a + b).getLsbD 31 != a.getLsbD 31) = true ↔ a.toInt + b.toInt ≠ (a + b).toInt := by
  have ha := a.isLt
  have hb := b.isLt
  simp only [topBit_eq, toInt_eq_ite, BitVec.toNat_add, Bool.and_eq_true, beq_iff_eq, bne_iff_ne, decide_eq_decide, ne_eq]
  split <;> split <;> split <;> omega

/-- C of SubCV is set exactly where the unsigned difference does not fit. -/
theorem sub_borrow_iff (a b : Word) : a.toNat < b.toNat ↔ (a.toNat : Int) - b.toNat ≠ (a - b).toNat := by
  rw [BitVec.toNat_sub]; have := a.isLt; have := b.isLt; omega

/-- V of SubCV is set exactly where the signed difference does not fit. -/
theorem sub_overflow_iff (a b : Word) :
    (a.getLsbD 31 != b.getLsbD 31 && (a - b).getLsbD 31 != a.getLsbD 31) = true ↔ a.toInt - b.toInt ≠ (a - b).toInt := by
  have ha := a.isLt
  have hb := b.isLt
  simp only [topBit_eq, toInt_eq_ite, BitVec.toNat_sub, Bool.and_eq_true, bne_iff_ne, decide_eq_decide, ne_eq]
  split <;> split <;> split <;> omega

/-- Settles O27: the flags that `add` and `sub` compute are exact. -/
theorem carryAndOverflowAreExact : Obligations.CarryAndOverflowAreExact := by
  intro s rD rA rB
  obtain ⟨t, ht, _, ⟨_, _, hc, hv⟩, _⟩ := addResultAndFlags s rD rA rB
  obtain ⟨u, hu, _, ⟨_, _, hc', hv'⟩, _⟩ := subResultAndFlags s rD rA rB
  refine ⟨⟨t, ht, ?_, ?_⟩, u, hu, ?_, ?_⟩
  · rw [hc, decide_eq_true_iff]; exact add_carry_iff _ _
  · rw [hv]; exact add_overflow_iff _ _
  · rw [hc', decide_eq_true_iff]; exact sub_borrow_iff _ _
  · rw [hv']; exact sub_overflow_iff _ _

/-! ### Branches -/

/-- Settles O38: each branch is `branchIf` on its predicate's bits. -/
theorem branchesFollowTheirPredicate : Obligations.BranchesFollowTheirPredicate := by
  intro s disp z n c v
  refine ⟨branchIf_branches s _ true _ disp rfl (by simp), branchIf_branches s _ z _ disp rfl Iff.rfl,
    branchIf_branches s _ (!z) _ disp rfl (by simp), branchIf_branches s _ n _ disp rfl Iff.rfl,
    branchIf_branches s _ (!n) _ disp rfl (by simp), branchIf_branches s _ c _ disp rfl Iff.rfl,
    branchIf_branches s _ (!c) _ disp rfl (by simp), branchIf_branches s _ v _ disp rfl Iff.rfl,
    branchIf_branches s _ (!v) _ disp rfl (by simp), branchIf_branches s _ (n != v) _ disp rfl (by simp),
    branchIf_branches s _ (!(n != v)) _ disp rfl (by simp), branchIf_branches s _ (z || n != v) _ disp rfl (by simp),
    branchIf_branches s _ c _ disp rfl Iff.rfl, branchIf_branches s _ (!c) _ disp rfl (by simp),
    branchIf_branches s _ (c || z) _ disp rfl (by simp)⟩

/-- After a subtraction Z says that the operands are equal. -/
theorem sub_zero_iff (a b : Word) : (a - b == 0#32) = true ↔ a = b := by
  rw [beq_iff_eq]; exact sub_eq_zero

/-- After a subtraction N differs from V exactly where the first operand is the signed less (R211). -/
theorem sub_signed_less_iff (a b : Word) :
    ((a - b).getLsbD 31 != (a.getLsbD 31 != b.getLsbD 31 && (a - b).getLsbD 31 != a.getLsbD 31)) = true ↔
      a.toInt < b.toInt := by
  have ha := a.isLt
  have hb := b.isLt
  rw [toInt_eq_ite, toInt_eq_ite, topBit_eq, topBit_eq, topBit_eq, BitVec.toNat_sub]
  by_cases h1 : 2147483648 ≤ a.toNat <;> by_cases h2 : 2147483648 ≤ b.toNat <;> simp [h1, h2] <;> omega

/-- Settles O28: what Z, C and N ≠ V of a subtraction say, for the eight branches. -/
theorem cmpDecidesTheBranches : Obligations.CmpDecidesTheBranches := by
  intro s rA rB disp
  obtain ⟨t, ht, ⟨hz, hn, hc, hv⟩, _⟩ := cmpFlags s rA rB
  have hzero : flagZ t.core.flg = true ↔ s.reg rA = s.reg rB := by rw [hz]; exact sub_zero_iff _ _
  have hless : condLess t.core.flg = true ↔ (s.reg rA).toInt < (s.reg rB).toInt := by
    rw [condLess, hn, hv]; exact sub_signed_less_iff _ _
  have hbelow : flagC t.core.flg = true ↔ (s.reg rA).toNat < (s.reg rB).toNat := by rw [hc, decide_eq_true_iff]
  have hinj : s.reg rA = s.reg rB ↔ (s.reg rA).toInt = (s.reg rB).toInt := BitVec.toInt_inj.symm
  have hinjNat : s.reg rA = s.reg rB ↔ (s.reg rA).toNat = (s.reg rB).toNat := BitVec.toNat_inj.symm
  refine ⟨t, ht, branchIf_branches t _ _ _ disp rfl hzero.symm, branchIf_branches t _ _ _ disp rfl ?_,
    branchIf_branches t _ _ _ disp rfl hless.symm, branchIf_branches t _ _ _ disp rfl ?_,
    branchIf_branches t _ _ _ disp rfl ?_, branchIf_branches t _ _ _ disp rfl hbelow.symm,
    branchIf_branches t _ _ _ disp rfl ?_, branchIf_branches t _ _ _ disp rfl ?_⟩
  · rw [Bool.not_eq_true', ← Bool.not_eq_true, hzero]
  · rw [Bool.not_eq_true', ← Bool.not_eq_true, hless]; omega
  · rw [condLessEq, Bool.or_eq_true, hzero, hless, hinj]; omega
  · rw [Bool.not_eq_true', ← Bool.not_eq_true, hbelow]; omega
  · rw [condBelowEq, Bool.or_eq_true, hzero, hbelow, hinjNat]; omega

/-! ### Moves -/

/-- Settles O29: each form is the shared move. -/
theorem movesWriteTheirValue : Obligations.MovesWriteTheirValue := fun s rD _ _ =>
  ⟨writeMove_moves s _ rD _ rfl, writeMove_moves s _ rD _ rfl, writeMove_moves s _ rD _ rfl⟩

/-- Settles O30: `movi.h` is the shared move of the two halves. -/
theorem moviHKeepsTheLowerHalf : Obligations.MoviHKeepsTheLowerHalf := fun s rD _ => writeMove_moves s _ rD _ rfl

/-- Twice shifted is four times, with no low bit left to clear. -/
theorem alignPc_shiftLeft_two (x : Word) : x <<< 2 &&& 0xFFFFFFFC#32 = BitVec.ofNat 32 (4 * x.toNat) := by
  have hbits : ∀ n : Nat, n <<< 2 = 4 * n := fun n => by rw [Nat.shiftLeft_eq]; omega
  have hshift : x <<< 2 = BitVec.ofNat 32 (4 * x.toNat) := by
    apply BitVec.eq_of_toNat_eq; rw [BitVec.toNat_shiftLeft, BitVec.toNat_ofNat, hbits]
  rw [← hshift]
  apply BitVec.eq_of_getLsbD_eq
  intro i hi
  rw [BitVec.getLsbD_and, BitVec.getLsbD_shiftLeft]
  interval_cases i <;> simp

/-- Settles O31: `adpc` is the shared move, `jmp` the shared jump. -/
theorem adpcAndJmpMakeTheirAddress : Obligations.AdpcAndJmpMakeTheirAddress := fun s rD _ imm =>
  ⟨writeMove_moves s _ rD _ rfl, alignPc_shiftLeft_two imm ▸ jump_goes s _ (imm <<< 2) rfl⟩

end Sys2Proof.Proofs
end

section
/-! Proofs of the statements about memory and the memory instructions (spec/20_memory.md, spec/41_loadstore.md). -/
namespace Sys2Proof.Proofs

open Sys2Proof Sys2Proof.Machine

/-! ### Loads, stores, fada -/

/-- Settles O32: each form is the shared load at its address. -/
theorem loadsReadTheirAddress : Obligations.LoadsReadTheirAddress := fun s rD rA disp =>
  ⟨loadTo_loads s _ rD .word (s.core.pc + disp) rfl, loadTo_loads s _ rD .word (s.reg rA + disp) rfl,
    loadTo_loads s _ rD .half (s.reg rA + disp) rfl, loadTo_loads s _ rD .byte (s.reg rA + disp) rfl⟩

/-- Settles O33: each form is the shared store at its address. -/
theorem storesWriteTheirAddress : Obligations.StoresWriteTheirAddress := fun s rS rA disp hm =>
  ⟨storeFrom_stores s hm _ (s.reg rS) .word (s.core.pc + disp) rfl,
    storeFrom_stores s hm _ (s.reg rS) .word (s.reg rA + disp) rfl,
    storeFrom_stores s hm _ (s.reg rS) .half (s.reg rA + disp) rfl,
    storeFrom_stores s hm _ (s.reg rS) .byte (s.reg rA + disp) rfl⟩

/-- A read leaves of the state what it answers for the devices. -/
theorem physRead_state (s : State) (pa : Word) (w : Width) :
    (physRead s pa w).2 = { s with dev := (physRead s pa w).2.dev } := by
  unfold physRead; split <;> rfl

/-- Settles O34: `fada` is a read and a write at one address, and then a register write. -/
theorem fadaAddsInOneStep : Obligations.FadaAddsInOneStep := by
  intro s rD rA rV disp pa hm ha
  have hplain : Plain s
      ((((physWrite (physRead s pa .word).2 pa .word ((physRead s pa .word).1 + s.reg rV)).setReg rD
        (physRead s pa .word).1)).advance) [rD] [] :=
    (plain_physRead s pa _).trans ((plain_physWrite _ pa _ _).trans
      ((plain_setReg _ _ (List.mem_singleton.mpr rfl)).trans (plain_advance _)))
  refine ⟨_, _, _, withAccess_at ha _, physRead_readsAs s pa .word, ?_, ?_, by simp, hplain.beyond, hplain.core.hidden,
    hplain.core.registers⟩
  · rw [← physRead_state]
    exact physWrite_writesAs _ (by simpa using hm) pa .word _
  · exact ⟨by simp [State.reg], by simp⟩

/-! ### Where an access fails -/

/-- An instruction with a data access is that access and what follows it. -/
theorem exec_withAccess {s : State} {i : Instr} {ea : Word} {w : Width} {n : Intent} (h : dataAccess s i = some (ea, w, n)) :
    ∃ k, exec i s = withAccess s ea w n k := by
  cases i with
  | lw _ _ | sw _ _ | lwa _ _ _ | swa _ _ _ | lda _ _ _ | sda _ _ _ | lba _ _ _ | sba _ _ _ | fada _ _ _ _ | push _ | call _
  | pop _ | ret => cases h; exact ⟨_, rfl⟩
  | _ => cases h

/-- Settles O35: the access is the first thing the instruction does, and its miss is `raiseMiss`. -/
theorem dataMissIsPrecise : Obligations.DataMissIsPrecise := by
  intro s i ea va w n hd hmiss
  obtain ⟨k, hk⟩ := exec_withAccess hd
  rw [hk, withAccess_miss hmiss]
  exact ⟨fun ht => ⟨_, raiseMiss_enters ht va, missEntry_taken s va, rfl, miss_frame s va _ _ _⟩,
    fun ht => raiseMiss_sticks ht va⟩

/-- An address is misaligned where it is no multiple of its width. -/
theorem and_lowMask_eq_zero_iff (ea : Word) (w : Width) : ea &&& lowMask w = 0#32 ↔ ea.toNat % widthBytes w = 0 := by
  rw [← BitVec.toNat_inj, BitVec.toNat_and]
  cases w with
  | byte => simp [lowMask, widthBytes, Nat.mod_one]
  | half => simp [lowMask, widthBytes, Nat.and_one_is_mod]
  | word => simpa [lowMask, widthBytes] using (Nat.and_two_pow_sub_one_eq_mod ea.toNat 2 ▸ Iff.rfl)

/-- Clearing the low `k` bits rounds down to a multiple of `2 ^ k`. -/
theorem and_not_ones (x : Word) (k : Nat) :
    x &&& ~~~BitVec.ofNat 32 (2 ^ k - 1) = BitVec.ofNat 32 (x.toNat / 2 ^ k * 2 ^ k) := by
  apply BitVec.eq_of_getLsbD_eq
  intro i hi
  rw [BitVec.getLsbD_and, BitVec.getLsbD_not, BitVec.getLsbD_ofNat, BitVec.getLsbD_ofNat, Nat.testBit_two_pow_sub_one,
    Nat.testBit_mul_two_pow, Nat.testBit_div_two_pow]
  by_cases h : i < k
  · simp [hi, h]
  · simp [hi, h, show k ≤ i by omega, BitVec.getLsbD]

/-- The aligned container starts at the multiple of the width below. -/
theorem and_not_lowMask (ea : Word) (w : Width) :
    ea &&& ~~~lowMask w = BitVec.ofNat 32 (ea.toNat / widthBytes w * widthBytes w) := by
  cases w with
  | byte => exact and_not_ones ea 0
  | half => exact and_not_ones ea 1
  | word => exact and_not_ones ea 2

/-- Settles O36: what `alignAddr` answers under each value of MISALIGN. -/
theorem misalignDecidesTheAccess : Obligations.MisalignDecidesTheAccess := by
  intro s i ea w n hd
  refine ⟨fun hr hmis => ?_, fun hr hok pa => ?_, fun ha pa => ?_⟩
  · obtain ⟨k, hk⟩ := exec_withAccess hd
    rw [hk]
    refine withAccess_refused ?_ k
    rw [hr, alignAddr, if_neg (mt (and_lowMask_eq_zero_iff ea w).mp hmis)]
  · rw [AccessAt, hr, alignAddr, if_pos ((and_lowMask_eq_zero_iff ea w).mpr hok)]
    simp
  · rw [AccessAt, ha, alignAddr, and_not_lowMask]
    simp

/-! ### The physical map -/

theorem inVga_iff (a n : Nat) : InVga a n ↔
    (0x07FBD000 ≤ a ∧ a + n ≤ 0x07FC0000) ∨ (0x07FC0000 ≤ a ∧ a + n ≤ 0x07FE0000) ∨
      (0x07FE8000 ≤ a ∧ a + n ≤ 0x07FF0000) ∨ (0x07FF0000 ≤ a ∧ a + n ≤ 0x08000000) := by
  simp [InVga]

theorem widthBytes_cases (w : Width) : widthBytes w = 1 ∨ widthBytes w = 2 ∨ widthBytes w = 4 := by
  cases w <;> simp [widthBytes]

section
variable {a n k : Nat} (hn : n = 1 ∨ n = 2 ∨ n = 4) (ha : a % n = 0) (hk : k < n)
include hn ha hk

/-- Every device region starts and ends at a multiple of 4, so an aligned access lies in one as each of its bytes does. -/
theorem inVga_byte_iff : InVga (a + k) 1 ↔ InVga a n := by
  simp only [inVga_iff]
  rcases hn with rfl | rfl | rfl <;> omega

theorem inPorts_byte_iff : InPorts (a + k) 1 ↔ InPorts a n := by
  unfold InPorts
  rcases hn with rfl | rfl | rfl <;> omega

end

/-- An aligned access is RAM's below RAM_SIZE, where no device has it. -/
theorem inRam_iff (p : Params) {a n : Nat} (hn : n = 1 ∨ n = 2 ∨ n = 4) (ha : a % n = 0) :
    InRam p a n ↔ a + n ≤ p.ramSize ∧ ¬ InVga a n ∧ ¬ InPorts a n := by
  refine and_congr_right fun _ => ⟨fun h => ?_, fun ⟨hv, hp⟩ k hk => ?_⟩
  · have h0 := h 0 (by omega)
    rwa [inVga_byte_iff hn ha (by omega), inPorts_byte_iff hn ha (by omega)] at h0
  · exact ⟨mt (inVga_byte_iff hn ha hk).mp hv, mt (inPorts_byte_iff hn ha hk).mp hp⟩

theorem portWindow_has_iff {a n : Nat} (hn : n = 1 ∨ n = 2 ∨ n = 4) (ha : a % n = 0) :
    portWindow.has a = true ↔ InPorts a n := by
  rw [portWindow_has, ← inPorts_byte_iff hn ha (k := 0) (by omega), InPorts]; omega

theorem storageRegions_has_iff {a n : Nat} (hn : n = 1 ∨ n = 2 ∨ n = 4) (ha : a % n = 0) :
    storageRegions.any (·.has a) = true ↔ InVga a n := by
  rw [storageRegions_has, ← inVga_byte_iff hn ha (k := 0) (by omega), inVga_iff]; omega

/-- The port window and the VGA regions do not overlap. -/
theorem not_inVga_of_inPorts {a n : Nat} (hn : 0 < n) (h : InPorts a n) : ¬ InVga a n := by
  rw [inVga_iff]; unfold InPorts at h; omega

/-- Where an aligned access goes: devices first, then RAM, then nowhere (R78). -/
theorem physicalMap (p : Params) : PhysicalMap p := by
  intro pa w
  dsimp only
  intro ha
  have hn := widthBytes_cases w
  have hp := portWindow_has_iff hn ha
  have hs := storageRegions_has_iff hn ha
  rw [inRam_iff p hn ha]
  by_cases hport : InPorts pa.toNat (widthBytes w)
  · have hvga := not_inVga_of_inPorts (by omega) hport
    rw [place, if_pos (hp.mpr hport)]; simp [hport, hvga]
  · by_cases hvga : InVga pa.toNat (widthBytes w)
    · rw [place, if_neg (mt hp.mp hport), if_pos (hs.mpr hvga)]; simp [hport, hvga]
    · rw [place, if_neg (mt hp.mp hport), if_neg (mt hs.mp hvga)]
      by_cases hram : pa.toNat + widthBytes w ≤ p.ramSize <;> simp [hport, hvga, hram]

/-- Settles O37: the map, and the bytes of a storage access as `ReadsAs` and `WritesAs` have them. -/
theorem memoryIsLittleEndian : Obligations.MemoryIsLittleEndian := by
  refine ⟨physicalMap, fun s pa w v hplace hm => ?_⟩
  obtain ⟨⟨hlt, hread⟩, _⟩ := (physRead_readsAs s pa w).1 hplace
  obtain ⟨⟨hwrite, _⟩, _⟩ := (physWrite_writesAs s hm pa w v).1 hplace
  exact ⟨fun k hk => ⟨hread k hk, hwrite k hk⟩, hlt⟩

/-! ### The stack -/

/-- Settles O40: `push` and `call` are the shared push, going on or branching. -/
theorem pushAndCallStoreBelowTheStack : Obligations.PushAndCallStoreBelowTheStack := by
  intro s rS disp hm
  refine ⟨pushWord_pushes s hm _ _ _ _ rfl fun t hpc => ?_,
    pushWord_pushes s hm _ _ (fun t => t.jump (branchTarget s disp)) _ rfl fun t _ => ?_⟩
  · exact ⟨advance_frame t, rfl, by rw [advance_core_pc, hpc]⟩
  · exact ⟨jump_frame t _, rfl, rfl⟩

/-- Settles O41: `pop` and `ret` are the shared pop, into a register or into the pc. -/
theorem popAndRetLoadFromTheStack : Obligations.PopAndRetLoadFromTheStack := by
  intro s rD pa ha
  have hread := physRead_readsAs s pa .word
  have hplain : Plain s ((physRead s pa .word).2.setReg spReg (s.reg spReg + 4#32)) [spReg, rD] [] :=
    (plain_physRead s pa _).trans (plain_setReg _ _ (by simp))
  have hpop := hplain.trans ((plain_setReg _ (physRead s pa .word).1 (r := rD) (by simp)).trans (plain_advance _))
  have hret : Plain s
      (((physRead s pa .word).2.setReg spReg (s.reg spReg + 4#32)).jump (physRead s pa .word).1) [spReg] [] :=
    (plain_physRead s pa _).trans ((plain_setReg _ _ (by simp)).trans (plain_jump _ _))
  refine ⟨⟨_, _, withAccess_at ha _, hread, ⟨by simp [State.reg], by simp⟩, fun hne => ?_, by simp, hpop.beyond,
    hpop.core.hidden, hpop.core.registers, by simp⟩, _, _, withAccess_at ha _, hread, rfl, ?_, hret.beyond,
    hret.core.hidden, hret.core.registers, by simp⟩
  · rw [State.reg, advance_reg, setReg_core, reg_setReg_other _ _ _ _ hne.symm]; simp [spReg]
  · rw [State.reg, jump_reg]; simp [spReg]

/-- A push whose word lies in storage leaves that word there, and the stack pointer at it (R231). -/
theorem push_storage {s t : State} {r : Reg} {pa : Word} (hm : Memory.wf s.mem = true)
    (hplace : place s.params pa .word = .storage) (ha : AccessAt s (s.reg spReg - 4#32) .word .store pa)
    (h : exec (.push r) s = .next t) :
    Memory.readLE t.mem pa.toNat .word = s.reg r ∧ t.reg spReg = s.reg spReg - 4#32 ∧ Plain s t [spReg] [] ∧
      t.core.pc = s.core.pc + 4#32 := by
  have ht := (withAccess_at ha _).symm.trans h
  cases ht
  refine ⟨?_, by simp [State.reg, spReg],
    (plain_physWrite s pa _ _).trans ((plain_setReg _ _ (by simp)).trans (plain_advance _)), by simp⟩
  have hbytes := ((physWrite_writesAs s hm pa .word (s.reg r)).1 hplace).1.1
  refine bytesAre_unique (readLE_bytesAre _ _ _) ⟨(s.reg r).isLt, fun k hk => ?_⟩
  simpa using (hbytes k hk).symm

/-- An access depends on MISALIGN and the core's mode, pid and TLB alone. -/
theorem accessAt_plain {s t : State} {regs : List Reg} (h : Plain s t regs []) (ea : Word) (w : Width) (n : Intent)
    (pa : Word) : AccessAt t ea w n pa ↔ AccessAt s ea w n pa := by
  obtain ⟨hparams, _⟩ := h.beyond
  obtain ⟨hmode, _, _, _, htlb, _⟩ := h.core.hidden
  have hpid : t.core.pid = s.core.pid := by
    have hread : t.core.pid.zeroExtend 32 = s.core.pid.zeroExtend 32 :=
      (h.core.registers.2 .pid (by simp) (by cases s.core.mode <;> simp [stackCReg])).1
    simpa using congrArg (BitVec.setWidth 8) hread
  simp only [AccessAt, hparams, translateVa_congr s.core t.core hmode hpid htlb]

/-- Settles O42: the pop's access is the push's, and what it reads is the word that the push wrote. -/
theorem pushThenPopRestores : Obligations.PushThenPopRestores := by
  intro s t r pa hm hr hplace hstore hload h
  obtain ⟨hword, hsp, hplain, hpc⟩ := push_storage hm hplace hstore h
  obtain ⟨hparams, _⟩ := hplain.beyond
  have hpop : AccessAt t (t.reg spReg) .word .load pa := hsp ▸ (accessAt_plain hplain _ _ _ _).mpr hload
  obtain ⟨u, v, hu, hread, ⟨hreg, _⟩, hsp', hpc', _, _, hkept, _⟩ := (popAndRetLoadFromTheStack t r pa hpop).1
  have hv : v = s.reg r := by
    rw [← hword]
    exact bytesAre_unique (hread.1 (hparams ▸ hplace)).1 (readLE_bytesAre _ _ _)
  refine ⟨u, hu, fun q => ?_, ?_⟩
  · by_cases hq : q = r
    · rw [hq, hreg, hv]
      split
      · next h0 => rw [h0]; rfl
      · rfl
    by_cases hqsp : q = spReg
    · rw [hqsp, hsp' hr, hsp, BitVec.sub_add_cancel]
    · exact (hkept.1 q (by simp [hq, hqsp])).1.trans (hplain.core.registers.1 q (by simp [hqsp])).1
  · rw [hpc', hpc, BitVec.add_assoc]; rfl

end Sys2Proof.Proofs
end

section
/-! Proofs of the statements about the system instructions and the TLB (spec/43_system.md, spec/20_memory.md section 4). -/
namespace Sys2Proof.Proofs

open Sys2Proof Sys2Proof.Machine

/-! ### Control registers -/

/-- A control register keeps its held bits of a value; cid keeps its own. -/
theorem keptBits_eq (c : CoreState) (q : CReg) (v : Word) :
    keptBits c q v = if q = .cid then c.cid else v &&& heldBits q := by
  have hall : v &&& 0xFFFFFFFF#32 = v := BitVec.and_allOnes
  cases q with
  | pid | imr | isr | efg | flg | cid => rfl
  | epc | ksp | isp | usp | tlb | mbi | mbo | cdv => exact hall.symm

/-- A write of a control register reaches it and, where it is the mode's stack pointer, r31. -/
theorem keeps_writeCr (c : CoreState) (q : CReg) (v : Word) :
    Keeps c (c.writeCr q v) (if q = stackCReg c.mode then [spReg] else []) [q] := by
  refine ⟨by cases q <;> exact ⟨rfl, rfl, rfl, rfl, rfl, rfl, rfl⟩, fun r hr => ?_, fun p hp _ => ?_⟩
  · have hne : ¬ (r = spReg ∧ q = stackCReg c.mode) := fun ⟨h1, h2⟩ =>
      hr (by rw [if_pos h2, h1]; exact List.mem_singleton.mpr rfl)
    rw [reg_writeCr, regWritten_writeCr, if_neg hne, if_neg hne]; exact ⟨rfl, rfl⟩
  · have hne : p ≠ q := fun h => hp (List.mem_singleton.mpr h)
    rw [readCr_writeCr, crWritten_writeCr, if_neg hne, if_neg hne]; exact ⟨rfl, rfl⟩

theorem writeCr_pc (c : CoreState) (q : CReg) (v : Word) : (c.writeCr q v).pc = c.pc := by cases q <;> rfl

/-- Settles O43: one control-register write and the advance. -/
theorem crmvWritesTheHeldBits : Obligations.CrmvWritesTheHeldBits := by
  intro s k rS q hm hk
  have hexec : exec (.crmvW k rS) s = .next ((s.withCore (s.core.writeCr q (s.reg rS))).advance) :=
    (withCReg_some hk _).trans (privileged_other hm _)
  obtain ⟨hhidden, hregs⟩ := keeps_trans (keeps_writeCr s.core q (s.reg rS)) (keeps_pc _ (s.core.pc + 4#32))
  refine ⟨_, hexec, ?_, ?_, ?_, sameOutside_refl s, ?_, ?_⟩
  · rw [advance_readCr, withCore_core, readCr_writeCr, if_pos rfl, keptBits_eq]
  · rw [advance_crWritten, withCore_core, crWritten_writeCr, if_pos rfl]
  · rw [advance_core_pc, withCore_core, writeCr_pc]
  · simpa [State.advance, State.withCore, writeCr_pc] using hhidden
  · simpa [State.advance, State.withCore, writeCr_pc] using hregs

theorem registersReadTheirFields (c : CoreState) : RegistersReadTheirFields c := by
  refine ⟨⟨reg_zero c, reg_slot c, fun h => ?_, fun h => ?_, fun h => ?_⟩, rfl, rfl, rfl, rfl, rfl, rfl, rfl, rfl, rfl, rfl,
    rfl, rfl, rfl, rfl⟩ <;> exact (reg_sp c).trans (by rw [h]; rfl)

/-- `crmv rD, crS` outside user mode is the shared move of the register's value. -/
theorem crmvR_moves {s : State} (hm : s.core.mode ≠ .user) {k : CrIndex} {q : CReg} (hk : CReg.ofIndex k = some q) (rD : Reg) :
    MovesValue s (.crmvR rD k) rD (s.core.readCr q) :=
  writeMove_moves s _ rD _ ((withCReg_some hk _).trans (privileged_other hm _))

/-- A value extended from `n` bits has none above them. -/
theorem setWidth_and_not_ones {n : Nat} (x : BitVec n) : x.setWidth 32 &&& ~~~BitVec.ofNat 32 (2 ^ n - 1) = 0#32 := by
  apply BitVec.eq_of_getLsbD_eq
  intro i hi
  rw [BitVec.getLsbD_and, BitVec.getLsbD_not, BitVec.getLsbD_setWidth, BitVec.getLsbD_ofNat, Nat.testBit_two_pow_sub_one]
  by_cases h : i < n
  · simp [h]
  · simp [BitVec.getLsbD_of_ge x i (by omega)]

/-- A control register reads 0 in its unheld bits, imr where its own are 0. -/
theorem readCr_and_not_heldBits (c : CoreState) (q : CReg) (himr : c.imr &&& 0x7FFF0000#32 = 0#32) :
    c.readCr q &&& ~~~heldBits q = 0#32 := by
  cases q with
  | imr => exact himr
  | pid => exact setWidth_and_not_ones c.pid
  | isr => exact setWidth_and_not_ones c.isr
  | efg => exact setWidth_and_not_ones c.efg
  | flg => exact setWidth_and_not_ones c.flg
  | epc | ksp | isp | usp | tlb | mbi | mbo | cdv | cid => exact BitVec.and_zero

/-- Settles O44: the resolver's and the control registers' own equations. -/
theorem crmvReadsTheHeldBits : Obligations.CrmvReadsTheHeldBits :=
  ⟨registersReadTheirFields, fun s _ rD q hm hk => ⟨crmvR_moves hm hk rD, readCr_and_not_heldBits s.core q⟩⟩

/-- Settles O45: cr-index 13 is flg, read by zero extension. -/
theorem flagsStandInTheirBits : Obligations.FlagsStandInTheirBits := by
  intro s rD hm
  have hbit : ∀ k < 32, (s.core.readCr .flg).getLsbD k = s.core.flg.getLsbD k := fun k hk => by
    simp [CoreState.readCr, hk]
  refine ⟨_, crmvR_moves hm (q := .flg) rfl rD, hbit 0 (by omega), hbit 1 (by omega), hbit 2 (by omega), hbit 3 (by omega), ?_⟩
  have := s.core.flg.isLt
  simp only [CoreState.readCr, BitVec.truncate_eq_setWidth, BitVec.toNat_setWidth]
  omega

/-! ### The TLB -/

/-- Settles O52: what `translateVa` answers for the lookup's match, or for none. -/
theorem translationFollowsTheMatch : Obligations.TranslationFollowsTheMatch := by
  intro c va n hon
  have hon : translationEnabled c = true := by
    by_contra hoff
    obtain ⟨hinvalid, hpid⟩ := (translationEnabled_eq_false c).mp (Bool.eq_false_iff.mpr hoff)
    rcases hon with ⟨k, hk⟩ | hne
    · exact Bool.noConfusion ((hinvalid k).symm.trans hk)
    · exact hne hpid
  refine ⟨fun k hk => ?_, fun hnone => ?_⟩
  · have hmatch := tlbMatch_eq c va k hk
    rw [← allowed_iff]
    rcases translateVa_cases c va n with ⟨hoff, _⟩ | ⟨_, hmiss, _⟩ | ⟨j, _, hj, hallow⟩
    · exact Bool.noConfusion (hoff.symm.trans hon)
    · cases hmatch.symm.trans hmiss
    · cases hmatch.symm.trans hj
      rcases hallow with ⟨ha, he⟩ | ⟨ha, he⟩
      · exact ⟨fun _ => he, fun hno => absurd ha hno⟩
      · exact ⟨fun hyes => Bool.noConfusion (ha.symm.trans hyes), fun _ => he⟩
  · have hmiss := tlbMatch_none c va hnone
    rcases translateVa_cases c va n with ⟨hoff, _⟩ | ⟨_, _, he⟩ | ⟨j, _, hj, _⟩
    · exact Bool.noConfusion (hoff.symm.trans hon)
    · exact he
    · cases hmiss.symm.trans hj

/-- Settles O48: `tlbClear` invalidates where anything holds. -/
theorem tlbcClearsEveryEntry : Obligations.TlbcClearsEveryEntry := by
  intro s hm
  refine ⟨_, privileged_other hm _, fun k => ?_, rfl⟩
  exact (invalidateWhere_get _ _ k).trans (if_pos rfl)

/-- The slot and the other entries after an insertion, by the way that R247 finds the slot. -/
theorem tlbInsert_places (c : CoreState) (e : TlbEntry) : ∃ k : Fin 16, (tlbInsert c e).tlb[k] = e ∧
    (∀ j : Fin 16, j ≠ k →
      (EntryConflicts e c.tlb[j] → (tlbInsert c e).tlb[j] = { c.tlb[j] with valid := false }) ∧
      (¬ EntryConflicts e c.tlb[j] → (tlbInsert c e).tlb[j] = c.tlb[j])) ∧
    ((EntryConflicts e c.tlb[k] ∧ (∀ j, j < k → ¬ EntryConflicts e c.tlb[j]) ∧ (tlbInsert c e).tlbNext = c.tlbNext) ∨
      ((∀ j : Fin 16, ¬ EntryConflicts e c.tlb[j]) ∧ c.tlb[k].valid = false ∧ (∀ j, j < k → c.tlb[j].valid = true) ∧
        (tlbInsert c e).tlbNext = c.tlbNext) ∨
      ((∀ j : Fin 16, ¬ EntryConflicts e c.tlb[j]) ∧ (∀ j : Fin 16, c.tlb[j].valid = true) ∧ k = c.tlbNext ∧
        (tlbInsert c e).tlbNext = c.tlbNext + 1)) := by
  have hnot : ∀ {j : Fin 16}, conflicts e c.tlb[j] = false → ¬ EntryConflicts e c.tlb[j] := fun h hc =>
    Bool.noConfusion (h.symm.trans ((conflicts_iff _ _).mpr hc))
  have hput : ∀ (t : Tlb) (k : Fin 16), (putEntry t k e)[k] = e := fun t k => (putEntry_get t k k e).trans (if_pos rfl)
  rcases tlbInsert_cases c e with ⟨k, hk, h⟩ | ⟨hnone, k, hk, h⟩ | ⟨hnone, hfull, h⟩ <;> rw [h]
  · obtain ⟨hc, hlow⟩ := lowestSlot_some hk
    refine ⟨k, hput _ k, fun j hj => ?_, .inl ⟨(conflicts_iff _ _).mp hc, fun j hj => hnot (hlow j hj), rfl⟩⟩
    have hget : (putEntry (invalidateWhere c.tlb (conflicts e)) k e)[j] =
        if conflicts e c.tlb[j] then { c.tlb[j] with valid := false } else c.tlb[j] :=
      (putEntry_get _ k j e).trans ((if_neg hj).trans (invalidateWhere_get _ _ j))
    exact ⟨fun h => hget.trans (if_pos ((conflicts_iff _ _).mpr h)), fun h => hget.trans (if_neg (mt (conflicts_iff _ _).mp h))⟩
  · obtain ⟨hfree, hlow⟩ := lowestSlot_some hk
    have hno := fun j => hnot (lowestSlot_none hnone j)
    refine ⟨k, hput _ k, fun j hj => ⟨fun h => absurd h (hno j), fun _ => (putEntry_get _ k j e).trans (if_neg hj)⟩,
      .inr (.inl ⟨hno, by simpa using hfree, fun j hj => by simpa using hlow j hj, rfl⟩)⟩
  · have hno := fun j => hnot (lowestSlot_none hnone j)
    refine ⟨c.tlbNext, hput _ _, fun j hj => ⟨fun h => absurd h (hno j), fun _ => (putEntry_get _ _ j e).trans (if_neg hj)⟩,
      .inr (.inr ⟨hno, fun j => by simpa using lowestSlot_none hfull j, rfl, rfl⟩)⟩

/-- Settles O46: `tlbInsert_places`, with the frame of an insertion. -/
theorem tlbwInsertsOneEntry : Obligations.TlbwInsertsOneEntry := by
  intro s rE rV hm e
  obtain ⟨k, hk, hothers, hway⟩ := tlbInsert_places s.core e
  exact ⟨_, k, privileged_other hm _, hk, hothers, hway,
    congrArg (fun c => (s.withCore c).advance) (tlbInsert_frame s.core e)⟩

/-- `tlbr` outside user mode is the shared move of what the lookup answers. -/
theorem tlbr_moves {s : State} (hm : s.core.mode ≠ .user) (rD rV : Reg) :
    MovesValue s (.tlbr rD rV) rD (tlbLookup s.core (s.reg rV)) :=
  writeMove_moves s _ rD _ (privileged_other hm _)

theorem tlbLookup_match {c : CoreState} {va : Word} {k : Fin 16} (h : IsMatch c va k) :
    tlbLookup c va = c.tlb[k].ppn ++ c.tlb[k].flags := by
  rw [tlbLookup, tlbMatch_eq c va k h]

theorem tlbLookup_none {c : CoreState} {va : Word} (h : ∀ k : Fin 16, ¬ EntryHits c.pid va c.tlb[k]) :
    tlbLookup c va = 0#32 := by
  rw [tlbLookup, tlbMatch_none c va h]

/-- An entry that hits where the new one's page is looked up under its pid is in conflict with it. -/
theorem conflicts_of_hits {new e : TlbEntry} {va : Word} (hvpn : new.vpn = va.extractLsb' 12 20)
    (h : EntryHits new.pid va e) : EntryConflicts new e := by
  obtain ⟨hvalid, hva, hpid⟩ := h
  exact ⟨hvalid, hva.trans hvpn.symm, hpid.imp_right .inl⟩

/-- After `tlbw` the entry written is the match for every address of its page: every other hit would be a conflict. -/
theorem tlbw_match {s t : State} {rE rV : Reg} (hm : s.core.mode ≠ .user) (h : exec (.tlbw rE rV) s = .next t) {va : Word}
    (hva : va.extractLsb' 12 20 = (s.reg rV).extractLsb' 12 20) :
    ∃ k, IsMatch t.core va k ∧ t.core.tlb[k].ppn ++ t.core.tlb[k].flags = s.reg rE ∧ t.core.mode = s.core.mode := by
  obtain ⟨u, k, hu, hk, hothers, _, hframe⟩ := tlbwInsertsOneEntry s rE rV hm
  cases h.symm.trans hu
  have hpid : t.core.pid = s.core.pid := by rw [hframe]
  refine ⟨k, ⟨?_, fun j hj hhit => ?_⟩, ?_, by rw [hframe]⟩
  · rw [hk, hpid]; exact ⟨rfl, hva.symm, .inl rfl⟩
  · obtain ⟨hin, hout⟩ := hothers j (ne_of_lt hj)
    by_cases hc : EntryConflicts (newEntry s.core.pid (s.reg rE) (s.reg rV)) s.core.tlb[j]
    · rw [hin hc] at hhit
      exact Bool.noConfusion hhit.1
    · rw [hout hc, hpid] at hhit
      exact hc (conflicts_of_hits hva.symm hhit)
  · rw [hk]
    exact (extract_append_extract (s.reg rE) 0 12 20).trans BitVec.extractLsb'_eq_self

/-- Settles O47: the lookup's answer for a match, for none, and for what `tlbw` wrote. -/
theorem tlbrReadsWhatTlbwWrote : Obligations.TlbrReadsWhatTlbwWrote := by
  intro s rD rV hm
  refine ⟨fun k hk => tlbLookup_match hk ▸ tlbr_moves hm rD rV, fun hnone => tlbLookup_none hnone ▸ tlbr_moves hm rD rV,
    fun rE rW t ht hpage => ?_⟩
  obtain ⟨k, hk, hword, hmode⟩ := tlbw_match hm ht hpage
  rw [← hword, ← tlbLookup_match hk]
  exact tlbr_moves (hmode ▸ hm) rD rW

/-! ### ipi -/

theorem cores_getElem?_current (s : State) : s.cores[s.done.length]? = some s.core := by
  rw [State.cores, List.getElem?_append_right (Nat.le_refl _), Nat.sub_self]; rfl

/-- Where only the current core differs, the others are found as before. -/
theorem cores_getElem?_other {s t : State} (hd : t.done = s.done) (ht : t.todo = s.todo) {k : Nat} (hk : k ≠ s.done.length) :
    t.cores[k]? = s.cores[k]? := by
  rw [State.cores, State.cores, hd, ht]
  rcases Nat.lt_or_gt_of_ne hk with h | h
  · rw [List.getElem?_append_left h, List.getElem?_append_left h]
  · obtain ⟨n, hn⟩ : ∃ n, k - s.done.length = n + 1 := ⟨k - s.done.length - 1, by omega⟩
    rw [List.getElem?_append_right h.le, List.getElem?_append_right h.le, hn]; rfl

theorem modifyCore_done_length (s : State) (n : Nat) (f : CoreState → CoreState) :
    (s.modifyCore n f).done.length = s.done.length := by
  unfold State.modifyCore; split
  · exact List.length_modify ..
  · split <;> rfl

/-- The core that `modifyCore` leaves at each place. -/
theorem modifyCore_getElem? {s : State} {n k : Nat} {f : CoreState → CoreState} {c d : CoreState} (hc : s.cores[k]? = some c)
    (hd : (s.modifyCore n f).cores[k]? = some d) : d = if n = k then f c else c := by
  rw [modifyCore_cores, List.getElem?_modify, hc] at hd
  cases hd
  split <;> rfl

/-- What `ipi` does to a core: the target's mbi, isr and mark. -/
theorem receiveIpi_core (payload : Word) (c : CoreState) (target : Prop) [Decidable target] :
    let d := if target then receiveIpi payload c else c
    (target → d.mbi = payload ∧ d.isr = c.isr ||| 0x20#16 ∧ d.written.mbi = true) ∧
      (¬ target → d.mbi = c.mbi ∧ d.isr = c.isr ∧ d.written.mbi = c.written.mbi) ∧
      d = { c with mbi := d.mbi, isr := d.isr, written := { c.written with mbi := d.written.mbi } } := by
  by_cases h : target
  · simp [h, receiveIpi, ipiBit]
  · simp [h]

theorem regWritten_receiveIpi (payload : Word) (c : CoreState) (r : Reg) :
    (receiveIpi payload c).regWritten r = c.regWritten r := by
  show (receiveIpi payload c).targetWritten (resolve c.mode r) = c.targetWritten (resolve c.mode r)
  cases resolve c.mode r <;> rfl

/-- The sender's own registers, where it may itself be the target. -/
theorem keeps_modifyCore (s : State) (n : Nat) (payload : Word) (regs : List Reg) :
    Keeps s.core (s.modifyCore n (receiveIpi payload)).core regs [.mbi, .isr] := by
  rcases modifyCore_core s n (receiveIpi payload) with e | e <;> rw [e]
  · exact keeps_refl _ _ _
  · refine ⟨⟨rfl, rfl, rfl, rfl, rfl, rfl, rfl⟩, fun r _ => ⟨reg_congr _ _ rfl rfl rfl rfl rfl r,
      regWritten_receiveIpi _ _ r⟩, fun q hq _ => ?_⟩
    exact receiveIpi_controlKept payload s.core (by rintro rfl; simp at hq) (by rintro rfl; simp at hq)

theorem modifyCore_receiveIpi_pc (s : State) (n : Nat) (payload : Word) :
    (s.modifyCore n (receiveIpi payload)).core.pc = s.core.pc := by
  rcases modifyCore_core s n (receiveIpi payload) with e | e <;> rw [e]; rfl

theorem setReg_writtenMbi (c : CoreState) (r : Reg) (v : Word) : (c.setReg r v).written.mbi = c.written.mbi := by
  unfold CoreState.setReg CoreState.writeTarget; split <;> rfl

/-- A register write of the current core leaves every core's mbi and isr, and every other core whole. -/
theorem setReg_advance_getElem? {u : State} {r : Reg} {v : Word} {k : Nat} {d : CoreState}
    (hd : ((u.setReg r v).advance).cores[k]? = some d) :
    ∃ d', u.cores[k]? = some d' ∧ (d.mbi = d'.mbi ∧ d.isr = d'.isr ∧ d.written.mbi = d'.written.mbi) ∧
      (k ≠ u.done.length → d = d') := by
  by_cases hk : k = u.done.length
  · subst hk
    cases hd.symm.trans (cores_getElem?_current ((u.setReg r v).advance))
    exact ⟨u.core, cores_getElem?_current u, by simp [setReg_writtenMbi], fun h => absurd rfl h⟩
  · have hsame := cores_getElem?_other (s := u) (t := (u.setReg r v).advance) rfl rfl hk
    exact ⟨d, hsame.symm.trans hd, ⟨rfl, rfl, rfl⟩, fun _ => rfl⟩

/-- Settles O49: where the target exists, `receiveIpi` at its place and then the sender's flag. -/
theorem ipiReachesItsTarget : Obligations.IpiReachesItsTarget := by
  intro s rD rT hm
  refine ⟨fun hno => writeMove_moves s _ rD _ ((privileged_other hm _).trans (if_neg (by omega))), fun hyes => ?_⟩
  let u := s.modifyCore (s.reg rT).toNat (receiveIpi s.core.mbo)
  have hlen : u.done.length = s.done.length := modifyCore_done_length _ _ _
  have hkeeps : Keeps s.core ((u.setReg rD 1#32).advance).core [rD] [.mbi, .isr] :=
    keeps_trans (keeps_modifyCore _ _ _ _) (keeps_trans (keeps_setReg _ _ (by simp)) (keeps_pc _ _))
  refine ⟨(u.setReg rD 1#32).advance, (privileged_other hm _).trans (if_pos hyes), ⟨by simp [State.reg], by simp⟩, ?_,
    hkeeps.hidden, hkeeps.registers, ?_, fun k c d hc hd => ?_, by simp [u], by simp [u], by simp [u], by simp [u]⟩
  · rw [advance_core_pc, setReg_core, core_setReg_pc, modifyCore_receiveIpi_pc]
  · have hcores : u.cores.length = s.cores.length := by rw [modifyCore_cores, List.length_modify]
    exact (by simp [State.cores] : ((u.setReg rD 1#32).advance).cores.length = u.cores.length).trans hcores
  · obtain ⟨d', hd', ⟨hmbi, hisr, hmark⟩, hsame⟩ := setReg_advance_getElem? hd
    cases modifyCore_getElem? hc hd'
    obtain ⟨htarget, hother, hrest⟩ := receiveIpi_core s.core.mbo c ((s.reg rT).toNat = k)
    rw [hmbi, hisr, hmark]
    exact ⟨fun h => htarget h.symm, fun h => hother (Ne.symm h), fun h => (hsame (hlen ▸ h)).trans hrest⟩

end Sys2Proof.Proofs
end

section
/-! Proofs of the statements about the devices (spec/20_memory.md section 5, spec/60_exceptions.md section 5). -/
namespace Sys2Proof.Proofs

open Sys2Proof Sys2Proof.Machine

/-! ### Ports -/

section
variable {d : Devices} {a : Word} {row : PortRow} (h : portAt a = some row)
include h

/-- A port that starts at an address answers there what it reads, cut to the access. -/
theorem portAnswers_row {v : Word} {e : Devices} (hread : d.readPort row.port = (v, e)) : PortAnswers d a row.width v e :=
  fun w => by simp only [portRead, h, hread, maskToPort_eq]

theorem portTakes_row : PortTakes d a row.width (d.writePort row.port) := fun w v => by
  rw [portWrite, h, ← maskToPort_eq]

end

theorem readPort_ps2Data_cons {d : Devices} {e : Half} {q : List Half} (h : d.ps2Queue = e :: q) :
    d.readPort .ps2Data = (e.zeroExtend 32, { d with ps2Queue := q }) := by
  rw [Devices.readPort, h]; rfl

theorem readPort_ps2Data_nil {d : Devices} (h : d.ps2Queue = []) : d.readPort .ps2Data = (0#32, d) := by
  cases d; cases h; rfl

theorem readPort_uartRx_cons {d : Devices} {b : Byte} {q : List Byte} (h : d.uartRx = b :: q) :
    d.readPort .uartRx = (b.zeroExtend 32, { d with uartRx := q }) := by
  rw [Devices.readPort, h]; rfl

theorem readPort_uartRx_nil {d : Devices} (h : d.uartRx = []) : d.readPort .uartRx = (0#32, d) := by
  cases d; cases h; rfl

theorem queueAndTimerPorts (d : Devices) : QueueAndTimerPorts d :=
  have hps2 : portAt 0x07FE5800#32 = some ⟨0x07FE5800, .ps2Data, .half⟩ := rfl
  have htx : portAt 0x07FE5802#32 = some ⟨0x07FE5802, .uartTx, .byte⟩ := rfl
  have hrx : portAt 0x07FE5803#32 = some ⟨0x07FE5803, .uartRx, .byte⟩ := rfl
  have hpit : portAt 0x07FE5804#32 = some ⟨0x07FE5804, .pitInterval, .word⟩ := rfl
  ⟨fun _ _ hq => portAnswers_row hps2 (readPort_ps2Data_cons hq), fun hq => portAnswers_row hps2 (readPort_ps2Data_nil hq),
    portTakes_row hps2, portAnswers_row htx rfl, portTakes_row htx,
    fun _ _ hq => portAnswers_row hrx (readPort_uartRx_cons hq), fun hq => portAnswers_row hrx (readPort_uartRx_nil hq),
    portTakes_row hrx, portAnswers_row hpit rfl, portTakes_row hpit⟩

/-- The five registers of a slot stand one after another from its base on (R82). -/
theorem portAt_slot (i : SlotId) :
    (∃ n, portAt (slotBase i) = some ⟨n, .sdMemAddr i, .word⟩) ∧
      (∃ n, portAt (slotBase i + 4#32) = some ⟨n, .sdBlock i, .word⟩) ∧
      (∃ n, portAt (slotBase i + 8#32) = some ⟨n, .sdLen i, .word⟩) ∧
      (∃ n, portAt (slotBase i + 12#32) = some ⟨n, .sdCtrl i, .word⟩) ∧
      ∃ n, portAt (slotBase i + 16#32) = some ⟨n, .sdStatus i, .word⟩ := by
  cases i <;> exact ⟨⟨_, rfl⟩, ⟨_, rfl⟩, ⟨_, rfl⟩, ⟨_, rfl⟩, _, rfl⟩

theorem slotPorts (d : Devices) (i : SlotId) : SlotPorts d i := by
  obtain ⟨⟨_, hmem⟩, ⟨_, hblock⟩, ⟨_, hlen⟩, ⟨_, hctrl⟩, _, hstatus⟩ := portAt_slot i
  refine ⟨portAnswers_row hmem rfl, portTakes_row hmem, portAnswers_row hblock rfl, portTakes_row hblock,
    portAnswers_row hlen rfl, portTakes_row hlen, portAnswers_row hctrl rfl, ?_, portTakes_row hstatus⟩
  have hbusy : zext (BitVec.ofBool (d.slot i).busy) = if (d.slot i).busy = true then 1#32 else 0#32 := by
    cases (d.slot i).busy <;> rfl
  exact portAnswers_row hstatus (congrArg (·, d) hbusy)

theorem vgaPorts (d : Devices) : VgaPorts d :=
  have hh : portAt 0x07FE5B40#32 = some ⟨0x07FE5B40, .vgaHscroll, .half⟩ := rfl
  have hv : portAt 0x07FE5B42#32 = some ⟨0x07FE5B42, .vgaVscroll, .half⟩ := rfl
  have hmode : portAt 0x07FE5B44#32 = some ⟨0x07FE5B44, .vgaMode, .half⟩ := rfl
  have hscale : portAt 0x07FE5B46#32 = some ⟨0x07FE5B46, .vgaScale, .half⟩ := rfl
  have hstatus : portAt 0x07FE5B48#32 = some ⟨0x07FE5B48, .vgaStatus, .half⟩ := rfl
  have hframe : portAt 0x07FE5B4A#32 = some ⟨0x07FE5B4A, .vgaFrame, .half⟩ := rfl
  have hclk : portAt 0x07FE5B4C#32 = some ⟨0x07FE5B4C, .vgaClkdiv, .half⟩ := rfl
  ⟨portAnswers_row hh rfl, portTakes_row hh, portAnswers_row hv rfl, portTakes_row hv, portAnswers_row hmode rfl,
    portTakes_row hmode, portAnswers_row hscale rfl, portTakes_row hscale, ⟨_, portAnswers_row hstatus rfl⟩, portTakes_row hstatus,
    portAnswers_row hframe rfl, portTakes_row hframe, portAnswers_row hclk rfl, portTakes_row hclk⟩

/-- Where no port starts, none is found. -/
theorem portAt_none {a : Word} (h : a.toNat ∉ portStarts) : portAt a = none := by
  refine List.find?_eq_none.mpr fun row hrow heq => h ?_
  rw [← beq_iff_eq.mp heq]
  exact List.mem_map_of_mem (f := PortRow.address) hrow

theorem place_port_iff (p : Params) (a : Word) (w : Width) :
    place p a w = .port ↔ 0x07FE5800 ≤ a.toNat ∧ a.toNat ≤ 0x07FE5B4F := by
  rw [← portWindow_has]
  refine ⟨fun hp => ?_, fun h => if_pos h⟩
  by_contra h
  rw [place, if_neg h] at hp
  split at hp
  · cases hp
  · split at hp <;> cases hp

/-- Settles O53: each row of the port table answers and takes what the statement says of it. -/
theorem portsHaveTheirEffects : Obligations.PortsHaveTheirEffects := fun p d =>
  ⟨queueAndTimerPorts d, slotPorts d .sd0, slotPorts d .sd1, vgaPorts d,
    fun a ha w v => ⟨by rw [portRead, portAt_none ha], by rw [portWrite, portAt_none ha]⟩, place_port_iff p⟩

/-- A write of CTRL is a command of the value cut to the access. -/
theorem portWrite_ctrl (d : Devices) (w : Width) (x : Word) (i : SlotId) :
    portWrite d (slotBase i + 12#32) w x = d.setSlot i ((d.slot i).command (cutTo w .word x)) := by
  obtain ⟨_, _, _, ⟨_, hctrl⟩, _⟩ := portAt_slot i
  exact portTakes_row hctrl w x

/-- Settles O54: the four ways of a command. -/
theorem sdCommandLatchesTheTransfer : Obligations.SdCommandLatchesTheTransfer := by
  intro d w x i v a b
  have ha : a = b.command v := by rw [show a = _ from congrArg (·.slot i) (portWrite_ctrl d w x i), slot_setSlot_same]
  refine ⟨fun hb => ?_, fun hb hv => ?_, fun hb hv => ?_, fun hb h1 h3 h8 => ?_, ?_⟩
  · rw [ha, SdSlot.command, if_pos hb]
  · rw [ha, SdSlot.command, if_neg (by simp [hb]), if_pos hv]
  · rw [ha, SdSlot.command, if_neg (by simp [hb]), if_neg (by simp [hv]), if_pos hv]
  · rw [ha, SdSlot.command, if_neg (by simp [hb]), if_neg (by simp [h1, h3]), if_neg h8]
  · rw [ha]; exact portWrite_ctrl d w x i

/-! ### DMA -/

section
variable {q : Bool} {s : State} {i : SlotId}

theorem dmaSlot_idle (h : (s.dev.slot i).busy = false) : dmaSlot q s i = s := by
  rw [dmaSlot, h]; rfl

theorem dmaSlot_init (hb : (s.dev.slot i).busy = true) (hk : (s.dev.slot i).kind = .init) :
    dmaSlot q s i = s.setSlot i { s.dev.slot i with busy := false } := by
  simp [dmaSlot, hb, hk]

theorem dmaSlot_waiting (hb : (s.dev.slot i).busy = true) (hk : (s.dev.slot i).kind ≠ .init) : dmaSlot false s i = s := by
  simp [dmaSlot, hb, hk]

theorem dmaSlot_ended (hb : (s.dev.slot i).busy = true) (hk : (s.dev.slot i).kind ≠ .init)
    (hrem : (s.dev.slot i).rem = 0#32) : dmaSlot true s i = s.setSlot i { s.dev.slot i with busy := false } := by
  simp [dmaSlot, hb, hk, hrem]

theorem dmaSlot_moves (hb : (s.dev.slot i).busy = true) (hk : (s.dev.slot i).kind ≠ .init)
    (hrem : (s.dev.slot i).rem ≠ 0#32) : dmaSlot true s i = dmaQuantum s i := by
  simp [dmaSlot, hb, hk, hrem]

end

/-- A bus write leaves of the state what it writes of memory and the devices. -/
theorem physWrite_state (s : State) (pa : Word) (w : Width) (v : Word) :
    physWrite s pa w v = { s with mem := (physWrite s pa w v).mem, dev := (physWrite s pa w v).dev } := by
  unfold physWrite; split <;> rfl

theorem physWrite_setSlot (s : State) (pa : Word) (w : Width) (v : Word) (i : SlotId) (x : SdSlot) :
    (physWrite s pa w v).setSlot i x =
      { s with mem := (physWrite s pa w v).mem, dev := (physWrite s pa w v).dev.setSlot i x } :=
  congrArg (fun t : State => t.setSlot i x) (physWrite_state s pa w v)

theorem physRead_setSlot (s : State) (pa : Word) (w : Width) (i : SlotId) (x : SdSlot) :
    (physRead s pa w).2.setSlot i x = { s with dev := (physRead s pa w).2.dev.setSlot i x } :=
  congrArg (fun t : State => t.setSlot i x) (physRead_state s pa w)

/-- One slot's part, case by case. -/
theorem slotStep_dmaSlot {due : Bool} {s : State} {i : SlotId} (hm : Memory.wf s.mem = true)
    (hi : Memory.wf (s.dev.slot i).image.bytes = true) : SlotStep due s (dmaSlot due s i) i := by
  refine ⟨dmaSlot_idle, dmaSlot_init, fun hb hk hd => ?_, fun hb hk hd hrem => ?_, fun hb hd hrem hk => ?_,
    fun hb hd hrem hr hk => ?_⟩ <;> subst hd
  · exact dmaSlot_waiting hb hk
  · exact dmaSlot_ended hb hk hrem
  · rw [dmaSlot_moves hb (by rw [hk]; decide) hrem, dmaQuantum_read s i hk]
    refine ⟨_, _, fun k => readWord_bytes _ _ k, physWrite_writesAs s hm _ .word _, ?_⟩
    exact physWrite_setSlot s _ .word _ i _
  · rw [dmaSlot_moves hb hk hrem, dmaQuantum_write s i hr]
    refine ⟨_, _, _, physRead_readsAs s _ .word, writeWord_size _ _ _, readByte_writeWord _ hi _ _, ?_⟩
    rw [physRead_slot]
    exact physRead_setSlot s _ .word i _

/-- One slot's part leaves the other slot's image. -/
theorem dmaSlot_image_other {q : Bool} {s : State} {i j : SlotId} (h : j ≠ i) :
    ((dmaSlot q s i).dev.slot j).image = (s.dev.slot j).image := by
  rcases dmaSlot_cases q s i with e | e | ⟨_, e⟩ | e <;> rw [e]
  · rw [setSlot_dev, slot_setSlot_other _ _ _ _ h]
  · rw [setSlot_dev, slot_setSlot_other _ _ _ _ h, physWrite_image]
  · rw [setSlot_dev, slot_setSlot_other _ _ _ _ h, physRead_slot]

/-- Settles O55: the counter's move and then each slot's part. -/
theorem dmaMovesOneQuantum : Obligations.DmaMovesOneQuantum := by
  refine ⟨fun m b hb => if_neg (by omega), fun s hm hi => ⟨dmaSlot (dmaDue s) (dmaCountStep s) .sd0, ?_, ?_⟩⟩
  · exact slotStep_dmaSlot (s := dmaCountStep s) hm (by rw [dmaCountStep_slot]; exact hi _)
  · refine slotStep_dmaSlot (dmaSlot_mem_wf _ _ _ hm) ?_
    rw [dmaSlot_image_other (by decide), dmaCountStep_slot]
    exact hi _

/-! ### The sample and the host -/

theorem pitDue_iff (d : Devices) : pitDue d = true ↔ d.pitPeriod ≠ 0#32 ∧ d.pitPeriod.toNat ≤ d.pitCount + 1 := by
  simp [pitDue]

theorem inputWaiting_iff (s : State) :
    inputWaiting s = true ↔ if s.params.uartInput = true then s.dev.uartRx ≠ [] else s.dev.ps2Queue ≠ [] := by
  unfold inputWaiting; split <;> simp

/-- Settles O56: the sample's isr bits and devices, then the first core's turn. -/
theorem sampleRaisesTheLines : Obligations.SampleRaisesTheLines := by
  refine ⟨endVisit_next, fun s hs => ?_⟩
  rw [endVisit_last s hs]
  refine ⟨rewind_done _, ?_, ?_, by simp, by simp, by simp⟩
  · rw [rewind_cores, sample_cores]
    refine List.map_congr_left fun c _ => ?_
    rw [withLines, sampleLines, BitVec.or_assoc, BitVec.or_assoc, BitVec.or_assoc, if_congr (pitDue_iff _) rfl rfl,
      if_congr (inputWaiting_iff _) rfl rfl]
    rfl
  · rw [rewind_dev, sample_eq]
    show sampleDevices s = _
    rw [sampleDevices, if_congr (pitDue_iff _) rfl rfl]
    by_cases hnever : s.params.vgaFramePasses = 0
    · simp [hnever]
    · simp [hnever]

/-- The key event of an input, which the PS/2 queue takes. -/
def keyEventOf : HostInput → Option Half
  | .keyEvent e => some e
  | .uartByte _ => none

/-- The byte of an input, which the UART RX queue takes. -/
def uartByteOf : HostInput → Option Byte
  | .uartByte b => some b
  | .keyEvent _ => none

theorem receiveAll_keyEvents (d : Devices) (l : List HostInput) :
    l.foldl (Devices.receive false) d = { d with ps2Queue := d.ps2Queue ++ l.filterMap keyEventOf } := by
  induction l generalizing d with
  | nil => simp
  | cons x l ih => cases x <;> simp [Devices.receive, ih, keyEventOf, List.filterMap_cons]

theorem receiveAll_uartBytes (d : Devices) (l : List HostInput) :
    l.foldl (Devices.receive true) d = { d with uartRx := d.uartRx ++ l.filterMap uartByteOf } := by
  induction l generalizing d with
  | nil => simp
  | cons x l ih => cases x <;> simp [Devices.receive, ih, uartByteOf, List.filterMap_cons]

/-- Between passes the schedule's first list arrives. -/
theorem beginVisit_first {s : State} {now : List HostInput} {later : List (List HostInput)} (hd : s.done = [])
    (hsched : s.hostSchedule = now :: later) :
    beginVisit s = { s with
      dev := now.foldl (Devices.receive s.params.uartInput) s.dev
      hostSchedule := later } := by
  rw [beginVisit, State.atPassStart, if_pos (by simp [hd]), hostArrive, hsched]; rfl

/-- Settles O57: the arrival is one pass's inputs, each to the active queue. -/
theorem hostInputArrivesBetweenPasses : Obligations.HostInputArrivesBetweenPasses := by
  intro s now later
  refine ⟨fun hd => ?_, fun hsched => ?_, fun hd hsched => ⟨fun hu => ?_, fun hu => ?_⟩⟩
  · rw [beginVisit, State.atPassStart, if_neg (by simpa using hd)]
  · unfold beginVisit
    split
    · rw [hostArrive, hsched]; cases s; cases hsched; rfl
    · rfl
  · rw [beginVisit_first hd hsched, hu, receiveAll_keyEvents]; rfl
  · rw [beginVisit_first hd hsched, hu, receiveAll_uartBytes]; rfl

end Sys2Proof.Proofs
end

section
/-! Proof of the statement about the reset state (spec/70_reset_and_hazards.md). -/
namespace Sys2Proof.Proofs

open Sys2Proof Sys2Proof.Machine

/-! ### The loaded image -/

theorem deviceAt_iff (a : Nat) : deviceAt a = true ↔ InVga a 1 ∨ InPorts a 1 := by
  rw [deviceAt, Bool.or_eq_true, portWindow_has_iff (.inl rfl) (Nat.mod_one a),
    storageRegions_has_iff (.inl rfl) (Nat.mod_one a), or_comm]

/-- The loaded memory is the image outside the device regions, and 0 elsewhere. -/
theorem bootMemory_holdsImage (image : List Word) : HoldsImage (bootMemory image) image := by
  refine ⟨fun k w hw j hj => ?_, fun a ha => ?_⟩
  · have hget : image.getD k 0#32 = w := by rw [List.getD_eq_getElem?_getD, hw]; rfl
    rw [read_bootMemory image k j hj, hget]
    exact ⟨fun hv hp => if_neg (mt (deviceAt_iff _).mp (not_or.mpr ⟨hv, hp⟩)), fun h => if_pos ((deviceAt_iff _).mpr h)⟩
  · have hget : image.getD (a / 4) 0#32 = 0#32 := List.getD_eq_default _ _ (by omega)
    rw [← Nat.div_add_mod a 4, read_bootMemory image _ _ (Nat.mod_lt a (by omega)), hget]
    simp

/-- An SD image is the bytes it was loaded from. -/
theorem load_isRaw (raw : List Byte) : IsRaw (SdImage.load raw) raw := ⟨SdImage.load_size raw, readByte_load raw⟩

/-! ### The cores -/

/-- Nothing but r0 counts as written at reset (R380). -/
theorem targetWritten_reset (k : Nat) (x : RegTarget) : (CoreState.reset k).targetWritten x = true ↔ x = .zero := by
  cases x with
  | gpr j => simp [CoreState.targetWritten, CoreState.reset, Written.none]
  | zero | usp | ksp | isp => simp [CoreState.targetWritten, CoreState.reset, Written.none]

theorem resolve_eq_zero_iff (m : Mode) (r : Reg) : resolve m r = .zero ↔ r = 0#5 :=
  ⟨fun h => resolve_injective m r 0#5 (h.trans (resolve_zero m).symm), fun h => h ▸ resolve_zero m⟩

theorem regWritten_reset (k : Nat) (r : Reg) : (CoreState.reset k).regWritten r = true ↔ r = 0#5 :=
  (targetWritten_reset k _).trans (resolve_eq_zero_iff _ r)

/-- The control registers that keep their values count as written from reset on (R380). -/
theorem crWritten_reset (k : Nat) (q : CReg) :
    (CoreState.reset k).crWritten q = true ↔ q = .pid ∨ q = .imr ∨ q = .isr ∨ q = .cid ∨ q = .flg := by
  cases q <;> simp [CoreState.crWritten, CoreState.reset, Written.none]

/-- The core at each place of a reset state. -/
theorem initial_getElem? {p : Params} {n : Nat} {m : Memory} {i0 i1 : SdImage} {l : List (List HostInput)} {k : Nat}
    {c : CoreState} (h : (State.initial p n m i0 i1 l).cores[k]? = some c) : c = CoreState.reset k := by
  rw [initial_cores, List.getElem?_map, Option.map_eq_some_iff] at h
  obtain ⟨j, hj, rfl⟩ := h
  obtain ⟨_, rfl⟩ := List.getElem?_eq_some_iff.mp hj
  rw [List.getElem_range]

/-- Settles O58: a boot is the reset state on its loaded images. -/
theorem resetStateOfEveryCore : Obligations.ResetStateOfEveryCore := by
  refine ⟨rfl, fun p others image raw0 raw1 sched => ⟨fun hlong => if_pos hlong, fun hfits => ?_⟩⟩
  refine ⟨_, if_neg (by omega), rfl, ?_, rfl, bootMemory_holdsImage image, rfl, ⟨rfl, rfl, rfl, rfl, rfl⟩,
    ⟨rfl, rfl, rfl, rfl, rfl, rfl, rfl, rfl⟩, fun j => ?_, fun k c hc => ?_⟩
  · rw [nCores_eq, initial_cores, List.length_map, List.length_range]
  · cases j with
    | sd0 => exact ⟨_, load_isRaw raw0, rfl⟩
    | sd1 => exact ⟨_, load_isRaw raw1, rfl⟩
  · cases initial_getElem? hc
    refine ⟨rfl, rfl, rfl, rfl, rfl, rfl, fun j => ?_, rfl, rfl, rfl, fun r => ⟨readTarget_reset k _, regWritten_reset k r⟩,
      fun q => ⟨readCr_reset k q, crWritten_reset k q⟩⟩
    simp [CoreState.reset, TlbEntry.empty]

end Sys2Proof.Proofs
end
